-- ==== Sys2Proof/Syntax.lean ====
section
/-! DEFINITION. The rows of spec/opcode_table.json, one constructor each (R62, R63, R57, R23). -/

namespace Sys2Proof

/-- The eighteen rows of the operation table. The ten operations and the six reserved codes have no operand (R61); the two
data layouts carry the fields that their pattern of bits names. -/
inductive Instr where
  /-- CHK, code 0: the cancellation check (R122). -/
  | chk
  /-- CAP, code 1: capture (R123). -/
  | cap
  /-- NRM, code 2: the byte-order normaliser (R77). -/
  | nrm
  /-- EXP, code 3: the channel expander (R79). -/
  | exp
  /-- ASM, code 4: the frame assembler (R81). -/
  | asm
  /-- RSZ, code 5: the image resampler (R95). -/
  | rsz
  /-- SHP, code 6: the sharpness filter (R104). -/
  | shp
  /-- DTH, code 7: the ditherer (R114). -/
  | dth
  /-- SUB, code 8: submit (R124). -/
  | sub
  /-- DLY, code 9: the delay (R125). -/
  | dly
  /-- PackedSample (R57): the layout of one normalised sample, not an operation. -/
  | packedSample (red : BitVec 5) (green : BitVec 6) (blue : BitVec 5)
  /-- STATUS (R23): the read-only view of the run state; here, the environment's read that returns this word. -/
  | status (heldDisp heldCap : Bool) (phase : BitVec 4) (err : BitVec 2) (stopPend run : Bool)
  /-- Reserved PHASE code 10 (R63). -/
  | reserved10
  /-- Reserved PHASE code 11 (R63). -/
  | reserved11
  /-- Reserved PHASE code 12 (R63). -/
  | reserved12
  /-- Reserved PHASE code 13 (R63). -/
  | reserved13
  /-- Reserved PHASE code 14 (R63). -/
  | reserved14
  /-- Reserved PHASE code 15 (R63). -/
  | reserved15
  deriving DecidableEq, Repr

end Sys2Proof
end

