-- ==== Sys2Proof/Word.lean ====
section
/-! DEFINITION. The element types of the block's buffers (R14, R42, R55) and nothing else. -/

namespace Sys2Proof

/-- One byte of a snapshot, or one colour channel (R14: u8). -/
abbrev Byte := BitVec 8

/-- One normalised PackedSample (R57: u16). -/
abbrev Sample := BitVec 16

/-- Channel Triple (R58): three u8 in the order R, G, B. -/
structure Triple where
  r : Byte
  g : Byte
  b : Byte
  deriving DecidableEq, Repr, Inhabited

/-- A grid of Channel Triples, row first (R11: `BUF[y][x]`). -/
abbrev Image := List (List Triple)

/-- A grid of bitonal pixels (R59): `true` is 1, white; `false` is 0, black. -/
abbrev BitImage := List (List Bool)

/-- One entry of the error accumulator (R69, R24): i16, in sixteenths of an intensity level. -/
abbrev AccEntry := BitVec 16

/-- A row of the error accumulator. -/
abbrev AccRow := List AccEntry

end Sys2Proof
end

