-- ==== Sys2Proof/Decode.lean ====
section
/-! DEFINITION. The three formats of the operation table (R61 PHASE4, R57 DATA16, R23 VIEW10): the decoder, the encoder, and
the reading of a word laid out in bytes. -/

namespace Sys2Proof

/-- A word of one of the table's three formats. -/
inductive CodeWord where
  /-- R61: the 4-bit value of PHASE. -/
  | phase4 (code : BitVec 4)
  /-- R57: one normalised sample, `rrrrrggggggbbbbb`. -/
  | data16 (sample : BitVec 16)
  /-- R23: the ten bits of STATUS, `dcppppeesr`. -/
  | view10 (word : BitVec 10)
  deriving DecidableEq, Repr

/-- R62, R63: the operation a value of PHASE selects; codes 10 to 15 are the reserved rows. -/
def decodePhase (code : BitVec 4) : Instr :=
  match code.toNat with
  | 0 => .chk
  | 1 => .cap
  | 2 => .nrm
  | 3 => .exp
  | 4 => .asm
  | 5 => .rsz
  | 6 => .shp
  | 7 => .dth
  | 8 => .sub
  | 9 => .dly
  | 10 => .reserved10
  | 11 => .reserved11
  | 12 => .reserved12
  | 13 => .reserved13
  | 14 => .reserved14
  | _ => .reserved15

/-- R57, R67 (c): red is bits 15:11, green 10:5, blue 4:0, each unsigned. -/
def decodeSample (s : BitVec 16) : Instr :=
  .packedSample (s.extractLsb' 11 5) (s.extractLsb' 5 6) (s.extractLsb' 0 5)

/-- R23: bit 0 RUN, bit 1 STOP_PEND, bits 3:2 ERR, bits 7:4 PHASE, bit 8 HELD_CAP, bit 9 HELD_DISP. -/
def decodeStatus (w : BitVec 10) : Instr :=
  .status (w.getLsbD 9) (w.getLsbD 8) (w.extractLsb' 4 4) (w.extractLsb' 2 2) (w.getLsbD 1) (w.getLsbD 0)

/-- The decoder: total on every word of every format (R61: no mode bit changes decoding). -/
def decode : CodeWord → Instr
  | .phase4 c => decodePhase c
  | .data16 s => decodeSample s
  | .view10 w => decodeStatus w

/-- R57: the sample that three fields make, `{red, green, blue}`. -/
def packSample (red : BitVec 5) (green : BitVec 6) (blue : BitVec 5) : BitVec 16 :=
  red ++ green ++ blue

/-- R23: the STATUS word that six fields make, HELD_DISP most significant. -/
def packStatus (heldDisp heldCap : Bool) (phase : BitVec 4) (err : BitVec 2) (stopPend run : Bool) : BitVec 10 :=
  BitVec.ofBool heldDisp ++ BitVec.ofBool heldCap ++ phase ++ err ++ BitVec.ofBool stopPend ++ BitVec.ofBool run

/-- The encoder, from the table's own column of codes and patterns. -/
def encode : Instr → CodeWord
  | .chk => .phase4 0
  | .cap => .phase4 1
  | .nrm => .phase4 2
  | .exp => .phase4 3
  | .asm => .phase4 4
  | .rsz => .phase4 5
  | .shp => .phase4 6
  | .dth => .phase4 7
  | .sub => .phase4 8
  | .dly => .phase4 9
  | .packedSample r g b => .data16 (packSample r g b)
  | .status d c p e s r => .view10 (packStatus d c p e s r)
  | .reserved10 => .phase4 10
  | .reserved11 => .phase4 11
  | .reserved12 => .phase4 12
  | .reserved13 => .phase4 13
  | .reserved14 => .phase4 14
  | .reserved15 => .phase4 15

/-- Why a string of bytes is no word of a format. -/
inductive DecodeReject where
  /-- Fewer bytes than the format's word has, or more. -/
  | wrongLength
  /-- A bit above the format's own is set (R61: the format has bits 3:0 and no other). -/
  | bitsAboveTheFormat
  deriving DecidableEq, Repr

/-- A format of the table. -/
inductive Format where
  | phase4
  | data16
  | view10
  deriving DecidableEq, Repr

/-- The word of a format that a string of bytes holds. A PHASE4 code is one byte; a PackedSample lies high byte first, as in a
snapshot (R56); a STATUS word, for which the spec has no byte form, is taken low byte first (log 22). -/
def wordOfBytes : Format → List Byte → Except DecodeReject CodeWord
  | .phase4, [b] => if b.toNat < 16 then .ok (.phase4 (b.setWidth 4)) else .error .bitsAboveTheFormat
  | .data16, [hi, lo] => .ok (.data16 (hi ++ lo))
  | .view10, [lo, hi] =>
    if hi.toNat < 4 then .ok (.view10 ((hi ++ lo : BitVec 16).setWidth 10)) else .error .bitsAboveTheFormat
  | _, _ => .error .wrongLength

/-- The decoder on bytes. -/
def decodeBytes (f : Format) (bytes : List Byte) : Except DecodeReject Instr :=
  match wordOfBytes f bytes with
  | .ok w => .ok (decode w)
  | .error e => .error e

/-- The instruction of a table row from its bits (bit 0 the least significant): 4 bits, or the byte that holds them, are a PHASE4
code, 16 bits a PackedSample, 10 bits a STATUS word (log 22). -/
def decodeTableWord (nbits w : Nat) : Option Instr :=
  let laid : Option (Format × List Byte) :=
    if nbits = 4 ∨ nbits = 8 then some (.phase4, [BitVec.ofNat 8 w])
    else if nbits = 16 then some (.data16, [BitVec.ofNat 8 (w / 256), BitVec.ofNat 8 w])
    else if nbits = 10 then some (.view10, [BitVec.ofNat 8 w, BitVec.ofNat 8 (w / 256)])
    else none
  match laid with
  | some (f, bytes) =>
    match decodeBytes f bytes with
    | .ok i => some i
    | .error _ => none
  | none => none

end Sys2Proof
end

