-- ==== Sys2Proof/Config.lean ====
section
/-! DEFINITION. The configuration of the block (R10, R22, 92 section 6) and the free values of the model. -/

namespace Sys2Proof

/-- The single-channel conversion LUMA of R10 and D13: a function from three u8 to u8 that the caller supplies, written as plain data
(log 13). `weighted` holds the weights over 65536 of R109; `maximum` is the other conversion the spec names (C4, X2); `exceptAt` is a
conversion with another value at one triple, so that every function on the 2^24 triples can be given. -/
inductive Luma where
  | weighted (red green blue : Nat)
  | maximum
  | minimum
  | exceptAt (px : Triple) (value : Byte) (base : Luma)
  deriving DecidableEq, Repr

/-- The parameters of R10: the eight configuration registers of R22 and the build parameters. -/
structure Configuration where
  /-- SRC_W, index 0. -/
  srcW : BitVec 16
  /-- SRC_H, index 1. -/
  srcH : BitVec 16
  /-- DST_W, index 2. -/
  dstW : BitVec 16
  /-- DST_H, index 3. -/
  dstH : BitVec 16
  /-- DELAY_MS, index 4. -/
  delayMs : BitVec 16
  /-- SHARP_F, index 5, unsigned Q8.8 (R65). -/
  sharpF : BitVec 16
  /-- DITHER_ALG, index 6; u4 as D4 has it (log 12). -/
  ditherAlg : BitVec 4
  /-- KERNEL, index 7; u4 as D4 has it (log 12). -/
  kernel : BitVec 4
  /-- COEF_P: fraction bits of a resampling coefficient (R10). -/
  coefP : Nat
  /-- LUMA (R10). -/
  luma : Luma
  /-- THRESH: the quantiser's threshold (R10), in 1 to 255 (U3). -/
  thresh : BitVec 8
  /-- PIPELINED: overlap of frames (R10); only `false` is modelled (R131). -/
  pipelined : Bool
  deriving DecidableEq, Repr

/-- W = SRC_W as a count (R14). -/
def Configuration.w (c : Configuration) : Nat := c.srcW.toNat
/-- H = SRC_H as a count (R14). -/
def Configuration.h (c : Configuration) : Nat := c.srcH.toNat
/-- DW = DST_W as a count (R14). -/
def Configuration.dw (c : Configuration) : Nat := c.dstW.toNat
/-- DH = DST_H as a count (R14). -/
def Configuration.dh (c : Configuration) : Nat := c.dstH.toNat

/-- W*H, the number of samples of a snapshot. -/
def Configuration.samples (c : Configuration) : Nat := c.w * c.h

/-- N = 2 * SRC_W * SRC_H, the number of bytes of a snapshot (R35, R123). -/
def Configuration.bytes (c : Configuration) : Nat := 2 * c.samples

/-- R10's column of reference values. The display's geometry has none (N12): 128 by 64 is the pair the spec's own illustration
uses with this source size (95 section 3.4). DESIGN CHOICE, log 1, unsafe. -/
def Configuration.reference : Configuration where
  srcW := 1280
  srcH := 720
  dstW := 128
  dstH := 64
  delayMs := 50
  sharpF := 512
  ditherAlg := 0
  kernel := 0
  coefP := 14
  luma := .weighted 19595 38470 7471
  thresh := 128
  pipelined := false

/-- What a read of STATUS returns while reset is held (the spec states registers only for when reset is released). A free value,
log 21. -/
opaque Config.statusInReset : Nat → BitVec 10

/-- How far above the least integer its first enclosure allows a coefficient is rounded, where no level of precision decides the rounding;
the arguments are n_in, n_out, the output position and the tap. A free value, log 8. -/
opaque Config.coefTie : Nat → Nat → Nat → Nat → Nat

end Sys2Proof
end

