-- ==== Sys2Proof/Machine/State.lean ====
section
/-! DEFINITION. The state of the block and of the environment it meets at its ports, the reasons a step can stop, and the
state after reset (R13 to R29, R156). -/

namespace Sys2Proof.Machine

/-- The values of ERR (R64). The reserved code 3 has no value here (U11, log 17). -/
inductive ErrorCode where
  /-- NONE, code 0. -/
  | noError
  /-- CAPTURE_SIZE, code 1: CaptureSizeError (R136, R139). -/
  | captureSize
  /-- TRANSPORT, code 2: TransportError (R137, R138). -/
  | transport
  deriving DecidableEq, Repr

/-- The answer of the capture provider to one request (R36). -/
inductive CaptureAnswer where
  | fail
  | bytes (snapshot : List Byte)
  deriving DecidableEq, Repr

/-- The answer of the display sink to one submission (R37). -/
inductive DisplayAnswer where
  | ok
  | fail
  deriving DecidableEq, Repr

/-- One move of the environment (R156, and the script of R70), or the turn it leaves to the block (log 3, log 4). What R156 lists under
"the environment never" has no move here: log 30. -/
inductive EnvMove where
  /-- The environment leaves this step to the block. -/
  | runBlock
  /-- The capture provider's next answer becomes ready (R36; `.snap`, `.snapfail`). -/
  | answerCapture (a : CaptureAnswer)
  /-- The display sink's next answer becomes ready (R37; `.sink`). -/
  | answerDisplay (a : DisplayAnswer)
  /-- The stop request is delivered (R38, R143; `.stop`). -/
  | deliverStop
  /-- Time passes by a number of milliseconds (R39; `.time`). -/
  | passTime (ms : Nat)
  /-- Reset is asserted (R157). -/
  | assertReset
  /-- Reset is released with these configuration inputs (R157, R22; `.cfg`, `.reset`). -/
  | releaseReset (cfg : Configuration)
  /-- STATUS is read (R23, R156). -/
  | readStatus
  deriving DecidableEq, Repr

/-- One transaction at a port, as the environment sees it (R49). -/
inductive PortEvent where
  /-- Reset was released with this configuration (R22: the sink's geometry is queried here). -/
  | released (cfg : Configuration)
  /-- `StopSample()` returned this (R38). -/
  | stopSample (pending : Bool)
  /-- `CaptureRead(N)` was answered so (R36). -/
  | captureRead (n : Nat) (a : CaptureAnswer)
  /-- `DisplaySubmit(img)` was answered so (R37). -/
  | displaySubmit (img : BitImage) (a : DisplayAnswer)
  /-- `Now()` returned this (R39). -/
  | now (t : Nat)
  /-- A read of STATUS returned this; bits 10 and above read as 0 (U12). -/
  | statusRead (word : BitVec 16)
  deriving DecidableEq, Repr

/-- The data buffers of R14. `none` is the spec's own "holds no value" (R15). -/
structure Buffers where
  /-- RAW: the bytes of the snapshot, index 0 first. -/
  raw : Option (List Byte)
  /-- RAW_LEN: u34, 2^34 - 1 for a longer answer (log 11). -/
  rawLen : Option (BitVec 34)
  /-- SAMP: W*H normalised samples. -/
  samp : Option (List Sample)
  /-- TRI: W*H Channel Triples. -/
  tri : Option (List Triple)
  /-- FULL: H rows of W triples. -/
  full : Option Image
  /-- TMP: H rows of DW triples; holds a value inside RSZ only (R95). -/
  tmp : Option Image
  /-- RSZ: DH rows of DW triples. -/
  rsz : Option Image
  /-- ENH: DH rows of DW triples. -/
  enh : Option Image
  /-- BIT: DH rows of DW bits. -/
  bit : Option BitImage
  /-- EACC: the row being scanned and the row below; holds a value inside DTH only (R24, R114). -/
  eacc : Option (AccRow × AccRow)
  deriving DecidableEq, Repr

/-- Every data buffer holds no value (R15, R28). -/
def Buffers.empty : Buffers where
  raw := none
  rawLen := none
  samp := none
  tri := none
  full := none
  tmp := none
  rsz := none
  enh := none
  bit := none
  eacc := none

/-- The names of the buffers that an operation reads. -/
inductive BufferName where
  | raw
  | samp
  | tri
  | full
  | rsz
  | enh
  | bit
  deriving DecidableEq, Repr

/-- The environment as plain data (log 3): what it has ready, what it will do, what it has seen. -/
structure Env where
  /-- What `Now()` returns (R39). -/
  now : Nat
  /-- Answers of the capture provider that are ready, first one first (R36). -/
  capAnswers : List CaptureAnswer
  /-- Answers of the display sink that are ready, first one first (R37). -/
  dispAnswers : List DisplayAnswer
  /-- The environment's moves to come, next one first. -/
  schedule : List EnvMove
  /-- The port transactions so far, latest first. The model's own field (log 16). -/
  trace : List PortEvent
  /-- How many free values have been used. The model's own field (log 6). -/
  free : Nat
  deriving DecidableEq, Repr

/-- The whole state: the block's registers and buffers, its reset input, and the environment. -/
structure State where
  /-- Configuration registers and build parameters (R22, R10). -/
  cfg : Configuration
  /-- PHASE (R16). -/
  phase : BitVec 4
  /-- RUN (R17): true is RUNNING. -/
  run : Bool
  /-- ERR (R18). -/
  err : ErrorCode
  /-- STOP_PEND (R19). -/
  stopPend : Bool
  /-- T_END (R20), milliseconds. -/
  tEnd : Nat
  /-- HELD_CAP (R21). -/
  heldCap : Bool
  /-- HELD_DISP (R21). -/
  heldDisp : Bool
  /-- The data buffers (R14). -/
  buf : Buffers
  /-- The reset input is asserted (R157). -/
  inReset : Bool
  /-- The environment (R156). -/
  env : Env
  deriving DecidableEq, Repr

/-- Why the machine has no next step. None of these is an error of the block: its errors are next states with ERR set (R140). -/
inductive Fault where
  /-- An operation reads a buffer that holds no value (R15, D30, U9: "fault on read"). Raised by NRM, EXP, ASM, RSZ, SHP, DTH, SUB.
  Safe: no rule performs such a read. -/
  | holdsNoValue (b : BufferName)
  /-- An operation reads a buffer whose size is not the one R14 gives it. Raised by NRM, EXP, RSZ, SHP, DTH, SUB in states that no run
  reaches (log 15). Safe. -/
  | badShape (b : BufferName)
  /-- CAP has asked and no answer is ready: the block is blocked, "a state with no step" (R121, R128, U14; log 4). Safe. -/
  | blockedInCapture
  /-- SUB has handed its image over and no answer is ready (R121, R128, U14; log 4). Safe. -/
  | blockedInSubmit
  /-- DLY waits and Now() has not come to T_END + DELAY_MS (R121, R125, R152; log 4): time must pass before the block has a step. Raised
  by DLY. Safe. -/
  | blockedInDelay
  /-- RUN is 0: "When RUN = 0 the block executes nothing" (R127). Raised by step. Safe. -/
  | stopped
  /-- Reset is asserted: "While it is asserted the block takes no step" (R157). Raised by step. Safe. -/
  | heldInReset
  /-- PHASE holds a reserved code: "the block is stuck" (R63, U10). Raised by the six reserved rows. Safe. -/
  | reservedPhase (code : BitVec 4)
  /-- The row PackedSample is a data layout, "Not an operation" (log 18). Raised by it alone. Safe. -/
  | notAnOperation
  /-- A read of STATUS that would return a word other than the one STATUS shows: there is no such read (log 19). Raised by the row
  STATUS. Safe. -/
  | statusReadsOtherwise
  deriving DecidableEq, Repr

/-- Why the model has no run. -/
inductive Refusal where
  /-- The instruction has no meaning yet. Raised by exec's arms only. Safe. -/
  | notModelled (mnemonic : String)
  /-- R155: a dimension is 0, a selector is reserved, or a parameter is outside the range the spec or the log gives it: "a model
  refuses it: no run exists". Raised by the release of reset, by step, by RSZ and by DTH. Safe. -/
  | invalidConfiguration
  /-- R155, R98: the coefficient tables of the configuration fail an obligation. Raised by the release of reset and by RSZ. Safe. -/
  | coefficientTables
  deriving DecidableEq, Repr

/-- R28, R157: the state when reset is released with the configuration inputs `cfg` while the environment is `env`. T_END, which
the spec leaves unspecified, is 0: DESIGN CHOICE, log 2, unsafe. -/
def State.resetWith (cfg : Configuration) (env : Env) : State where
  cfg := cfg
  phase := 0
  run := true
  err := .noError
  stopPend := false
  tEnd := 0
  heldCap := true
  heldDisp := true
  buf := Buffers.empty
  inReset := false
  env := { env with trace := .released cfg :: env.trace }

/-- An environment that has done nothing and has nothing to do: time 0, no answer ready, no move to come (log 3, log 7). -/
def Env.silent : Env where
  now := 0
  capAnswers := []
  dispAnswers := []
  schedule := []
  trace := []
  free := 0

/-- The machine right after reset: the reference configuration (log 1) and a silent environment. -/
def State.reset : State := State.resetWith Configuration.reference Env.silent

end Sys2Proof.Machine
end

