-- ==== Sys2Proof/Machine/Flags.lean ====
section
/-! DEFINITION. Saturation and rounding (R11, R92), the error codes (R64) and the STATUS view (R23). -/

namespace Sys2Proof.Machine

/-- R11: `clamp8(v)` is 0 when v < 0, 255 when v > 255, else v. -/
def clamp8 (v : Int) : Byte :=
  if v < 0 then 0 else if 255 < v then 255 else BitVec.ofNat 8 v.toNat

/-- R11: `a >> n` on a signed value is `a div 2^n`, floor division. -/
def asr (a : Int) (n : Nat) : Int := a / (2 ^ n : Nat)

/-- R92: `round_half_away(p / q)` for q > 0, in exact integers: floor(r + 1/2) for r >= 0 and -floor(-r + 1/2) for r < 0. -/
def roundHalfAway (p q : Int) : Int :=
  if 0 ≤ p then (2 * p + q) / (2 * q) else -((2 * (-p) + q) / (2 * q))

/-- R64: the code of an error. -/
def ErrorCode.code : ErrorCode → BitVec 2
  | .noError => 0
  | .captureSize => 1
  | .transport => 2

/-- R14: what RAW_LEN records of a length, u34 with 2^34 - 1 for a longer answer. -/
def recordedLength (n : Nat) : BitVec 34 := BitVec.ofNat 34 (min n (2 ^ 34 - 1))

/-- R23: the STATUS view. While reset is held the spec gives no value: a free value, log 21. -/
def State.statusView (s : State) : BitVec 10 :=
  if s.inReset then Config.statusInReset s.env.free
  else packStatus s.heldDisp s.heldCap s.phase s.err.code s.stopPend s.run

/-- R23, U12: STATUS as a wider read returns it, bits 10 and above 0. -/
def State.statusRead (s : State) : BitVec 16 := s.statusView.setWidth 16

end Sys2Proof.Machine
end

