-- ==== Sys2Proof/Machine/Operands.lean ====
section
/-! DEFINITION. How operands are put together (R67, R75, R76, R78), the shapes of the buffers (R14), the checked reads of a
buffer (R15), and the wire form of a bitonal image (R60). -/

namespace Sys2Proof.Machine

/-- R75: the native read of one word, the lower address less significant. -/
def rd16le (b0 b1 : Byte) : BitVec 16 := b0.setWidth 16 ||| (b1.setWidth 16 <<< 8)

/-- R76: `{w[7:0], w[15:8]}`. -/
def bswap16 (w : BitVec 16) : BitVec 16 := ((w &&& 0xFF) <<< 8) ||| (w >>> 8)

/-- R78, R80: the fields left-aligned in a u8 with zero fill, no bit replication and no rounding. -/
def expand565 (s : Sample) : Triple where
  r := (s.extractLsb' 11 5).setWidth 8 <<< 3
  g := (s.extractLsb' 5 6).setWidth 8 <<< 2
  b := (s.extractLsb' 0 5).setWidth 8 <<< 3

/-- R14: `h` rows of `w` elements. -/
def hasShape {α : Type} (h w : Nat) (grid : List (List α)) : Bool :=
  grid.length == h && grid.all (fun row => row.length == w)

/-- A read of a buffer: a fault where it holds no value (R15) or has not the size of R14 (log 15). -/
def readBuffer {α : Type} (name : BufferName) (ok : α → Bool) : Option α → Except Fault α
  | none => .error (.holdsNoValue name)
  | some v => if ok v then .ok v else .error (.badShape name)

/-- R77: NRM reads RAW, exactly 2*W*H bytes. -/
def State.readRaw (s : State) : Except Fault (List Byte) :=
  readBuffer .raw (fun b => b.length == s.cfg.bytes) s.buf.raw

/-- R79: EXP reads SAMP, W*H samples. -/
def State.readSamp (s : State) : Except Fault (List Sample) :=
  readBuffer .samp (fun b => b.length == s.cfg.samples) s.buf.samp

/-- R81: ASM reads TRI; its count is ASM's own test (R82). -/
def State.readTri (s : State) : Except Fault (List Triple) :=
  readBuffer .tri (fun _ => true) s.buf.tri

/-- R95: RSZ reads FULL, H rows of W. -/
def State.readFull (s : State) : Except Fault Image :=
  readBuffer .full (hasShape s.cfg.h s.cfg.w) s.buf.full

/-- R104: SHP reads RSZ, DH rows of DW. -/
def State.readRsz (s : State) : Except Fault Image :=
  readBuffer .rsz (hasShape s.cfg.dh s.cfg.dw) s.buf.rsz

/-- R114: DTH reads ENH, DH rows of DW. -/
def State.readEnh (s : State) : Except Fault Image :=
  readBuffer .enh (hasShape s.cfg.dh s.cfg.dw) s.buf.enh

/-- R124: SUB reads BIT, DH rows of DW. -/
def State.readBit (s : State) : Except Fault BitImage :=
  readBuffer .bit (hasShape s.cfg.dh s.cfg.dw) s.buf.bit

/-- R60: up to eight pixels as one byte, the leftmost in bit 7, missing ones 0. -/
def packByte (pixels : List Bool) : Byte :=
  BitVec.ofNat 8 ((List.range 8).foldl (fun acc i => 2 * acc + (pixels.getD i false).toNat) 0)

/-- R60: a row of `w` pixels as (w + 7) div 8 bytes. -/
def packRow (w : Nat) (row : List Bool) : List Byte :=
  (List.range ((w + 7) / 8)).map (fun j => packByte ((row.drop (8 * j)).take 8))

/-- R60: the serialised image, rows top to bottom. -/
def packImage (w : Nat) (img : BitImage) : List Byte := img.flatMap (packRow w)

end Sys2Proof.Machine
end

