-- ==== Sys2Proof/Machine/Ops.lean ====
section
/-! DEFINITION. The named operations over the state that the meanings share: moving PHASE, error entry (R140), taking the stop
request (R145), and the port transactions. -/

namespace Sys2Proof.Machine

/-- The outcome of a step of this machine. -/
abbrev Result := Host.Outcome State Fault Refusal

/-- R126: `PHASE <- code`. -/
def State.setPhase (s : State) (code : BitVec 4) : State := { s with phase := code }

/-- The buffers replaced. -/
def State.setBuf (s : State) (b : Buffers) : State := { s with buf := b }

/-- A port transaction is recorded (log 16). -/
def State.logPort (s : State) (e : PortEvent) : State :=
  { s with env := { s.env with trace := e :: s.env.trace } }

/-- One more free value is used (log 6). -/
def State.useFree (s : State) : State := { s with env := { s.env with free := s.env.free + 1 } }

/-- The buffers after error entry: none holds a value, but RAW_LEN stays as it was for a CaptureSizeError (R140). CAP has written the
offending length to it; the count that ASM would report is recorded nowhere: DESIGN CHOICE, log 29. -/
def Buffers.afterError (b : Buffers) : ErrorCode → Buffers
  | .captureSize => { Buffers.empty with rawLen := b.rawLen }
  | .transport => Buffers.empty
  | .noError => Buffers.empty

/-- R140: error entry, the meaning of `raise`; its info is what RAW_LEN holds (log 29). PHASE, T_END and STOP_PEND are not changed.
There is no return from it but reset (R142). -/
def State.raiseError (s : State) (e : ErrorCode) : State :=
  { s with err := e, run := false, heldCap := false, heldDisp := false, buf := s.buf.afterError e }

/-- R122, R145: the stop request is taken. ERR stays 0 and PHASE stays. -/
def State.takeStop (s : State) : State :=
  { s with run := false, heldCap := false, heldDisp := false }

/-- R38: `StopSample()`. -/
def State.sampleStop (s : State) : Bool × State := (s.stopPend, s.logPort (.stopSample s.stopPend))

/-- R36: `CaptureRead(n)`: the next answer that is ready, or none while the port is blocked. -/
def State.captureRead (s : State) (n : Nat) : Option (CaptureAnswer × State) :=
  match s.env.capAnswers with
  | [] => none
  | a :: rest => some (a, { s with env := { s.env with capAnswers := rest } }.logPort (.captureRead n a))

/-- R37: `DisplaySubmit(img)`: the next answer that is ready, or none while the port is blocked. -/
def State.displaySubmit (s : State) (img : BitImage) : Option (DisplayAnswer × State) :=
  match s.env.dispAnswers with
  | [] => none
  | a :: rest => some (a, { s with env := { s.env with dispAnswers := rest } }.logPort (.displaySubmit img a))

/-- R39: `Now()`. -/
def State.readNow (s : State) : Nat × State := (s.env.now, s.logPort (.now s.env.now))

/-- A stage operation that reads one buffer: the fault of the read, or what it does with the value. -/
def withBuffer {α : Type} (read : Except Fault α) (k : α → Result) : Result :=
  match read with
  | .ok v => k v
  | .error f => .fault f

end Sys2Proof.Machine
end

