-- ==== Sys2Proof/Machine/Dither.lean ====
section
/-! DEFINITION. The error-diffusion ditherer: luminance (R109), one pixel (R111), the diffusion of its error (R112, R113), the scan
(R110, R114) and DTH. -/

namespace Sys2Proof.Machine

/-- R109, D13: the single-channel conversion that the parameter gives (log 13). -/
def luma : Luma → Triple → Byte
  | .weighted wr wg wb, px =>
    BitVec.ofNat 8 ((wr * px.r.toNat + wg * px.g.toNat + wb * px.b.toNat + 32768) / 65536)
  | .maximum, px => BitVec.ofNat 8 (max px.r.toNat (max px.g.toNat px.b.toNat))
  | .minimum, px => BitVec.ofNat 8 (min px.r.toNat (min px.g.toNat px.b.toNat))
  | .exceptAt triple value base, px => if px = triple then value else luma base px

/-- What the step of R111 works out for one pixel: its luminance Y, the accumulator entry a as read, v, the bit b and the error e. -/
structure DitheredPixel where
  lum : Byte
  acc : AccEntry
  v : Int
  bit : Bool
  e : Int
  deriving DecidableEq, Repr

/-- R111: `(a + 8) >> 4`. -/
def roundedError (a : AccEntry) : Int := asr (a.toInt + 8) 4

/-- R111: the step for one pixel. `v` is not clamped. -/
def ditherPixel (thresh : Nat) (lum : Byte) (a : AccEntry) : DitheredPixel :=
  let v : Int := lum.toNat + roundedError a
  let b : Bool := decide ((thresh : Int) ≤ v)
  { lum := lum, acc := a, v := v, bit := b, e := v - 255 * (if b then 1 else 0) }

/-- R112: `row[x] <- row[x] + d`, an i16. -/
def addAt (x : Nat) (d : Int) (row : AccRow) : AccRow := row.modify x (fun a => BitVec.ofInt 16 (a.toInt + d))

/-- R112, R113: the shares a pixel sends to the right in its own row. -/
def diffuseRow (dw x : Nat) (e : Int) (cur : AccRow) : AccRow :=
  if x + 1 < dw then addAt (x + 1) (7 * e) cur else cur

/-- R112, R113: the shares a pixel sends to the row below, when there is one. -/
def diffuseBelow (dw x : Nat) (below : Bool) (e : Int) (nxt : AccRow) : AccRow :=
  let n1 := if below && decide (1 ≤ x) then addAt (x - 1) (3 * e) nxt else nxt
  let n2 := if below then addAt x (5 * e) n1 else n1
  if below && decide (x + 1 < dw) then addAt (x + 1) e n2 else n2

/-- A row of the accumulator, every entry 0. -/
def zeroRow (dw : Nat) : AccRow := List.replicate dw 0

/-- R114: one row from column `x` on, left to right; the pixels worked out and the row of errors below. -/
def ditherRow (thresh dw : Nat) (below : Bool) : Nat → List Byte → AccRow → AccRow → List DitheredPixel × AccRow
  | _, [], _, nxt => ([], nxt)
  | x, lum :: rest, cur, nxt =>
    let px := ditherPixel thresh lum (cur.getD x 0)
    let more := ditherRow thresh dw below (x + 1) rest (diffuseRow dw x px.e cur) (diffuseBelow dw x below px.e nxt)
    (px :: more.1, more.2)

/-- R110, R114: the rows top to bottom. At the end of a row EACC[0] takes EACC[1] and EACC[1] is cleared. -/
def ditherRows (thresh dw : Nat) : List (List Byte) → AccRow → List (List DitheredPixel)
  | [], _ => []
  | row :: rest, cur =>
    let done := ditherRow thresh dw (!rest.isEmpty) 0 row cur (zeroRow dw)
    done.1 :: ditherRows thresh dw rest done.2

/-- R114: the whole scan of a luminance image; both rows of the accumulator start at 0 (R119). -/
def ditherScan (thresh dw : Nat) (lums : List (List Byte)) : List (List DitheredPixel) :=
  ditherRows thresh dw lums (zeroRow dw)

/-- R109: the luminance of every pixel. -/
def lumaImage (l : Luma) (img : Image) : List (List Byte) := img.map (fun row => row.map (luma l))

/-- R111, R114: BIT, the bits of the scan. -/
def ditherImage (l : Luma) (thresh dw : Nat) (img : Image) : BitImage :=
  (ditherScan thresh dw (lumaImage l img)).map (fun row => row.map DitheredPixel.bit)

/-- DTH, code 7 (R114): after it ENH and EACC hold no value. A reserved DITHER_ALG (R66) is refused (R155). -/
def execDth (s : State) : Result :=
  withBuffer s.readEnh fun img =>
    if s.cfg.ditherAlg ≠ 0 then .refused .invalidConfiguration
    else .next ((s.setBuf { s.buf with
      bit := some (ditherImage s.cfg.luma s.cfg.thresh.toNat s.cfg.dw img), enh := none, eacc := none }).setPhase 8)

end Sys2Proof.Machine
end

