-- ==== Sys2Proof/Machine/FrontEnd.lean ====
section
/-! DEFINITION. The colour-expander front end: NRM (R77), EXP (R79), ASM (R81, R82). -/

namespace Sys2Proof.Machine

/-- R77: sample i from bytes 2i and 2i+1, in order. -/
def normalise : List Byte → List Sample
  | b0 :: b1 :: rest => bswap16 (rd16le b0 b1) :: normalise rest
  | _ => []

/-- R79: every sample expanded, in order. -/
def expandAll (samples : List Sample) : List Triple := samples.map expand565

/-- R81: `FULL[y][x] <- TRI[y*W + x]`. -/
def assemble (w h : Nat) (triples : List Triple) : Image :=
  (List.range h).map (fun y => (triples.drop (y * w)).take w)

/-- NRM, code 2 (R77). -/
def execNrm (s : State) : Result :=
  withBuffer s.readRaw fun bytes =>
    .next ((s.setBuf { s.buf with samp := some (normalise bytes) }).setPhase 3)

/-- EXP, code 3 (R79): after it the RawSnapshot is discarded (RAW, and its length, log 10), and SAMP is consumed (D30, log 9). -/
def execExp (s : State) : Result :=
  withBuffer s.readSamp fun samples =>
    .next ((s.setBuf { s.buf with tri := some (expandAll samples), raw := none, rawLen := none, samp := none }).setPhase 4)

/-- ASM, code 4 (R81): a count other than W*H raises CaptureSizeError with PHASE kept (R82, R139). TRI is consumed (D30, log 9). -/
def execAsm (s : State) : Result :=
  withBuffer s.readTri fun triples =>
    if triples.length ≠ s.cfg.samples then .next (s.raiseError .captureSize)
    else .next ((s.setBuf { s.buf with full := some (assemble s.cfg.w s.cfg.h triples), tri := none }).setPhase 5)

end Sys2Proof.Machine
end

