-- ==== Sys2Proof/Machine/Loop.lean ====
section
/-! DEFINITION. The operations that touch the outside world: CHK (R122), CAP (R123), SUB (R124), DLY (R125), and the read of STATUS
(R23). -/

namespace Sys2Proof.Machine

/-- CHK, code 0 (R122). -/
def execChk (s : State) : Result :=
  let sampled := s.sampleStop
  if sampled.1 then .next sampled.2.takeStop else .next (sampled.2.setPhase 1)

/-- R123: what CAP does with an answer: `Fail` is tested before the length (R146). -/
def State.takeSnapshot (s : State) : CaptureAnswer → State
  | .fail => s.raiseError .transport
  | .bytes snapshot =>
    let t := s.setBuf { s.buf with rawLen := some (recordedLength snapshot.length) }
    if (recordedLength snapshot.length).toNat ≠ s.cfg.bytes then t.raiseError .captureSize
    else (t.setBuf { t.buf with raw := some snapshot }).setPhase 2

/-- CAP, code 1 (R123): blocked until the provider has answered (R121); at its start every data buffer comes to hold no value. -/
def execCap (s : State) : Result :=
  match s.captureRead s.cfg.bytes with
  | none => .fault .blockedInCapture
  | some (a, t) => .next ((t.setBuf Buffers.empty).takeSnapshot a)

/-- R124: what SUB does with an answer: T_END is the time at which the submission completed. -/
def State.finishSubmit (s : State) : DisplayAnswer → State
  | .fail => s.raiseError .transport
  | .ok =>
    let now := s.readNow
    ({ now.2 with tEnd := now.1 }.setBuf { s.buf with bit := none }).setPhase 9

/-- SUB, code 8 (R124): the image is handed over whole; blocked until the sink has answered (R121). -/
def execSub (s : State) : Result :=
  withBuffer s.readBit fun img =>
    match s.displaySubmit img with
    | none => .fault .blockedInSubmit
    | some (a, t) => .next (t.finishSubmit a)

/-- DLY, code 9 (R125): enabled from T_END + DELAY_MS on, and blocked until then, "a state with no step" (R121, R152; log 4). It reads
the time and never writes it (R149). R49 leaves open how many reads of Now() it makes ("one or more"); the model records one, that of
the step that completes: DESIGN CHOICE, log 5. -/
def execDly (s : State) : Result :=
  if s.tEnd + s.cfg.delayMs.toNat ≤ s.env.now then .next (s.readNow.2.setPhase 0) else .fault .blockedInDelay

/-- STATUS (R23, R156): the environment's read that returns this word. It changes nothing of the block (R44). Where STATUS shows
another word there is no such read (log 19). A read while reset is held uses a free value (log 21). -/
def execStatus (heldDisp heldCap : Bool) (phase : BitVec 4) (err : BitVec 2) (stopPend run : Bool) (s : State) : Result :=
  if packStatus heldDisp heldCap phase err stopPend run = s.statusView then
    .next ((if s.inReset then s.useFree else s).logPort (.statusRead s.statusRead))
  else .fault .statusReadsOtherwise

end Sys2Proof.Machine
end

