-- ==== Sys2Proof/Machine/Kernel.lean ====
section
/-! DEFINITION. The resampler's coefficient tables (R88 to R93) in exact integers. The one real function, the Lanczos kernel, is enclosed
between two integers over a power of two (log 8); everything else of the rules is rational and computed as it stands. A rounding that an
enclosure leaves open is decided by an exact test for the half, else by a finer enclosure. -/

namespace Sys2Proof.Machine

/-- An enclosure: a real number known to lie between two integers, both over a power of two. -/
structure Enclosure where
  lo : Int
  hi : Int
  deriving DecidableEq, Repr

/-- The precision of a level: its enclosures are over 2 to this power. -/
def bitsAt (level : Nat) : Nat := 80 * 2 ^ level

/-- The fixed point of a level: this integer stands for 1. -/
def unitAt (level : Nat) : Nat := 2 ^ bitsAt level

/-- Floor and ceiling division by a positive number. -/
def floorDiv (a : Int) (b : Nat) : Int := a / (b : Int)
def ceilDiv (a : Int) (b : Nat) : Int := -((-a) / (b : Int))

/-- `n` terms of the series of arctan(1/q), over `u`: term k is 1 / ((2k+1) * q^(2k+1)), added where k is even and subtracted where it is
odd, each rounded down in the sum. -/
def arctanBelow (u q n : Nat) : Int :=
  ((List.range n).map fun k =>
    if k % 2 = 0 then floorDiv u ((2 * k + 1) * q ^ (2 * k + 1)) else -ceilDiv u ((2 * k + 1) * q ^ (2 * k + 1))).sum

/-- The same, each term rounded up in the sum. -/
def arctanAbove (u q n : Nat) : Int :=
  ((List.range n).map fun k =>
    if k % 2 = 0 then ceilDiv u ((2 * k + 1) * q ^ (2 * k + 1)) else -floorDiv u ((2 * k + 1) * q ^ (2 * k + 1))).sum

/-- The fixed point of the enclosure of pi at a level: sixteen bits finer than the level's. -/
def piUnit (level : Nat) : Nat := 2 ^ (bitsAt level + 16)

/-- arctan(1/q) over `piUnit level`: an even number of terms of its alternating series lies below it, one term more above it. -/
def arctanEnclosure (level q : Nat) : Enclosure where
  lo := arctanBelow (piUnit level) q (2 * (bitsAt level / 8 + 2))
  hi := arctanAbove (piUnit level) q (2 * (bitsAt level / 8 + 2) + 1)

/-- pi = 16*arctan(1/5) - 4*arctan(1/239), over `piUnit level`. -/
def piEnclosure (level : Nat) : Enclosure where
  lo := 16 * (arctanEnclosure level 5).lo - 4 * (arctanEnclosure level 239).hi
  hi := 16 * (arctanEnclosure level 5).hi - 4 * (arctanEnclosure level 239).lo

/-- The product of a non-negative enclosure and any enclosure, over the product of their units. -/
def mulNonneg (z f : Enclosure) : Enclosure where
  lo := if 0 ≤ f.lo then z.lo * f.lo else z.hi * f.lo
  hi := if 0 ≤ f.hi then z.hi * f.hi else z.lo * f.hi

/-- The product of two enclosures over `u`, over `u`, rounded outward. -/
def mulEnclosure (u : Nat) (a b : Enclosure) : Enclosure :=
  let p1 := a.lo * b.lo
  let p2 := a.lo * b.hi
  let p3 := a.hi * b.lo
  let p4 := a.hi * b.hi
  { lo := floorDiv (min (min p1 p2) (min p3 p4)) u
    hi := ceilDiv (max (max p1 p2) (max p3 p4)) u }

/-- The series of sin(x)/x in z = x^2, by Horner's rule: from term `k` on,
`1 - z/(2k(2k+1)) * (1 - z/((2k+2)(2k+3)) * ...)`, the tail after `fuel` more terms lying in 0 to 1. -/
def sincSeries (u : Nat) (z : Enclosure) : Nat → Nat → Enclosure
  | _, 0 => { lo := 0, hi := u }
  | k, fuel + 1 =>
    let p := mulNonneg z (sincSeries u z (k + 1) fuel)
    let d := u * (2 * k * (2 * k + 1))
    { lo := u - ceilDiv p.hi d, hi := u - floorDiv p.lo d }

/-- Terms taken: beyond them (3*pi)^(2n) / (2n+1)! is far below the unit of the level. -/
def sincTerms (level : Nat) : Nat := 30 * 2 ^ level

/-- sin(x)/x for x^2 in `z`. -/
def sincEnclosure (level : Nat) (z : Enclosure) : Enclosure := sincSeries (unitAt level) z 1 (sincTerms level)

/-- (pi * a / d)^2 over the unit of the level. -/
def squaredAngle (level a d : Nat) : Enclosure where
  lo := floorDiv ((piEnclosure level).lo ^ 2 * (a ^ 2 * unitAt level : Nat)) (piUnit level ^ 2 * d ^ 2)
  hi := ceilDiv ((piEnclosure level).hi ^ 2 * (a ^ 2 * unitAt level : Nat)) (piUnit level ^ 2 * d ^ 2)

/-- R88: the Lanczos kernel with 3 lobes at t = a / (2m): 0 where |t| >= 3, else sinc(t) * sinc(t/3). It is even in t, so the
argument is |a|. At t = 0 the series is exactly 1. -/
def lanczosEnclosure (level m a : Nat) : Enclosure :=
  if 6 * m ≤ a then { lo := 0, hi := 0 }
  else mulEnclosure (unitAt level) (sincEnclosure level (squaredAngle level a (2 * m)))
    (sincEnclosure level (squaredAngle level a (6 * m)))

/-- R89, over the denominator 2*n_out: `center - support + 1/2` and `center + support + 1/2`, for `support = 3*max(n_in/n_out, 1)`. -/
def windowLo (nIn nOut o : Nat) : Nat :=
  (((2 * o + 1) * nIn - 6 * max nIn nOut + nOut : Int) / (2 * nOut : Int)).toNat

/-- R89: `hi = min(n_in, floor(center + support + 1/2))`. -/
def windowHi (nIn nOut o : Nat) : Nat :=
  min nIn (((2 * o + 1) * nIn + 6 * max nIn nOut + nOut) / (2 * nOut))

/-- R90: `t[k]` as an integer over 2*max(n_in, n_out): `(2*(lo+k)+1)*n_out - (2*o+1)*n_in`. -/
def tapNumerator (nIn nOut o k : Nat) : Int :=
  (2 * (windowLo nIn nOut o + k) + 1) * nOut - (2 * o + 1) * nIn

/-- R89: `len[o]`. -/
def windowLen (nIn nOut o : Nat) : Nat := windowHi nIn nOut o - windowLo nIn nOut o

/-- R90: the weights of one output position, enclosed at a level. -/
def weights (level nIn nOut o : Nat) : List Enclosure :=
  (List.range (windowLen nIn nOut o)).map
    (fun k => lanczosEnclosure level (max nIn nOut) (tapNumerator nIn nOut o k).natAbs)

/-- R91: their sum, enclosed. -/
def weightSum (ws : List Enclosure) : Enclosure where
  lo := (ws.map Enclosure.lo).sum
  hi := (ws.map Enclosure.hi).sum

/-- R91, R92: the two integers between which `round_half_away(n * 2^p)` lies, for n = w / s and s > 0. -/
def quantised (p : Nat) (s w : Enclosure) : Enclosure where
  lo := roundHalfAway (w.lo * 2 ^ p) (if 0 ≤ w.lo then s.hi else s.lo)
  hi := roundHalfAway (w.hi * 2 ^ p) (if 0 ≤ w.hi then s.lo else s.hi)

/-- The primes that divide n. -/
def primeDivisors (n : Nat) : List Nat :=
  (List.range (n + 1)).filter fun p =>
    decide (2 ≤ p) && decide (n % p = 0) && (List.range p).all fun q => decide (q < 2) || decide (p % q ≠ 0)

/-- A sum of integer multiples of powers of x, as pairs of exponent and multiple, times 1 - x^e, where x^n = 1. -/
def timesOneMinus (n e : Nat) (terms : List (Nat × Int)) : List (Nat × Int) :=
  terms ++ terms.map (fun t => ((t.1 + e) % n, -t.2))

/-- Whether such a sum, exponents below n, is 0 at x = exp(2*pi*i/n). At every other n-th root of unity one of the factors 1 - x^(n/p), p
a prime divisor of n, is 0, and at this one none is: so the sum is 0 there exactly where its product with all of them, exponents taken
modulo n, is the zero polynomial. -/
def vanishesAtRoot (n : Nat) (terms : List (Nat × Int)) : Bool :=
  let product := (primeDivisors n).foldl (fun ts p => timesOneMinus n (n / p) ts) terms
  product.all fun t => decide (((product.filter fun u => u.1 = t.1).map Prod.snd).sum = 0)

/-- `c * (cos(2*pi*a/n) - cos(2*pi*2a/n))`, doubled, in powers of x = exp(2*pi*i/n), for 0 < a < n. -/
def cosineTerms (n a : Nat) (c : Int) : List (Nat × Int) :=
  [(a % n, c), ((n - a) % n, c), (2 * a % n, -c), ((2 * n - 2 * a) % n, -c)]

/-- R92's tie, decided exactly: whether n[k] * 2^p is h / 2 for an odd h, that is, 2^(p+1) * w[k] = h * s. With t = a / (2m) and n = 6m,
L(t) is (6 * m^2 / pi^2) * (cos(2*pi*a/n) - cos(2*pi*2a/n)) / a^2 for 0 < |a| < n, so the question is whether a sum of integer multiples of
n-th roots of unity is 0. Where some tap stands at t = 0, and weighs 1, the answer is no: the multiple of pi^2 that it puts into the sum is
not 0, h being odd, and pi^2 is no algebraic number (log 8). -/
def isHalf (p nIn nOut o k : Nat) (h : Int) : Bool :=
  let n := 6 * max nIn nOut
  let taps := (List.range (windowLen nIn nOut o)).map fun j => (tapNumerator nIn nOut o j).natAbs
  let den := ((taps.filter (· < n)).map fun a => (a : Int) ^ 2).prod
  taps.all (fun a => a ≠ 0)
    && vanishesAtRoot n ((taps.mapIdx fun j a =>
      if a < n then cosineTerms n a (((if j = k then (2 ^ (p + 1) : Nat) else 0) - h) * (den / (a : Int) ^ 2)) else []).flatten)

/-- R92: q[k], from the enclosures of s and of w[k] at a level, and from finer ones where these leave it open: the integer that the
enclosure settles, or the one further from 0 where n[k] * 2^p is exactly a half; none where no level of the ones allowed decides. -/
def roundWeight (p nIn nOut o k : Nat) : Nat → Nat → Enclosure → Enclosure → Option Int
  | 0, _, _, _ => none
  | fuel + 1, level, s, w =>
    let q := quantised p s w
    if 0 < s.lo ∧ q.lo = q.hi then some q.lo
    else if isHalf p nIn nOut o k (2 * q.lo + 1) then some (if 0 ≤ q.lo then q.lo + 1 else q.lo)
    else
      let finer := weights (level + 1) nIn nOut o
      roundWeight p nIn nOut o k fuel (level + 1) (weightSum finer) (finer.getD k { lo := 0, hi := 0 })

/-- How many levels are tried: the last has 80 * 2^39 bits (log 8). -/
def levels : Nat := 40

/-- R92: q[k] from the enclosures of level 0; where no level decides, a free choice among the integers that level 0 allows (log 8). -/
def settle (p nIn nOut o k : Nat) (s w : Enclosure) : Int :=
  let q := quantised p s w
  (roundWeight p nIn nOut o k levels 0 s w).getD
    (q.lo + (Config.coefTie nIn nOut o k % ((q.hi - q.lo).toNat + 1) : Nat))

/-- R93: the index of the smallest |t|, the lowest on a tie: the first index of a list at which its least element stands. -/
def nearestTap (ts : List Nat) : Nat :=
  match ts with
  | [] => 0
  | t :: rest => if rest.all (fun u => t ≤ u) then 0 else nearestTap rest + 1

/-- R93: the coefficient nearest the centre takes up what the sum lacks of 2^p. -/
def fixUp (p : Nat) (j : Nat) (qs : List Int) : List Int := qs.modify j (fun q => q + ((2 ^ p : Nat) - qs.sum))

/-- One output position of a table: `lo[o]` and `c[o]`; `len[o]` is the number of coefficients (R93). -/
structure CoefRow where
  lo : Nat
  coefs : List Int
  deriving DecidableEq, Repr

/-- R92: the quantised weights of one output position. -/
def quantisedWeights (p nIn nOut o : Nat) : List Int :=
  let ws := weights 0 nIn nOut o
  ws.mapIdx (fun k w => settle p nIn nOut o k (weightSum ws) w)

/-- R90 to R93: the row of output position `o`. -/
def coefRow (p nIn nOut o : Nat) : CoefRow where
  lo := windowLo nIn nOut o
  coefs :=
    fixUp p (nearestTap ((List.range (windowLen nIn nOut o)).map (fun k => (tapNumerator nIn nOut o k).natAbs)))
      (quantisedWeights p nIn nOut o)

/-- R98: `s > 0`, `|c| < 2^17` and the sum of `|c|` below 2^17, for one output position. -/
def rowMeetsObligations (nIn nOut o : Nat) (row : CoefRow) : Bool :=
  decide (0 < (weightSum (weights 0 nIn nOut o)).lo)
    && row.coefs.all (fun c => decide (c.natAbs < 2 ^ 17))
    && decide ((row.coefs.map Int.natAbs).sum < 2 ^ 17)

/-- R93, R98: the table of one axis, or none where an obligation fails. -/
def axisTable (p nIn nOut : Nat) : Option (List CoefRow) :=
  let rows := (List.range nOut).map (coefRow p nIn nOut)
  if ((List.range nOut).all fun o => rowMeetsObligations nIn nOut o (coefRow p nIn nOut o)) then some rows else none

/-- R25, R93: the two tables of a configuration, horizontal first; none where one fails R98. -/
def coefTables (c : Configuration) : Option (List CoefRow × List CoefRow) :=
  match axisTable c.coefP c.w c.dw, axisTable c.coefP c.h c.dh with
  | some hor, some ver => some (hor, ver)
  | _, _ => none

end Sys2Proof.Machine
end

