-- ==== Sys2Proof/Machine/Resample.lean ====
section
/-! DEFINITION. The image resampler: the filter of one value (R94) and RSZ (R95). -/

namespace Sys2Proof.Machine

/-- R94: `2^(P-1) + sum of c[k] * src[lo + k]`, an i32. -/
def firAcc (p : Nat) (row : CoefRow) (src : List Byte) : Int :=
  (2 ^ (p - 1) : Nat) + (List.zipWith (fun c v => c * (v.toNat : Int)) row.coefs (src.drop row.lo)).sum

/-- R94: `clamp8(acc >> P)`. -/
def fir (p : Nat) (row : CoefRow) (src : List Byte) : Byte := clamp8 (asr (firAcc p row src) p)

/-- R87 (c), R95: the three channels of a line filtered separately with the same coefficients. -/
def firTriple (p : Nat) (row : CoefRow) (line : List Triple) : Triple where
  r := fir p row (line.map Triple.r)
  g := fir p row (line.map Triple.g)
  b := fir p row (line.map Triple.b)

/-- Column `x` of a grid, top to bottom. A row too short for it contributes nothing; grids of R14's shape have none. -/
def column {α : Type} (x : Nat) (grid : List (List α)) : List α := grid.filterMap (fun row => row[x]?)

/-- R95: the horizontal pass, FULL to TMP. -/
def horizontalPass (p : Nat) (table : List CoefRow) (full : Image) : Image :=
  full.map (fun line => table.map (fun row => firTriple p row line))

/-- R95: the vertical pass, TMP to RSZ. -/
def verticalPass (p dw : Nat) (table : List CoefRow) (tmp : Image) : Image :=
  table.map (fun row => (List.range dw).map (fun x => firTriple p row (column x tmp)))

/-- R95: the horizontal pass first, rounded and clamped, then the vertical pass. -/
def resample (p dw : Nat) (hor ver : List CoefRow) (full : Image) : Image :=
  verticalPass p dw ver (horizontalPass p hor full)

/-- RSZ, code 5 (R95): FULL to RSZ through TMP; after it FULL and TMP hold no value. A reserved KERNEL (R66) and tables that fail
R98 are refused (R155). -/
def execRsz (s : State) : Result :=
  withBuffer s.readFull fun full =>
    if s.cfg.kernel ≠ 0 then .refused .invalidConfiguration
    else match coefTables s.cfg with
      | none => .refused .coefficientTables
      | some (hor, ver) =>
        .next ((s.setBuf { s.buf with
          rsz := some (resample s.cfg.coefP s.cfg.dw hor ver full), full := none, tmp := none }).setPhase 6)

end Sys2Proof.Machine
end

