-- ==== Sys2Proof/Machine/Reserved.lean ====
section
/-! DEFINITION. The table rows that are no operation: the six reserved PHASE codes (R63) and the PackedSample layout (R57). -/

namespace Sys2Proof.Machine

/-- R63, U10: a state that holds a reserved code is stuck, "not a no-op". -/
def stuckAt (code : BitVec 4) : Result := .fault (.reservedPhase code)

/-- Reserved PHASE code 10 (R63). -/
def execReserved10 (_s : State) : Result := stuckAt 10
/-- Reserved PHASE code 11 (R63). -/
def execReserved11 (_s : State) : Result := stuckAt 11
/-- Reserved PHASE code 12 (R63). -/
def execReserved12 (_s : State) : Result := stuckAt 12
/-- Reserved PHASE code 13 (R63). -/
def execReserved13 (_s : State) : Result := stuckAt 13
/-- Reserved PHASE code 14 (R63). -/
def execReserved14 (_s : State) : Result := stuckAt 14
/-- Reserved PHASE code 15 (R63). -/
def execReserved15 (_s : State) : Result := stuckAt 15

/-- PackedSample (R57): "Not an operation: the layout of one normalised 16-bit sample, consumed by EXP" (log 18). -/
def execPackedSample (_red : BitVec 5) (_green : BitVec 6) (_blue : BitVec 5) (_s : State) : Result :=
  .fault .notAnOperation

end Sys2Proof.Machine
end

