-- ==== Sys2Proof/Machine/Sharpen.lean ====
section
/-! DEFINITION. The sharpness filter: the blurred reference (R101, R102), the operator (R103) and SHP (R104). -/

namespace Sys2Proof.Machine

/-- A pixel of a grid, row first. Outside the grid there is none; SHP never asks for one. -/
def pixel {α : Type} (grid : List (List α)) (y x : Nat) : Option α := (grid[y]?).bind (fun row => row[x]?)

/-- One channel of a grid as integers. -/
def plane (ch : Triple → Byte) (img : Image) : List (List Int) := img.map (fun row => row.map (fun px => ((ch px).toNat : Int)))

/-- The pixels of the 3 by 3 neighbourhood of (x, y), for x and y at least 1. -/
def neighbourhood {α : Type} (grid : List (List α)) (y x : Nat) : List α :=
  ((List.range 3).flatMap (fun dy => (List.range 3).map (fun dx => pixel grid (y - 1 + dy) (x - 1 + dx)))).filterMap id

/-- R101: `S`, the sum of the neighbourhood with the centre once more four times. -/
def blurSum (grid : List (List Int)) (y x : Nat) (centre : Int) : Int := (neighbourhood grid y x).sum + 4 * centre

/-- R101: `(S + 6) div 13`. -/
def blurInterior (grid : List (List Int)) (y x : Nat) (centre : Int) : Int := (blurSum grid y x centre + 6) / 13

/-- R104: the pixels of the outer ring. -/
def onBorder (dh dw y x : Nat) : Bool := x == 0 || y == 0 || x + 1 == dw || y + 1 == dh

/-- R101, R102: the blurred reference of a pixel. -/
def blurAt (dh dw : Nat) (grid : List (List Int)) (y x : Nat) (centre : Int) : Int :=
  if onBorder dh dw y x then centre else blurInterior grid y x centre

/-- R103: `clamp8((256*blur + F*(in - blur) + 128) >> 8)`. -/
def sharpen (f : Nat) (input blur : Int) : Byte := clamp8 (asr (256 * blur + f * (input - blur) + 128) 8)

/-- R104, one channel of one pixel: every read is of RSZ, never of ENH. -/
def sharpenChannel (f dh dw : Nat) (grid : List (List Int)) (y x : Nat) (v : Byte) : Byte :=
  sharpen f v.toNat (blurAt dh dw grid y x v.toNat)

/-- R104: the whole image, channel by channel. -/
def sharpenImage (f dh dw : Nat) (img : Image) : Image :=
  let reds := plane Triple.r img
  let greens := plane Triple.g img
  let blues := plane Triple.b img
  img.mapIdx fun y row => row.mapIdx fun x px =>
    { r := sharpenChannel f dh dw reds y x px.r
      g := sharpenChannel f dh dw greens y x px.g
      b := sharpenChannel f dh dw blues y x px.b }

/-- SHP, code 6 (R104): after it RSZ holds no value. -/
def execShp (s : State) : Result :=
  withBuffer s.readRsz fun img =>
    .next ((s.setBuf { s.buf with
      enh := some (sharpenImage s.cfg.sharpF.toNat s.cfg.dh s.cfg.dw img), rsz := none }).setPhase 7)

end Sys2Proof.Machine
end

