-- ==== Sys2Proof/Machine/Dispatch.lean ====
section
/-! DEFINITION. One arm per row of the operation table. -/

namespace Sys2Proof.Machine

def exec (i : Instr) (s : State) : Host.Outcome State Fault Refusal :=
  match i with
  | .chk => Sys2Proof.Machine.execChk s
  | .cap => Sys2Proof.Machine.execCap s
  | .nrm => Sys2Proof.Machine.execNrm s
  | .exp => Sys2Proof.Machine.execExp s
  | .asm => Sys2Proof.Machine.execAsm s
  | .rsz => Sys2Proof.Machine.execRsz s
  | .shp => Sys2Proof.Machine.execShp s
  | .dth => Sys2Proof.Machine.execDth s
  | .sub => Sys2Proof.Machine.execSub s
  | .dly => Sys2Proof.Machine.execDly s
  | .packedSample red green blue => Sys2Proof.Machine.execPackedSample red green blue s
  | .status d c p e k r => Sys2Proof.Machine.execStatus d c p e k r s
  | .reserved10 => Sys2Proof.Machine.execReserved10 s
  | .reserved11 => Sys2Proof.Machine.execReserved11 s
  | .reserved12 => Sys2Proof.Machine.execReserved12 s
  | .reserved13 => Sys2Proof.Machine.execReserved13 s
  | .reserved14 => Sys2Proof.Machine.execReserved14 s
  | .reserved15 => Sys2Proof.Machine.execReserved15 s

end Sys2Proof.Machine
end

