-- ==== Sys2Proof/Machine/Environment.lean ====
section
/-! DEFINITION. Which configurations are valid (R155), the environment's moves (R156, R157, R144) and what the next step is about: the
fetch. -/

namespace Sys2Proof

/-- D13: "result in 0 to 255 and LUMA(u, u, u) = u". For weights that sum to S this is: (S * u + 32768) div 65536 = u for every u up
to 255, which is S within 128 of 65536. The maximum and the minimum have it; a conversion with exceptions is tried on every grey. -/
def Luma.legal : Luma → Bool
  | .weighted r g b => decide (65408 ≤ r + g + b ∧ r + g + b ≤ 65664)
  | .maximum => true
  | .minimum => true
  | .exceptAt triple value base => (List.range 256).all fun u =>
      let grey := BitVec.ofNat 8 u
      Machine.luma (.exceptAt triple value base) { r := grey, g := grey, b := grey } == grey

/-- The range of COEF_P. DEDUCED, log 14: R94's 2^(P-1) asks for 1 at least, R98 for 16 at most. -/
def Configuration.coefPLegal (c : Configuration) : Bool := decide (1 ≤ c.coefP ∧ c.coefP ≤ 16)

/-- R155, R66, U3, U4, D13: the part of a configuration's validity that can be read off the parameters: no dimension 0, no
reserved selector, a threshold in 1 to 255, a conversion that keeps greys, frames not overlapped. -/
def Configuration.legal (c : Configuration) : Bool :=
  decide (c.w ≠ 0) && decide (c.h ≠ 0) && decide (c.dw ≠ 0) && decide (c.dh ≠ 0)
    && decide (c.ditherAlg = 0) && decide (c.kernel = 0)
    && c.coefPLegal && c.luma.legal && decide (c.thresh ≠ 0) && !c.pipelined

end Sys2Proof

namespace Sys2Proof.Machine

/-- Who takes the next step, and with what. -/
inductive Fetched where
  /-- The instruction `i` is executed in the state `s`. -/
  | execute (i : Instr) (s : State)
  /-- The environment has moved, or there is no step. -/
  | settled (r : Result)

/-- R144, R157: delivery sets the latch; a request delivered while reset is asserted is lost (R28). -/
def State.deliverStop (s : State) : State := if s.inReset then s else { s with stopPend := true }

/-- R155, R159 (6): the configuration is one that reset may be released with. -/
def releasable (c : Configuration) : Except Refusal Unit :=
  if c.legal then
    match coefTables c with
    | some _ => .ok ()
    | none => .error .coefficientTables
  else .error .invalidConfiguration

/-- R157, R155: reset is released with these configuration inputs. Releasing a reset that is not asserted does nothing (log 21). -/
def State.releaseReset (s : State) (c : Configuration) : Result :=
  if s.inReset then
    match releasable c with
    | .ok () => .next (State.resetWith c s.env)
    | .error r => .refused r
  else .next s

/-- The block's own step (R121): none while reset is held (R157), none for an invalid configuration (R155), none when RUN is 0
(R127); else the operation that PHASE selects. -/
def fetchBlock (s : State) : Fetched :=
  if s.inReset then .settled (.fault .heldInReset)
  else if !s.cfg.legal then .settled (.refused .invalidConfiguration)
  else if !s.run then .settled (.fault .stopped)
  else .execute (decode (.phase4 s.phase)) s

/-- One move of the environment (R156), or the block's turn. -/
def applyMove (s : State) : EnvMove → Fetched
  | .runBlock => fetchBlock s
  | .answerCapture a => .settled (.next { s with env := { s.env with capAnswers := s.env.capAnswers ++ [a] } })
  | .answerDisplay a => .settled (.next { s with env := { s.env with dispAnswers := s.env.dispAnswers ++ [a] } })
  | .deliverStop => .settled (.next s.deliverStop)
  | .passTime ms => .settled (.next { s with env := { s.env with now := s.env.now + ms } })
  | .assertReset => .settled (.next { s with inReset := true })
  | .releaseReset c => .settled (s.releaseReset c)
  | .readStatus => .execute (decode (.view10 s.statusView)) s

/-- The state with the environment's next move taken off the schedule. -/
def State.withSchedule (s : State) (moves : List EnvMove) : State := { s with env := { s.env with schedule := moves } }

/-- What the next step is: the environment's next move if it has one, else the block's step (log 3). -/
def fetch (s : State) : Fetched :=
  match s.env.schedule with
  | [] => fetchBlock s
  | m :: rest => applyMove (s.withSchedule rest) m

/-- R64: the value of ERR that has this code; the reserved code 3 has none, and ERR stays as it was (log 17). -/
def ErrorCode.ofCode (code : BitVec 2) (otherwise : ErrorCode) : ErrorCode :=
  match code.toNat with
  | 0 => .noError
  | 1 => .captureSize
  | 2 => .transport
  | _ => otherwise

/-- `s` with the run state that the STATUS word `w` shows (R23), out of reset. -/
def State.showing (s : State) (w : BitVec 10) : State :=
  { s with
    run := w.getLsbD 0, stopPend := w.getLsbD 1, err := ErrorCode.ofCode (w.extractLsb' 2 2) s.err
    phase := w.extractLsb' 4 4, heldCap := w.getLsbD 8, heldDisp := w.getLsbD 9, inReset := false }

/-- `s` with a table row's instruction where the next step fetches it: a PHASE4 code goes into PHASE of a block that runs and whose
turn it is; for a STATUS word the block shows that word and a read of STATUS stands before the environment's moves; a PackedSample
is no operation and is fetched nowhere (log 23). -/
def placeInstruction (s : State) (nbits w : Nat) : State :=
  if nbits = 4 ∨ nbits = 8 then
    { s with phase := BitVec.ofNat 4 w, run := true, inReset := false }.withSchedule (.runBlock :: s.env.schedule)
  else if nbits = 10 then (s.showing (BitVec.ofNat 10 w)).withSchedule (.readStatus :: s.env.schedule)
  else s

end Sys2Proof.Machine
end

