-- ==== Sys2Proof/Machine/Step.lean ====
section
/-! DEFINITION. One step: the environment's next move, or the stage operation that PHASE selects (R121). -/

namespace Sys2Proof.Machine

/-- One step of the block and its environment. -/
def step (s : State) : Host.Outcome State Fault Refusal :=
  match fetch s with
  | .execute i t => exec i t
  | .settled r => r

/-- See `placeInstruction`. -/
def State.withFetchWord (s : State) (nbits w : Nat) : State := placeInstruction s nbits w

end Sys2Proof.Machine
end

