-- ==== Sys2Proof/Machine/Fairness.lean ====
section
/-! DEFINITION. What the environment must do for the block to go on (R156's duties, R39, R128, U14, U16). A state holds finitely many moves
to come; a duty is about all time, so it is said of an environment that moves without end (log 31). -/

namespace Sys2Proof.Machine

/-- An environment that never stops moving: its moves, the first one number 0. It is no part of the state. -/
abbrev Environment := Nat → EnvMove

/-- The milliseconds by which a move advances time (R39). -/
def EnvMove.time : EnvMove → Nat
  | .passTime ms => ms
  | .runBlock => 0
  | .answerCapture _ => 0
  | .answerDisplay _ => 0
  | .deliverStop => 0
  | .assertReset => 0
  | .releaseReset _ => 0
  | .readStatus => 0

/-- The milliseconds that pass in the first `n` moves. -/
def timePassed (e : Environment) : Nat → Nat
  | 0 => 0
  | n + 1 => timePassed e n + (e n).time

/-- R39's second half, R156: time passes without bound. -/
def LetsTimePass (e : Environment) : Prop := ∀ bound, ∃ n, bound < timePassed e n

/-- The block gets its turn again and again (log 31). -/
def GivesTurns (e : Environment) : Prop := ∀ n, ∃ k, n ≤ k ∧ e k = .runBlock

/-- R156: the capture provider answers eventually, whatever it has answered before. -/
def AnswersCaptures (e : Environment) : Prop := ∀ n, ∃ k, n ≤ k ∧ ∃ a, e k = .answerCapture a

/-- R156: the display sink answers eventually. -/
def AnswersSubmissions (e : Environment) : Prop := ∀ n, ∃ k, n ≤ k ∧ ∃ a, e k = .answerDisplay a

/-- The state after one more move of the environment; a turn given to a block that has no step leaves it as it is ("a state with no
step", R121; "All state survives a wait", R152). -/
def State.attempt (s : State) (m : EnvMove) : State :=
  match step (s.withSchedule [m]) with
  | .next t => t
  | .fault _ => s
  | .refused _ => s

/-- The state after the first `n` moves of an environment. -/
def State.after (s : State) (e : Environment) : Nat → State
  | 0 => s
  | n + 1 => (s.after e n).attempt (e n)

end Sys2Proof.Machine
end

