-- ==== Sys2Proof/Reference.lean ====
section
/-! DEFINITION. The resampler's coefficients as the spec defines them over the real numbers (R88 to R93), word for word. The machine does
not use this file: it is what a statement compares the machine's integer tables with. -/

namespace Sys2Proof.Reference

open scoped BigOperators

/-- R88: `sinc(u) = sin(pi*u) / (pi*u)`, 1 at 0. -/
noncomputable def sinc (u : ℝ) : ℝ := if u = 0 then 1 else Real.sin (Real.pi * u) / (Real.pi * u)

/-- R88: the Lanczos function with 3 lobes. -/
noncomputable def lanczos (t : ℝ) : ℝ := if t = 0 then 1 else if |t| < 3 then sinc t * sinc (t / 3) else 0

/-- R89. -/
noncomputable def scale (nIn nOut : ℕ) : ℝ := nIn / nOut

/-- R89. -/
noncomputable def fscale (nIn nOut : ℕ) : ℝ := max (scale nIn nOut) 1

/-- R89. -/
noncomputable def support (nIn nOut : ℕ) : ℝ := 3 * fscale nIn nOut

/-- R89. -/
noncomputable def center (nIn nOut o : ℕ) : ℝ := (o + 1 / 2) * scale nIn nOut

/-- R89: `lo[o]`. -/
noncomputable def lo (nIn nOut o : ℕ) : ℤ := max 0 ⌊center nIn nOut o - support nIn nOut + 1 / 2⌋

/-- R89: `hi`. -/
noncomputable def hi (nIn nOut o : ℕ) : ℤ := min (nIn : ℤ) ⌊center nIn nOut o + support nIn nOut + 1 / 2⌋

/-- R89: `len[o]`. -/
noncomputable def len (nIn nOut o : ℕ) : ℕ := (hi nIn nOut o - lo nIn nOut o).toNat

/-- R90: `t[k]`. -/
noncomputable def tap (nIn nOut o k : ℕ) : ℝ := (lo nIn nOut o + k + 1 / 2 - center nIn nOut o) / fscale nIn nOut

/-- R90: `w[k]`. -/
noncomputable def weight (nIn nOut o k : ℕ) : ℝ := lanczos (tap nIn nOut o k)

/-- R91: `s`. -/
noncomputable def weightSum (nIn nOut o : ℕ) : ℝ := ∑ k ∈ Finset.range (len nIn nOut o), weight nIn nOut o k

/-- R92: `round_half_away(r)`. -/
noncomputable def roundHalfAway (r : ℝ) : ℤ := if 0 ≤ r then ⌊r + 1 / 2⌋ else -⌊-r + 1 / 2⌋

/-- R91, R92: `q[k]`. -/
noncomputable def quantised (p nIn nOut o k : ℕ) : ℤ :=
  roundHalfAway (weight nIn nOut o k / weightSum nIn nOut o * 2 ^ p)

/-- R93: `j` is the index with the smallest `|t[k]|`, the lower on a tie. -/
def IsNearest (nIn nOut o j : ℕ) : Prop :=
  j < len nIn nOut o ∧ ∀ k < len nIn nOut o,
    |tap nIn nOut o j| ≤ |tap nIn nOut o k| ∧ (k < j → |tap nIn nOut o j| < |tap nIn nOut o k|)

/-- R93: `c[o][k]`, for `j` the index that takes the fix-up. -/
noncomputable def coef (p nIn nOut o j k : ℕ) : ℤ :=
  if k = j then
    quantised p nIn nOut o j + (2 ^ p - ∑ i ∈ Finset.range (len nIn nOut o), quantised p nIn nOut o i)
  else quantised p nIn nOut o k

end Sys2Proof.Reference
end

