-- ==== Sys2Proof/Machine/Frame.lean ====
section
/-! DEFINITION. The frame function (R71 FRAME, R130): D0's "pure function packed_frame to bitonal_frame". -/

namespace Sys2Proof.Machine

/-- The FullColorImage of a snapshot: NRM, EXP, ASM (R85). -/
def frontEnd (c : Configuration) (raw : List Byte) : Image := assemble c.w c.h (expandAll (normalise raw))

/-- The Resampled Image of a snapshot; none where the tables fail R98. -/
def resampled (c : Configuration) (raw : List Byte) : Option Image :=
  match coefTables c with
  | none => none
  | some (hor, ver) => some (resample c.coefP c.dw hor ver (frontEnd c raw))

/-- The Enhanced Image of a snapshot. -/
def enhanced (c : Configuration) (raw : List Byte) : Option Image :=
  (resampled c raw).map (sharpenImage c.sharpF.toNat c.dh c.dw)

/-- R130: `FRAME(raw)`, the value of BIT after NRM, EXP, ASM, RSZ, SHP, DTH have run on RAW = raw. -/
def frame (c : Configuration) (raw : List Byte) : Option BitImage :=
  (enhanced c raw).map (ditherImage c.luma c.thresh.toNat c.dw)

end Sys2Proof.Machine
end

