-- ==== Sys2Proof/Safety.lean ====
section
/-! DEFINITION. What a sound state and a sound record of port transactions are, in the terms the statements use: the lifetimes of
the buffers (R15, R126), where a submitted image comes from (R130, R133), the delay that has been waited out (R168). -/

namespace Sys2Proof.Machine

/-- R14, R15, R126: the buffers while the operation of the given code is the next one and the block is RUNNING: what holds a value,
and its size. SAMP and TRI are gone once they have been read (log 9), RAW_LEN after EXP (log 10): both DEDUCED. -/
def Buffers.fit (c : Configuration) (b : Buffers) : Nat → Prop
  | 2 => ∃ raw, raw.length = c.bytes ∧ b = { Buffers.empty with raw := some raw, rawLen := some (recordedLength c.bytes) }
  | 3 => ∃ raw samp, raw.length = c.bytes ∧ samp.length = c.samples
      ∧ b = { Buffers.empty with raw := some raw, rawLen := some (recordedLength c.bytes), samp := some samp }
  | 4 => ∃ tri, tri.length = c.samples ∧ b = { Buffers.empty with tri := some tri }
  | 5 => ∃ img, hasShape c.h c.w img = true ∧ b = { Buffers.empty with full := some img }
  | 6 => ∃ img, hasShape c.dh c.dw img = true ∧ b = { Buffers.empty with rsz := some img }
  | 7 => ∃ img, hasShape c.dh c.dw img = true ∧ b = { Buffers.empty with enh := some img }
  | 8 => ∃ img, hasShape c.dh c.dw img = true ∧ b = { Buffers.empty with bit := some img }
  | _ => b = Buffers.empty

/-- R16, R17, R18, R21, R15: a state the block can be in. PHASE is 0 to 9; the handles are held exactly while it is RUNNING; ERR is 0
while it is RUNNING; RUNNING, its buffers fit the next operation; STOPPED, none but RAW_LEN holds a value (R140, R145). -/
structure State.Sane (s : State) : Prop where
  phase_le : s.phase.toNat ≤ 9
  heldCap_eq : s.heldCap = s.run
  heldDisp_eq : s.heldDisp = s.run
  err_running : s.run = true → s.err = .noError
  buf_running : s.run = true → s.buf.fit s.cfg s.phase.toNat
  buf_stopped : s.run = false → s.buf = { Buffers.empty with rawLen := s.buf.rawLen }

/-- The configuration with which reset was last released (trace: latest first). -/
def lastRelease : List PortEvent → Option Configuration
  | [] => none
  | .released c :: _ => some c
  | _ :: rest => lastRelease rest

/-- The snapshot captured last, if none of its images was submitted and reset was not released since. -/
def lastCapture : List PortEvent → Option (List Byte)
  | [] => none
  | .captureRead _ (.bytes raw) :: _ => some raw
  | .captureRead _ .fail :: _ => none
  | .displaySubmit _ _ :: _ => none
  | .released _ :: _ => none
  | _ :: rest => lastCapture rest

/-- R130, R49: every image handed to the display is FRAME of the snapshot captured before it, under the configuration of that
run, and no snapshot is handed over twice. -/
def SubmissionsAreFrames : List PortEvent → Prop
  | [] => True
  | .displaySubmit img _ :: rest =>
    (∃ c raw, lastRelease rest = some c ∧ lastCapture rest = some raw ∧ frame c raw = some img) ∧ SubmissionsAreFrames rest
  | _ :: rest => SubmissionsAreFrames rest

/-- R130: the buffers while the operation of the given code is the next one, as functions of the snapshot; none where the tables
fail R98. SAMP, TRI and RAW_LEN go as in `Buffers.fit` (log 9, log 10). -/
def stageBuffers (c : Configuration) (raw : List Byte) : Nat → Option Buffers
  | 2 => some { Buffers.empty with raw := some raw, rawLen := some (recordedLength raw.length) }
  | 3 => some { Buffers.empty with raw := some raw, rawLen := some (recordedLength raw.length), samp := some (normalise raw) }
  | 4 => some { Buffers.empty with tri := some (expandAll (normalise raw)) }
  | 5 => some { Buffers.empty with full := some (frontEnd c raw) }
  | 6 => (resampled c raw).map (fun img => { Buffers.empty with rsz := some img })
  | 7 => (enhanced c raw).map (fun img => { Buffers.empty with enh := some img })
  | 8 => (frame c raw).map (fun img => { Buffers.empty with bit := some img })
  | _ => none

/-- R130, R29: the record of submissions is sound, and what a RUNNING block holds between CAP and SUB is worked out from the
snapshot captured last and the configuration alone. -/
structure State.FromLastCapture (s : State) : Prop where
  submissions : SubmissionsAreFrames s.env.trace
  release : lastRelease s.env.trace = some s.cfg
  buffers : s.run = true → 2 ≤ s.phase.toNat → s.phase.toNat ≤ 8 →
    ∃ raw, lastCapture s.env.trace = some raw ∧ stageBuffers s.cfg raw s.phase.toNat = some s.buf

/-- Whether the latest transaction is a submission that the sink accepted. -/
def endsInAccepted : List PortEvent → Bool
  | .displaySubmit _ .ok :: _ => true
  | _ => false

/-- When the last accepted submission of this run completed (R20: the first `Now` after it), none before the first. -/
def lastSubmitTime : List PortEvent → Option Nat
  | [] => none
  | .released _ :: _ => none
  | .now t :: rest => if endsInAccepted rest then some t else lastSubmitTime rest
  | _ :: rest => lastSubmitTime rest

/-- R168, R125: while the next operation is CHK or CAP, at least DELAY_MS has passed since the last submission of this run; while it
is DLY, T_END is the time of that submission. The time of an accepted submission has been read (R124). -/
structure State.DelayKept (s : State) : Prop where
  timed : endsInAccepted s.env.trace = false
  waited : s.run = true → s.phase = 0 ∨ s.phase = 1 →
    ∀ t, lastSubmitTime s.env.trace = some t → t + s.cfg.delayMs.toNat ≤ s.env.now
  measured : s.run = true → s.phase = 9 → lastSubmitTime s.env.trace = some s.tEnd

/-- The next move of the environment is to release reset. -/
def State.releasesReset (s : State) : Prop := ∃ c rest, s.env.schedule = .releaseReset c :: rest

/-- The three channels of a triple. -/
def channels : List (Triple → Byte) := [Triple.r, Triple.g, Triple.b]

/-- One channel of a grid. -/
def channelOf (ch : Triple → Byte) (img : Image) : List (List Byte) := img.map (fun row => row.map ch)

/-- A grid of one value. -/
def uniformGrid {α : Type} (h w : Nat) (v : α) : List (List α) := List.replicate h (List.replicate w v)

/-- The error e of the pixel at column x, row y of a scan (R111); 0 outside it. -/
def errorAt (scan : List (List DitheredPixel)) (y x : Nat) : Int := ((pixel scan y x).map DitheredPixel.e).getD 0

/-- R112, R113 read at the receiver: what the pixel at (x, y) has been sent, in sixteenths: 7 from its left, 5 from above, 1 from
above left, 3 from above right. -/
def receivedShares (scan : List (List DitheredPixel)) (dw y x : Nat) : Int :=
  (if 1 ≤ x then 7 * errorAt scan y (x - 1) else 0)
    + (if 1 ≤ y then
        5 * errorAt scan (y - 1) x
          + (if 1 ≤ x then errorAt scan (y - 1) (x - 1) else 0)
          + (if x + 1 < dw then 3 * errorAt scan (y - 1) (x + 1) else 0)
      else 0)

/-- R116: `k`, the sum of the shares of the pixel at (x, y) that are not dropped (R113). -/
def keptShares (dh dw y x : Nat) : Int :=
  (if x + 1 < dw then 7 else 0)
    + (if y + 1 < dh then 5 + (if 1 ≤ x then 3 else 0) + (if x + 1 < dw then 1 else 0) else 0)

/-- A sum over all pixels of a scan, each with its place. -/
def sumOver (scan : List (List DitheredPixel)) (f : Nat → Nat → DitheredPixel → Int) : Int :=
  (scan.mapIdx (fun y row => (row.mapIdx (fun x px => f y x px)).sum)).sum

end Sys2Proof.Machine
end

