-- ==== Sys2Proof/WellFormed.lean ====
section
/-! DEFINITION. Which terms of Instr the spec says the block can hold or show. -/

namespace Sys2Proof

/-- R63, R64, R21, R18: the STATUS words the block can show while it is out of reset. PHASE holds 0 to 9, ERR is not the
reserved code 3, both handles are held exactly while RUN is 1, and ERR is 0 while RUN is 1. -/
def Instr.statusWellFormed (heldDisp heldCap : Bool) (phase : BitVec 4) (err : BitVec 2) (run : Bool) : Bool :=
  decide (phase.toNat ≤ 9) && decide (err ≠ 3) && heldDisp == run && heldCap == run && (!run || decide (err = 0))

/-- The ten operations and every PackedSample (R57: "Every one of the 65536 values is a valid sample") are well formed; the six
reserved codes are not (R63); a STATUS word is when the block can show it. -/
def Instr.wellFormed : Instr → Bool
  | .chk => true
  | .cap => true
  | .nrm => true
  | .exp => true
  | .asm => true
  | .rsz => true
  | .shp => true
  | .dth => true
  | .sub => true
  | .dly => true
  | .packedSample _ _ _ => true
  | .status d c p e _ r => Instr.statusWellFormed d c p e r
  | .reserved10 => false
  | .reserved11 => false
  | .reserved12 => false
  | .reserved13 => false
  | .reserved14 => false
  | .reserved15 => false

end Sys2Proof
end

