-- ==== Sys2Proof/Certificates/Slice0/Obligations.lean ====
section
/-! DEFINITION. The statements for the provers. Each docstring names the rule of spec/ it formalises; a clause that is the model's own
choice names its log entry. -/

open Sys2Proof Sys2Proof.Machine

/-! ## Encodings -/

/-- R61, R57, R23: no bit of an encoding is dropped: every instruction, with every value of its fields, is read back; and every word of
every format has one meaning and is its encoding. -/
def Obligations.DecodeAndEncodeAgree : Prop :=
  (∀ i : Instr, decode (encode i) = i) ∧ ∀ w : CodeWord, encode (decode w) = w

/-- R62: the ten codes and their operations. -/
def Obligations.PhaseCodesSelectTheTenOperations : Prop :=
  decode (.phase4 0) = .chk ∧ decode (.phase4 1) = .cap ∧ decode (.phase4 2) = .nrm ∧ decode (.phase4 3) = .exp
    ∧ decode (.phase4 4) = .asm ∧ decode (.phase4 5) = .rsz ∧ decode (.phase4 6) = .shp ∧ decode (.phase4 7) = .dth
    ∧ decode (.phase4 8) = .sub ∧ decode (.phase4 9) = .dly

/-- R57: the fields of a PackedSample, bit by bit; every value is a valid sample. -/
def Obligations.PackedSampleFieldsAreItsBits : Prop :=
  ∀ s : BitVec 16, ∃ red green blue, decode (.data16 s) = .packedSample red green blue
    ∧ (∀ i < 5, red.getLsbD i = s.getLsbD (11 + i))
    ∧ (∀ i < 6, green.getLsbD i = s.getLsbD (5 + i))
    ∧ (∀ i < 5, blue.getLsbD i = s.getLsbD i)
    ∧ (decode (.data16 s)).wellFormed = true

/-- R23: the bits of STATUS, out of reset. -/
def Obligations.StatusShowsTheRunState : Prop :=
  ∀ s : State, s.inReset = false →
    s.statusView.getLsbD 0 = s.run ∧ s.statusView.getLsbD 1 = s.stopPend
    ∧ (∀ i < 2, s.statusView.getLsbD (2 + i) = s.err.code.getLsbD i)
    ∧ (∀ i < 4, s.statusView.getLsbD (4 + i) = s.phase.getLsbD i)
    ∧ s.statusView.getLsbD 8 = s.heldCap ∧ s.statusView.getLsbD 9 = s.heldDisp

/-- R60: the serialised image has DH * ((DW + 7) div 8) bytes; byte j of row y holds pixel 8j in bit 7 down to pixel 8j + 7 in bit
0, padded on the right with 0 bits. -/
def Obligations.SerialisedImageIsRowsOfLeftFirstBytes : Prop :=
  ∀ (h w : Nat) (img : BitImage), hasShape h w img = true →
    (packImage w img).length = h * ((w + 7) / 8)
    ∧ ∀ y < h, ∀ j < (w + 7) / 8, ∃ byte, (packImage w img)[y * ((w + 7) / 8) + j]? = some byte
      ∧ ∀ k < 8, byte.getLsbD (7 - k) = (pixel img y (8 * j + k)).getD false

/-! ## Front end -/

/-- R75, R76: the native read is little-endian, the swap exchanges the two bytes. -/
def Obligations.NativeReadIsLittleEndianAndSwapExchangesBytes : Prop :=
  (∀ b0 b1 : Byte, rd16le b0 b1 = b1 ++ b0)
    ∧ (∀ w : BitVec 16, bswap16 w = w.extractLsb' 0 8 ++ w.extractLsb' 8 8)
    ∧ ∀ w : BitVec 16, bswap16 (bswap16 w) = w

/-- R77, R41: NRM completes on a snapshot of the right length; sample i is byte 2i followed by byte 2i + 1; it writes SAMP and PHASE
and nothing else. -/
def Obligations.NrmSwapsEverySample : Prop :=
  decode (.phase4 2) = .nrm ∧
  ∀ (s : State) (raw : List Byte), s.buf.raw = some raw → raw.length = s.cfg.bytes →
    ∃ samp : List Sample, samp.length = s.cfg.samples
      ∧ (∀ i < s.cfg.samples, ∃ b0 b1, raw[2 * i]? = some b0 ∧ raw[2 * i + 1]? = some b1 ∧ samp[i]? = some (b0 ++ b1))
      ∧ exec .nrm s = .next { s with phase := 3, buf := { s.buf with samp := some samp } }

/-- R78, R83: the channels as shifted fields and as masked shifts of the sample; for every sample the low bits are zero, the high bits
are the field's, and the sample can be recovered. -/
def Obligations.ExpandedChannelsHoldTheFieldsAboveZeros : Prop :=
  ∀ s : Sample,
    (expand565 s).r = (s.extractLsb' 11 5).setWidth 8 <<< 3 ∧ (expand565 s).r = (s >>> 8).setWidth 8 &&& 0xF8
    ∧ (expand565 s).g = (s.extractLsb' 5 6).setWidth 8 <<< 2 ∧ (expand565 s).g = (s >>> 3).setWidth 8 &&& 0xFC
    ∧ (expand565 s).b = (s.extractLsb' 0 5).setWidth 8 <<< 3 ∧ (expand565 s).b = (s <<< 3).setWidth 8 &&& 0xF8
    ∧ (expand565 s).r.extractLsb' 0 3 = 0 ∧ (expand565 s).g.extractLsb' 0 2 = 0 ∧ (expand565 s).b.extractLsb' 0 3 = 0
    ∧ (expand565 s).r.extractLsb' 3 5 = s.extractLsb' 11 5
    ∧ (expand565 s).g.extractLsb' 2 6 = s.extractLsb' 5 6
    ∧ (expand565 s).b.extractLsb' 3 5 = s.extractLsb' 0 5
    ∧ s = (expand565 s).r.extractLsb' 3 5 ++ (expand565 s).g.extractLsb' 2 6 ++ (expand565 s).b.extractLsb' 3 5

/-- R79: EXP completes on W*H samples; triple i is sample i expanded; RAW holds no value after it. What becomes of RAW_LEN and of SAMP
(log 10, log 9) this does not say; nothing else changes but PHASE. -/
def Obligations.ExpExpandsEverySample : Prop :=
  decode (.phase4 3) = .exp ∧
  ∀ (s : State) (samp : List Sample), s.buf.samp = some samp → samp.length = s.cfg.samples →
    ∃ (tri : List Triple) (len : Option (BitVec 34)) (left : Option (List Sample)), tri.length = s.cfg.samples
      ∧ (∀ (i : Nat) (x : Sample), samp[i]? = some x → tri[i]? = some
          { r := (x >>> 8).setWidth 8 &&& 0xF8, g := (x >>> 3).setWidth 8 &&& 0xFC, b := (x <<< 3).setWidth 8 &&& 0xF8 })
      ∧ exec .exp s = .next { s with
          phase := 4, buf := { s.buf with tri := some tri, raw := none, rawLen := len, samp := left } }

/-- R81, R45: ASM completes on W*H triples; column x of row y is triple y*W + x. What becomes of TRI (log 9) this does not say; nothing
else changes but PHASE. -/
def Obligations.AsmArrangesRowMajor : Prop :=
  decode (.phase4 4) = .asm ∧
  ∀ (s : State) (tri : List Triple), s.buf.tri = some tri → tri.length = s.cfg.samples →
    ∃ (full : Image) (left : Option (List Triple)), hasShape s.cfg.h s.cfg.w full = true
      ∧ (∀ y < s.cfg.h, ∀ x < s.cfg.w, pixel full y x = tri[y * s.cfg.w + x]?)
      ∧ exec .asm s = .next { s with phase := 5, buf := { s.buf with full := some full, tri := left } }

/-- R82, R139: a count other than W*H is reported as CaptureSizeError, code 1, with PHASE frozen; no step of a sane block at ASM raises
it. That RAW_LEN stays as it was and the count is recorded nowhere is the model's choice (log 29). -/
def Obligations.AsmReportsAWrongCount : Prop :=
  (∀ (s : State) (tri : List Triple), s.buf.tri = some tri → tri.length ≠ s.cfg.samples →
    exec .asm s = .next { s with
      err := .captureSize, run := false, heldCap := false, heldDisp := false
      buf := { Buffers.empty with rawLen := s.buf.rawLen } })
  ∧ ErrorCode.captureSize.code = 1
  ∧ ∀ s t : State, s.Sane → s.run = true → s.phase = 4 → s.inReset = false → step s = .next t → t.err = .noError

/-- R85: the composite of NRM, EXP and ASM on a legal snapshot. -/
def Obligations.FrontEndIsTheCompositeOfThreeStages : Prop :=
  ∀ (s : State) (raw : List Byte), s.buf.raw = some raw → raw.length = s.cfg.bytes →
    ∃ (s1 s2 s3 : State) (full : Image),
      exec .nrm s = .next s1 ∧ exec .exp s1 = .next s2 ∧ exec .asm s2 = .next s3 ∧ s3.buf.full = some full
      ∧ hasShape s.cfg.h s.cfg.w full = true
      ∧ ∀ y < s.cfg.h, ∀ x < s.cfg.w, ∃ b0 b1 px,
          raw[2 * (y * s.cfg.w + x)]? = some b0 ∧ raw[2 * (y * s.cfg.w + x) + 1]? = some b1 ∧ pixel full y x = some px
          ∧ px.r = b0 &&& 0xF8
          ∧ px.g = ((b0 &&& 0x07) <<< 5) ||| ((b1 &&& 0xE0) >>> 3)
          ∧ px.b = (b1 &&& 0x1F) <<< 3

/-! ## Resampler -/

/-- R89, R93, R98, R99 (P3, P4): in every table that meets the obligations there is one row for each output position, its window is not
empty and lies inside the line, its coefficients are as many as the window is long, they sum to exactly 2^P, each fits the signed
18-bit field, and the sum of their magnitudes is below 2^17. -/
def Obligations.CoefficientsSumToOne : Prop :=
  ∀ (p nIn nOut : Nat) (rows : List CoefRow), axisTable p nIn nOut = some rows →
    rows.length = nOut
    ∧ ∀ (o : Nat) (row : CoefRow), rows[o]? = some row →
        row.lo = windowLo nIn nOut o ∧ row.coefs.length = windowLen nIn nOut o
        ∧ 1 ≤ row.coefs.length ∧ row.lo + row.coefs.length ≤ nIn
        ∧ row.coefs.sum = 2 ^ p ∧ (∀ c ∈ row.coefs, -131072 < c ∧ c < 131072)
        ∧ (row.coefs.map Int.natAbs).sum < 2 ^ 17

/-- R88: the enclosures by which the model evaluates the Lanczos kernel (log 8) hold the real kernel, at every level of precision and every
point t = a / (2m). -/
def Obligations.EnclosureHoldsTheRealKernel : Prop :=
  ∀ level m a : Nat, 0 < m →
    ((lanczosEnclosure level m a).lo : ℝ) / unitAt level ≤ Reference.lanczos ((a : ℝ) / (2 * m))
    ∧ Reference.lanczos ((a : ℝ) / (2 * m)) ≤ ((lanczosEnclosure level m a).hi : ℝ) / unitAt level

/-- R88 to R93: wherever some level decides the rounding of every tap (log 8), the row of the machine is the row of the rules over the real
numbers: the window, the normalised and rounded weights, the fix-up; and the exact test for a half (R92's tie) finds only halves. -/
def Obligations.CoefficientRowsAreThoseOfTheRealRules : Prop :=
  ∀ p nIn nOut o : Nat, 0 < nIn → 0 < nOut → o < nOut →
    (0 < (weightSum (weights 0 nIn nOut o)).lo →
      (∀ (k : Nat) (w : Enclosure), (weights 0 nIn nOut o)[k]? = some w →
        (roundWeight p nIn nOut o k levels 0 (weightSum (weights 0 nIn nOut o)) w).isSome = true) →
      ((coefRow p nIn nOut o).lo : ℤ) = Reference.lo nIn nOut o
      ∧ (coefRow p nIn nOut o).coefs.length = Reference.len nIn nOut o
      ∧ 0 < Reference.weightSum nIn nOut o
      ∧ ∃ j, Reference.IsNearest nIn nOut o j
        ∧ ∀ k < Reference.len nIn nOut o, (coefRow p nIn nOut o).coefs[k]? = some (Reference.coef p nIn nOut o j k))
    ∧ ∀ (k : Nat) (h : Int), k < windowLen nIn nOut o → isHalf p nIn nOut o k h = true →
        2 ^ (p + 1) * Reference.weight nIn nOut o k = (h : ℝ) * Reference.weightSum nIn nOut o

/-- R94, R97: the filter of one value, its sum written out over the taps; for every row of an admitted table the sum of |c| is below 2^17
and the accumulator lies within an i32, whatever the line, and so it does for every such row with P at most 16. -/
def Obligations.FilterSumsTheTapsWithin32Bits : Prop :=
  (∀ (p : Nat) (row : CoefRow) (src : List Byte), 1 ≤ p → row.lo + row.coefs.length ≤ src.length →
    firAcc p row src = 2 ^ (p - 1)
      + ∑ k ∈ Finset.range row.coefs.length, row.coefs.getD k 0 * ((src.getD (row.lo + k) 0).toNat : Int)
    ∧ (fir p row src).toNat = max 0 (min 255 (firAcc p row src / 2 ^ p))
    ∧ (p ≤ 16 → (row.coefs.map Int.natAbs).sum < 2 ^ 17 → -2 ^ 31 ≤ firAcc p row src ∧ firAcc p row src < 2 ^ 31))
  ∧ ∀ (p nIn nOut : Nat) (rows : List CoefRow) (row : CoefRow), axisTable p nIn nOut = some rows → row ∈ rows →
      (row.coefs.map Int.natAbs).sum < 2 ^ 17
      ∧ ∀ src : List Byte, -2 ^ 31 < firAcc p row src ∧ firAcc p row src < 2 ^ 31

/-- R95, R87: RSZ completes where the tables meet R98: the horizontal pass over the rows of FULL, then the vertical pass over the columns
of its result; the output is DH by DW; FULL and TMP hold no value after it; nothing else changes but PHASE. -/
def Obligations.RszFiltersRowsThenColumns : Prop :=
  decode (.phase4 5) = .rsz ∧
  ∀ (s : State) (full : Image) (hor ver : List CoefRow),
    s.buf.full = some full → hasShape s.cfg.h s.cfg.w full = true → s.cfg.kernel = 0 → coefTables s.cfg = some (hor, ver) →
    ∃ tmp out : Image, hasShape s.cfg.h s.cfg.dw tmp = true ∧ hasShape s.cfg.dh s.cfg.dw out = true
      ∧ (∀ ch ∈ channels, ∀ (y x : Nat) (line : List Triple) (rh : CoefRow), full[y]? = some line → hor[x]? = some rh →
          (pixel tmp y x).map ch = some (fir s.cfg.coefP rh (line.map ch)))
      ∧ (∀ ch ∈ channels, ∀ (o x : Nat) (rv : CoefRow) (col : List Byte), ver[o]? = some rv → x < s.cfg.dw →
          col.length = s.cfg.h → (∀ y < s.cfg.h, col[y]? = (pixel tmp y x).map ch) →
          (pixel out o x).map ch = some (fir s.cfg.coefP rv col))
      ∧ exec .rsz s = .next { s with phase := 6, buf := { s.buf with rsz := some out, full := none, tmp := none } }

/-- R96 (b), R99 (P5): a uniform image stays uniform at every size. -/
def Obligations.ResamplingKeepsAUniformImage : Prop :=
  ∀ (s : State) (px : Triple) (hor ver : List CoefRow),
    s.buf.full = some (uniformGrid s.cfg.h s.cfg.w px) → s.cfg.kernel = 0 → 1 ≤ s.cfg.coefP → 0 < s.cfg.w → 0 < s.cfg.h →
    coefTables s.cfg = some (hor, ver) →
    exec .rsz s = .next { s with
      phase := 6, buf := { s.buf with rsz := some (uniformGrid s.cfg.dh s.cfg.dw px), full := none, tmp := none } }

/-- R96 (a), R99 (P6): at equal sizes the tables meet R98 and RSZ copies its input. -/
def Obligations.ResamplingToTheSameSizeIsTheIdentity : Prop :=
  ∀ (s : State) (full : Image),
    s.buf.full = some full → hasShape s.cfg.h s.cfg.w full = true → s.cfg.legal = true →
    s.cfg.dw = s.cfg.w → s.cfg.dh = s.cfg.h →
    exec .rsz s = .next { s with phase := 6, buf := { s.buf with rsz := some full, full := none, tmp := none } }

/-- R87 (c), R104, R99 (P2): no value of one channel enters another, in the resampler and in the sharpness filter. -/
def Obligations.ChannelsDoNotMix : Prop :=
  ∀ ch ∈ channels, ∀ a b : Image, channelOf ch a = channelOf ch b →
    (∀ (p dw : Nat) (hor ver : List CoefRow),
      channelOf ch (resample p dw hor ver a) = channelOf ch (resample p dw hor ver b))
    ∧ ∀ f dh dw : Nat, channelOf ch (sharpenImage f dh dw a) = channelOf ch (sharpenImage f dh dw b)

/-- R66, R98, R155: a reserved selector, a dimension of 0 and tables that fail an obligation are refused. Where they are refused, when
reset is to be released and by RSZ and DTH, which read the selectors, is the model's (log 24, DEDUCED). -/
def Obligations.ReservedSelectorsAndBadTablesAreRefused : Prop :=
  (∀ c : Configuration, c.ditherAlg ≠ 0 ∨ c.kernel ≠ 0 ∨ c.srcW = 0 ∨ c.srcH = 0 ∨ c.dstW = 0 ∨ c.dstH = 0 →
      releasable c = .error .invalidConfiguration)
  ∧ (∀ c : Configuration, coefTables c = none → releasable c = .error .invalidConfiguration ∨ releasable c = .error .coefficientTables)
  ∧ (∀ (s : State) (full : Image), s.buf.full = some full → hasShape s.cfg.h s.cfg.w full = true → s.cfg.kernel ≠ 0 →
      exec .rsz s = .refused .invalidConfiguration)
  ∧ (∀ (s : State) (full : Image), s.buf.full = some full → hasShape s.cfg.h s.cfg.w full = true → s.cfg.kernel = 0 →
      coefTables s.cfg = none → exec .rsz s = .refused .coefficientTables)
  ∧ ∀ (s : State) (img : Image), s.buf.enh = some img → hasShape s.cfg.dh s.cfg.dw img = true → s.cfg.ditherAlg ≠ 0 →
      exec .dth s = .refused .invalidConfiguration

/-! ## Sharpness filter -/

/-- R103: the operator in integers, with the bound on t; at factor 2.0 it is clamp8(2*in - blur) exactly, at 1.0 it is in, at 0.0 it is
blur. -/
def Obligations.SharpenAtTheNamedFactors : Prop :=
  ∀ input blur : Byte,
    (∀ f : BitVec 16, ∃ t : Int, t = 256 * (blur.toNat : Int) + f.toNat * ((input.toNat : Int) - blur.toNat)
      ∧ -(2 ^ 24 + 2 ^ 16) < t ∧ t < 2 ^ 24 + 2 ^ 16
      ∧ ((sharpen f.toNat input.toNat blur.toNat).toNat : Int) = max 0 (min 255 ((t + 128) / 256)))
    ∧ ((sharpen 512 input.toNat blur.toNat).toNat : Int) = max 0 (min 255 (2 * (input.toNat : Int) - blur.toNat))
    ∧ sharpen 256 input.toNat blur.toNat = input
    ∧ sharpen 0 input.toNat blur.toNat = blur

/-- R104, R101, R102, R103: SHP completes; a border pixel is sharpened against itself, an interior pixel against the mean of its 3 by 3
neighbourhood with centre weight 5 over 13, rounded; every read is of RSZ; RSZ holds no value after it. -/
def Obligations.ShpSharpensEveryPixel : Prop :=
  decode (.phase4 6) = .shp ∧
  ∀ (s : State) (img : Image), s.buf.rsz = some img → hasShape s.cfg.dh s.cfg.dw img = true →
    ∃ out : Image, hasShape s.cfg.dh s.cfg.dw out = true
      ∧ (∀ ch ∈ channels, ∀ (y x : Nat) (px : Triple), pixel img y x = some px →
          ∃ res : Triple, pixel out y x = some res
          ∧ ∃ blur : Int,
              ((ch res).toNat : Int)
                = max 0 (min 255 ((256 * blur + s.cfg.sharpF.toNat * ((ch px).toNat - blur) + 128) / 256))
              ∧ ((x = 0 ∨ y = 0 ∨ x + 1 = s.cfg.dw ∨ y + 1 = s.cfg.dh) → blur = (ch px).toNat)
              ∧ (1 ≤ x → 1 ≤ y → x + 1 < s.cfg.dw → y + 1 < s.cfg.dh → ∀ v : Nat → Nat → Byte,
                  (∀ dy < 3, ∀ dx < 3, (pixel img (y + dy - 1) (x + dx - 1)).map ch = some (v dy dx)) →
                  blur = ((∑ dy ∈ Finset.range 3, ∑ dx ∈ Finset.range 3, ((v dy dx).toNat : Int))
                    + 4 * (ch px).toNat + 6) / 13))
      ∧ exec .shp s = .next { s with phase := 7, buf := { s.buf with enh := some out, rsz := none } }

/-- R105: (a) a uniform image passes through unchanged at any factor, (d) so does an image narrower or shorter than 3; at factor 2.0
(b) the value that is saturated lies in -255 to 510, (c) in = 0 and in = 255 stay whatever the reference, (e) what is not saturated
moves by the difference from the reference. -/
def Obligations.SharpeningKeepsUniformAndSmallImages : Prop :=
  (∀ f dh dw : Nat,
    (∀ px : Triple, sharpenImage f dh dw (uniformGrid dh dw px) = uniformGrid dh dw px)
    ∧ ∀ img : Image, hasShape dh dw img = true → dw < 3 ∨ dh < 3 → sharpenImage f dh dw img = img)
  ∧ ∀ input blur : Byte, ∃ v : Int, v = (input.toNat : Int) + ((input.toNat : Int) - blur.toNat)
    ∧ -255 ≤ v ∧ v ≤ 510 ∧ (0 ≤ v → v ≤ 255 → ((sharpen 512 input.toNat blur.toNat).toNat : Int) = v)
    ∧ (v < 0 → sharpen 512 input.toNat blur.toNat = 0) ∧ (255 < v → sharpen 512 input.toNat blur.toNat = 255)
    ∧ (input = 0 → sharpen 512 input.toNat blur.toNat = 0) ∧ (input = 255 → sharpen 512 input.toNat blur.toNat = 255)

/-! ## Ditherer -/

/-- R109: the reference conversion, its weights summing to 65536, its sum below 2^24; greys are kept; the rule's four values. -/
def Obligations.LuminanceIsTheWeightedMean : Prop :=
  (19595 + 38470 + 7471 = 65536)
  ∧ (∀ px : Triple, 19595 * px.r.toNat + 38470 * px.g.toNat + 7471 * px.b.toNat + 32768 < 2 ^ 24
    ∧ (luma Configuration.reference.luma px).toNat
      = (19595 * px.r.toNat + 38470 * px.g.toNat + 7471 * px.b.toNat + 32768) / 65536)
  ∧ (∀ u : Byte, luma Configuration.reference.luma { r := u, g := u, b := u } = u)
  ∧ luma Configuration.reference.luma { r := 248, g := 0, b := 0 } = 74
  ∧ luma Configuration.reference.luma { r := 0, g := 252, b := 0 } = 148
  ∧ luma Configuration.reference.luma { r := 0, g := 0, b := 248 } = 28
  ∧ luma Configuration.reference.luma { r := 248, g := 252, b := 248 } = 250

/-- D13, U2: the conversions that a legal configuration can have keep the greys, and every function on triples that does is one of them.
How a conversion is written as data is the model's (log 13). -/
def Obligations.LegalConversionsKeepGreys : Prop :=
  (∀ (l : Luma) (u : Byte), l.legal = true → luma l { r := u, g := u, b := u } = u)
  ∧ ∀ f : Triple → Byte, (∀ u : Byte, f { r := u, g := u, b := u } = u) →
      ∃ l : Luma, l.legal = true ∧ ∀ px : Triple, luma l px = f px

/-- R110, R111, R112, R113, R114: DTH completes, and its bits come from a scan in which every pixel's accumulator entry, as a signed
number, is exactly what the four receivers' rule has sent to it, v is its luminance plus that entry in sixteenths rounded half
upward, the bit is v >= THRESH, and e is v - 255*b. ENH and EACC hold no value after it; nothing else changes but PHASE. -/
def Obligations.DthDiffusesErrorsByFloydSteinberg : Prop :=
  decode (.phase4 7) = .dth ∧
  ∀ (s : State) (img : Image), s.buf.enh = some img → hasShape s.cfg.dh s.cfg.dw img = true → s.cfg.ditherAlg = 0 →
    ∃ scan : List (List DitheredPixel), hasShape s.cfg.dh s.cfg.dw scan = true
      ∧ (∀ (y x : Nat) (px : Triple) (d : DitheredPixel), pixel img y x = some px → pixel scan y x = some d →
          d.lum = luma s.cfg.luma px
          ∧ d.acc.toInt = receivedShares scan s.cfg.dw y x
          ∧ d.v = d.lum.toNat + (d.acc.toInt + 8) / 16
          ∧ (d.bit = true ↔ (s.cfg.thresh.toNat : Int) ≤ d.v)
          ∧ d.e = d.v - 255 * (if d.bit then 1 else 0))
      ∧ exec .dth s = .next { s with
          phase := 8
          buf := { s.buf with bit := some (scan.map (fun row => row.map DitheredPixel.bit)), enh := none, eacc := none } }

/-- R115, at the reference threshold 128: the bounds of e, of v and of the accumulator entry of every pixel as it is read. -/
def Obligations.DitherValuesStayInBounds : Prop :=
  ∀ (dh dw : Nat) (lums : List (List Byte)), hasShape dh dw lums = true →
    ∀ (y x : Nat) (d : DitheredPixel), pixel (ditherScan 128 dw lums) y x = some d →
      (-128 ≤ d.e ∧ d.e ≤ 128) ∧ (-128 ≤ d.v ∧ d.v ≤ 383) ∧ (-2048 ≤ d.acc.toInt ∧ d.acc.toInt ≤ 2048)

/-- R116: conservation over a whole image, both sides times 16; each residue of rounding lies in -7 to 8 sixteenths. -/
def Obligations.DitherConservesBrightness : Prop :=
  ∀ (dh dw : Nat) (thresh : BitVec 8) (lums : List (List Byte)), hasShape dh dw lums = true →
    16 * sumOver (ditherScan thresh.toNat dw lums) (fun _ _ d => 255 * (if d.bit then 1 else 0) - (d.lum.toNat : Int))
      = sumOver (ditherScan thresh.toNat dw lums) (fun _ _ d => 16 * ((d.acc.toInt + 8) / 16) - d.acc.toInt)
        - sumOver (ditherScan thresh.toNat dw lums) (fun y x d => d.e * (16 - keptShares dh dw y x))
    ∧ ∀ (y x : Nat) (d : DitheredPixel), pixel (ditherScan thresh.toNat dw lums) y x = some d →
        -7 ≤ 16 * ((d.acc.toInt + 8) / 16) - d.acc.toInt ∧ 16 * ((d.acc.toInt + 8) / 16) - d.acc.toInt ≤ 8

/-- R117 (a), (b): an image of luminance 0 gives all 0, one of luminance 255 all 1, at every size and every legal threshold. -/
def Obligations.BlackStaysBlackAndWhiteStaysWhite : Prop :=
  ∀ (c : Configuration) (img : Image), c.legal = true → hasShape c.dh c.dw img = true →
    (lumaImage c.luma img = uniformGrid c.dh c.dw 0 → ditherImage c.luma c.thresh.toNat c.dw img = uniformGrid c.dh c.dw false)
    ∧ (lumaImage c.luma img = uniformGrid c.dh c.dw 255 → ditherImage c.luma c.thresh.toNat c.dw img = uniformGrid c.dh c.dw true)

/-- R118, R161: a pixel depends on the pixels scanned up to it and on no later one: two images that agree on the rows above and on the
start of a row have the same bits there. -/
def Obligations.DitherDependsOnEarlierPixelsOnly : Prop :=
  ∀ (thresh dw : Nat) (above : List (List Byte)) (start tail1 tail2 : List Byte) (below1 below2 : List (List Byte)),
    let scan1 := ditherScan thresh dw (above ++ (start ++ tail1) :: below1)
    let scan2 := ditherScan thresh dw (above ++ (start ++ tail2) :: below2)
    scan1.take above.length = scan2.take above.length
    ∧ ∀ x < start.length, pixel scan1 above.length x = pixel scan2 above.length x

/-! ## The loop -/

/-- R122, R145: CHK samples the stop request; a pending one stops the block cleanly, ERR and PHASE unchanged; none moves on to CAP. What
the record of transactions (log 16) becomes this does not say. -/
def Obligations.ChkStopsOrContinues : Prop :=
  decode (.phase4 0) = .chk ∧
  ∀ s : State, ∃ rec : List PortEvent, exec .chk s = .next (
    if s.stopPend then
      { s with run := false, heldCap := false, heldDisp := false, env := { s.env with trace := rec } }
    else { s with phase := 1, env := { s.env with trace := rec } })

/-- R123, R136, R137: CAP with an answer ready, which it takes. Fail is a TransportError and RAW_LEN is not written; a length other than
2*SRC_W*SRC_H is a CaptureSizeError and RAW_LEN records it, up to 2^34 - 1 (R14); the right length is taken whole. No other buffer
holds a value after it. What the record of transactions (log 16) becomes this does not say. -/
def Obligations.CapTakesExactlyOneSnapshot : Prop :=
  decode (.phase4 1) = .cap ∧ ErrorCode.captureSize.code = 1 ∧ ErrorCode.transport.code = 2 ∧
  ∀ (s : State) (a : CaptureAnswer) (more : List CaptureAnswer), s.env.capAnswers = a :: more →
    ∃ rec : List PortEvent,
    (a = .fail → exec .cap s = .next { s with
        err := .transport, run := false, heldCap := false, heldDisp := false, buf := Buffers.empty
        env := { s.env with capAnswers := more, trace := rec } })
    ∧ ∀ raw, a = .bytes raw →
      (raw.length ≠ 2 * (s.cfg.srcW.toNat * s.cfg.srcH.toNat) → ∃ n : BitVec 34, n.toNat = min raw.length (2 ^ 34 - 1)
        ∧ exec .cap s = .next { s with
            err := .captureSize, run := false, heldCap := false, heldDisp := false
            buf := { Buffers.empty with rawLen := some n }, env := { s.env with capAnswers := more, trace := rec } })
      ∧ (raw.length = 2 * (s.cfg.srcW.toNat * s.cfg.srcH.toNat) → ∃ n : BitVec 34, n.toNat = raw.length
        ∧ exec .cap s = .next { s with
            phase := 2, buf := { Buffers.empty with raw := some raw, rawLen := some n }
            env := { s.env with capAnswers := more, trace := rec } })

/-- R124, R138: SUB with an answer ready, which it takes. The image BIT is handed over whole, as the record shows: the submission of it
with its answer, and after Ok the reading of the time (log 16). Ok: T_END is the time, BIT holds no value, on to DLY. Fail: a
TransportError, T_END not written. -/
def Obligations.SubSubmitsTheImage : Prop :=
  decode (.phase4 8) = .sub ∧ ErrorCode.transport.code = 2 ∧
  ∀ (s : State) (img : BitImage) (a : DisplayAnswer) (more : List DisplayAnswer),
    s.buf.bit = some img → hasShape s.cfg.dh s.cfg.dw img = true → s.env.dispAnswers = a :: more →
    (a = .ok → exec .sub s = .next { s with
        phase := 9, tEnd := s.env.now, buf := { s.buf with bit := none }
        env := { s.env with
          dispAnswers := more, trace := .now s.env.now :: .displaySubmit img .ok :: s.env.trace } })
    ∧ (a = .fail → exec .sub s = .next { s with
        err := .transport, run := false, heldCap := false, heldDisp := false, buf := Buffers.empty
        env := { s.env with dispAnswers := more, trace := .displaySubmit img .fail :: s.env.trace } })

/-- R125: DLY is enabled at any time at or after T_END + DELAY_MS, whatever else the state holds (a pending stop among it), and at no other
time; it writes PHASE and nothing else. What the record of transactions (log 5, log 16) becomes this does not say. -/
def Obligations.DlyWaitsOutTheDelay : Prop :=
  decode (.phase4 9) = .dly ∧
  ∀ s : State, ∃ rec : List PortEvent,
    (s.tEnd + s.cfg.delayMs.toNat ≤ s.env.now →
      exec .dly s = .next { s with phase := 0, env := { s.env with trace := rec } })
    ∧ ∀ t : State, exec .dly s = .next t → s.tEnd + s.cfg.delayMs.toNat ≤ s.env.now

/-- R121, R128, R152: CAP and SUB have no step while their port has not answered, DLY none while the delay has not passed (a stuck state of
the model, log 4); time that passes enables DLY. -/
def Obligations.UnansweredPortsBlock : Prop :=
  (∀ s : State, s.env.capAnswers = [] → exec .cap s = .fault .blockedInCapture)
  ∧ (∀ (s : State) (img : BitImage), s.buf.bit = some img → hasShape s.cfg.dh s.cfg.dw img = true → s.env.dispAnswers = [] →
      exec .sub s = .fault .blockedInSubmit)
  ∧ (∀ s : State, s.env.now < s.tEnd + s.cfg.delayMs.toNat → exec .dly s = .fault .blockedInDelay)
  ∧ ∀ (s : State) (ms : Nat) (rest : List EnvMove),
      s.inReset = false → s.cfg.legal = true → s.run = true → s.phase = 9 →
      s.env.schedule = .passTime ms :: .runBlock :: rest → s.tEnd + s.cfg.delayMs.toNat ≤ s.env.now + ms →
      ∃ t, core.run 2 s = .next t ∧ t.phase = 0 ∧ t.run = true

/-- R39, R128, R152, R156, U14, U16: in an environment that lets time pass without bound Now() exceeds every bound, whatever the block does;
if it also gives turns and never asserts reset, DLY completes; and if it also answers, every wait of a sane RUNNING block ends. The
environment moves without end and is fed to the block move by move, a turn in vain leaving the block as it is (log 31). -/
def Obligations.WaitsEndInADutifulEnvironment : Prop :=
  ∀ e : Environment, LetsTimePass e →
    (∀ (s : State) (bound : Nat), ∃ n, bound < (s.after e n).env.now)
    ∧ (GivesTurns e → (∀ n, e n ≠ .assertReset) → ∀ s : State, s.inReset = false → s.cfg.legal = true → s.run = true →
        (s.phase = 9 → ∃ n, (s.after e n).phase = 0 ∧ (s.after e n).run = true)
        ∧ (AnswersCaptures e → AnswersSubmissions e → s.Sane → (coefTables s.cfg).isSome = true →
            ∃ n, (s.after e n).phase ≠ s.phase ∨ (s.after e n).run = false))

/-- R15, D30, U9: an operation whose operand buffer holds no value stops on the read. -/
def Obligations.ReadingAnEmptyBufferIsAFault : Prop :=
  ∀ s : State,
    (s.buf.raw = none → exec .nrm s = .fault (.holdsNoValue .raw))
    ∧ (s.buf.samp = none → exec .exp s = .fault (.holdsNoValue .samp))
    ∧ (s.buf.tri = none → exec .asm s = .fault (.holdsNoValue .tri))
    ∧ (s.buf.full = none → exec .rsz s = .fault (.holdsNoValue .full))
    ∧ (s.buf.rsz = none → exec .shp s = .fault (.holdsNoValue .rsz))
    ∧ (s.buf.enh = none → exec .dth s = .fault (.holdsNoValue .enh))
    ∧ (s.buf.bit = none → exec .sub s = .fault (.holdsNoValue .bit))

/-- R23, R44, R156, U12: the row STATUS. What a read returns has STATUS in its low ten bits and 0 above them. A read that returns what STATUS shows changes nothing of the block; the record grows by it (log 16),
and a read while reset is held uses a free value (log 21). A read that would return another word is none (log 19). -/
def Obligations.ReadingStatusChangesNothing : Prop :=
  (∀ s : State, s.statusRead.extractLsb' 0 10 = s.statusView ∧ s.statusRead.extractLsb' 10 6 = 0)
  ∧ ∀ (s : State) (heldDisp heldCap : Bool) (phase : BitVec 4) (err : BitVec 2) (stopPend run : Bool),
    (packStatus heldDisp heldCap phase err stopPend run = s.statusView →
      ∃ used : Nat, exec (.status heldDisp heldCap phase err stopPend run) s
          = .next { s with env := { s.env with free := used, trace := .statusRead s.statusRead :: s.env.trace } }
        ∧ (s.inReset = false → used = s.env.free))
    ∧ (packStatus heldDisp heldCap phase err stopPend run ≠ s.statusView →
      exec (.status heldDisp heldCap phase err stopPend run) s = .fault .statusReadsOtherwise)

/-- R63: a reserved code of PHASE has no step, whichever of the six it is, and no operation ever writes one. -/
def Obligations.ReservedPhasesAreStuck : Prop :=
  (∀ (s : State) (code : BitVec 4), 10 ≤ code.toNat → exec (decode (.phase4 code)) s = .fault (.reservedPhase code))
  ∧ (∀ s : State, exec .reserved10 s = .fault (.reservedPhase 10) ∧ exec .reserved11 s = .fault (.reservedPhase 11)
    ∧ exec .reserved12 s = .fault (.reservedPhase 12) ∧ exec .reserved13 s = .fault (.reservedPhase 13)
    ∧ exec .reserved14 s = .fault (.reservedPhase 14) ∧ exec .reserved15 s = .fault (.reservedPhase 15))
  ∧ ∀ (i : Instr) (s t : State), s.phase.toNat ≤ 9 → exec i s = .next t → t.phase.toNat ≤ 9

/-- R57: the row PackedSample is a layout and no operation (log 18). -/
def Obligations.PackedSampleIsNoOperation : Prop :=
  ∀ (s : State) (red : BitVec 5) (green : BitVec 6) (blue : BitVec 5),
    exec (.packedSample red green blue) s = .fault .notAnOperation

/-- R126: after an operation that completes without error and without stopping PHASE is the next in the order, 0 after 9. There are two
other outcomes, both with PHASE unchanged and RUN cleared: CHK with a pending stop, ERR kept, and an error, ERR set. -/
def Obligations.PhaseAdvancesInTheHardWiredOrder : Prop :=
  ∀ s t : State, s.run = true → exec (decode (.phase4 s.phase)) s = .next t →
    (t.run = true ∧ t.err = s.err ∧ t.phase.toNat = (s.phase.toNat + 1) % 10)
    ∨ (t.run = false ∧ t.phase = s.phase
      ∧ ((s.phase = 0 ∧ s.stopPend = true ∧ t.err = s.err) ∨ (s.phase ≠ 0 ∧ t.err ≠ .noError)))

/-- R140: whatever operation ends with an error has done error entry: ERR holds code 1 or 2, RUN and the handles are cleared, PHASE, T_END,
STOP_PEND and the configuration are kept, no buffer holds a value but the RAW_LEN of a CaptureSizeError of CAP, which keeps the
offending length (of ASM's, which cannot occur, this does not say what RAW_LEN holds). -/
def Obligations.ErrorEntryFreezesTheBlock : Prop :=
  ∀ (i : Instr) (s t : State), s.err = .noError → exec i s = .next t → t.err ≠ .noError →
    (t.err.code = 1 ∨ t.err.code = 2) ∧ t.run = false ∧ t.heldCap = false ∧ t.heldDisp = false
    ∧ t.phase = s.phase ∧ t.tEnd = s.tEnd ∧ t.stopPend = s.stopPend ∧ t.cfg = s.cfg ∧ t.inReset = s.inReset
    ∧ t.buf = { Buffers.empty with rawLen := t.buf.rawLen }
    ∧ (t.err = .transport → t.buf.rawLen = none)
    ∧ (t.err = .captureSize →
        (∃ raw more n, s.env.capAnswers = .bytes raw :: more ∧ t.buf.rawLen = some n ∧ n.toNat = min raw.length (2 ^ 34 - 1))
        ∨ i = .asm)

/-! ## Steps, reset and the environment -/

/-- R121, R156: a step of a block that is out of reset, RUNNING, with a legal configuration and whose turn it is executes the operation
that PHASE selects, and a read of STATUS that is the environment's next move is executed as the word that STATUS shows, in the state
with the move taken off the schedule (log 3); nothing else happens in the step. -/
def Obligations.StepExecutesTheOperationOfPhase : Prop :=
  (∀ s : State, s.inReset = false → s.cfg.legal = true → s.run = true →
    (s.env.schedule = [] → step s = exec (decode (.phase4 s.phase)) s)
    ∧ ∀ rest, s.env.schedule = .runBlock :: rest →
        step s = exec (decode (.phase4 s.phase)) { s with env := { s.env with schedule := rest } })
  ∧ ∀ (s : State) (rest : List EnvMove), s.env.schedule = .readStatus :: rest →
      step s = exec (decode (.view10 s.statusView)) { s with env := { s.env with schedule := rest } }

/-- R127, R157, R155: with no move of the environment to come, and when the schedule gives it the turn, a block that is held in reset, has an
invalid configuration or is STOPPED has no step. -/
def Obligations.NoStepWithoutRunning : Prop :=
  ∀ s : State, (s.env.schedule = [] ∨ ∃ rest, s.env.schedule = .runBlock :: rest) →
    (s.inReset = true → step s = .fault .heldInReset)
    ∧ (s.inReset = false → s.cfg.legal = false → step s = .refused .invalidConfiguration)
    ∧ (s.inReset = false → s.cfg.legal = true → s.run = false → step s = .fault .stopped)

/-- R28: the values of the state when reset is released, for every configuration; T_END, which the rule leaves unspecified, is not
mentioned. -/
def Obligations.ResetLeavesTheStateOfTheTable : Prop :=
  ∀ (c : Configuration) (env : Env), (State.resetWith c env).run = true ∧ (State.resetWith c env).phase = 0
    ∧ (State.resetWith c env).err.code = 0 ∧ (State.resetWith c env).stopPend = false
    ∧ (State.resetWith c env).heldCap = true ∧ (State.resetWith c env).heldDisp = true
    ∧ (State.resetWith c env).cfg = c ∧ (State.resetWith c env).buf = Buffers.empty
    ∧ (State.resetWith c env).inReset = false ∧ (State.resetWith c env).statusView = 0x301

/-- R157, R158, R155, R98: releasing an asserted reset with a valid configuration gives State.resetWith whatever the block was doing: the state
of R28, in which T_END, which the rule leaves unspecified, is the model's 0 (log 2), with the environment's time, ready answers and moves
to come kept (log 28). With an invalid configuration, failing tables among it, there is no run. Releasing a reset that is not asserted
does nothing (log 21). -/
def Obligations.ReleasingResetStartsOver : Prop :=
  ∀ (s : State) (c : Configuration) (rest : List EnvMove), s.env.schedule = .releaseReset c :: rest →
    (s.inReset = true → c.legal = true → (coefTables c).isSome = true →
      step s = .next (State.resetWith c { s.env with schedule := rest }))
    ∧ (s.inReset = true → c.legal = false → step s = .refused .invalidConfiguration)
    ∧ (s.inReset = true → coefTables c = none →
      step s = .refused (if c.legal then .coefficientTables else .invalidConfiguration))
    ∧ (s.inReset = false → step s = .next { s with env := { s.env with schedule := rest } })

/-- R156, R144, R39, R36, R37, R157: what each other move of the environment does, and that it does nothing else. A stop request delivered
while reset is asserted is lost (R28). Moves that the environment never makes do not exist (log 30). -/
def Obligations.EnvironmentMovesChangeOnlyTheirInput : Prop :=
  ∀ (s : State) (rest : List EnvMove),
    (∀ a, s.env.schedule = .answerCapture a :: rest → step s
      = .next { s with env := { s.env with schedule := rest, capAnswers := s.env.capAnswers ++ [a] } })
    ∧ (∀ a, s.env.schedule = .answerDisplay a :: rest → step s
      = .next { s with env := { s.env with schedule := rest, dispAnswers := s.env.dispAnswers ++ [a] } })
    ∧ (∀ ms, s.env.schedule = .passTime ms :: rest → step s
      = .next { s with env := { s.env with schedule := rest, now := s.env.now + ms } })
    ∧ (s.env.schedule = .deliverStop :: rest → step s
      = .next { s with stopPend := s.stopPend || !s.inReset, env := { s.env with schedule := rest } })
    ∧ (s.env.schedule = .assertReset :: rest → step s
      = .next { s with inReset := true, env := { s.env with schedule := rest } })

/-- R144: delivery sets the stop latch, and setting it again changes nothing; the latch is sticky, only the release of reset clears it;
only CHK takes it. -/
def Obligations.StopRequestIsNeverLost : Prop :=
  (∀ (s : State) (rest : List EnvMove), s.inReset = false → s.env.schedule = .deliverStop :: rest →
    step s = .next { s with stopPend := true, env := { s.env with schedule := rest } })
  ∧ (∀ s t : State, s.stopPend = true → step s = .next t → t.stopPend = true ∨ (s.inReset = true ∧ s.releasesReset))
  ∧ ∀ s t : State, s.run = true → step s = .next t → t.run = false → t.err = .noError → s.phase = 0 ∧ s.stopPend = true

/-- R22, R29: the configuration is constant while the block is out of reset. -/
def Obligations.ConfigurationIsConstant : Prop :=
  ∀ s t : State, step s = .next t → t.cfg = s.cfg ∨ (s.inReset = true ∧ s.releasesReset)

/-- R17, R18, R19, R21, R127, R142: only reset leaves STOPPED; RUN, ERR, PHASE, the handles, the buffers and T_END are frozen, STOP_PEND can
only be set, by a delivery, and no port transaction of the block follows (the record of them is log 16). -/
def Obligations.OnlyResetLeavesStopped : Prop :=
  ∀ s t : State, s.run = false → step s = .next t →
    (t.run = false ∧ t.err = s.err ∧ t.phase = s.phase ∧ t.heldCap = s.heldCap ∧ t.heldDisp = s.heldDisp
      ∧ t.buf = s.buf ∧ t.tEnd = s.tEnd
      ∧ (t.stopPend = s.stopPend ∨ (t.stopPend = true ∧ ∃ rest, s.env.schedule = .deliverStop :: rest))
      ∧ (t.env.trace = s.env.trace ∨ ∃ w, t.env.trace = .statusRead w :: s.env.trace))
    ∨ (s.inReset = true ∧ s.releasesReset)

/-- R39, R149: time never runs backwards, and no operation of the block writes it. -/
def Obligations.TimeNeverRunsBackwards : Prop :=
  (∀ s t : State, step s = .next t → s.env.now ≤ t.env.now)
  ∧ ∀ (i : Instr) (s t : State), exec i s = .next t → t.env.now = s.env.now

/-! ## Invariants and headlines -/

/-- R28, R15, R130, R168: the three invariants hold when reset is released, for every configuration, and so at State.reset. -/
def Obligations.InvariantsHoldAtReset : Prop :=
  (∀ (c : Configuration) (env : Env), (State.resetWith c env).Sane
    ∧ (SubmissionsAreFrames env.trace → (State.resetWith c env).FromLastCapture) ∧ (State.resetWith c env).DelayKept)
  ∧ State.reset.Sane ∧ State.reset.FromLastCapture ∧ State.reset.DelayKept

/-- R14, R15, R16, R18, R21, R126, R140: every step keeps a state sane: the buffers that hold a value, and their sizes, fit PHASE; PHASE is at
most 9; the handles follow RUN; in STOPPED none but RAW_LEN holds a value. That SAMP and TRI hold none once they have been read (log 9) and
RAW_LEN none after EXP (log 10) is DEDUCED, the model's. -/
def Obligations.EveryStepKeepsSanity : Prop :=
  ∀ s t : State, s.Sane → step s = .next t → t.Sane

/-- R15, R63, R126: a sane state never reads a buffer that holds no value or has the wrong size, never stands at a reserved code, and never
meets a stop that no rule gives the block: what is left is the three wait states of R152, STOPPED and reset. -/
def Obligations.SaneStatesNeverMisread : Prop :=
  ∀ s : State, s.Sane →
    ∀ f : Fault, step s = .fault f →
      f = .blockedInCapture ∨ f = .blockedInSubmit ∨ f = .blockedInDelay ∨ f = .stopped ∨ f = .heldInReset

/-- R128, R135: the six datapath operations never block and always complete, in every sane RUNNING state whose configuration is valid, with
no move of the environment to come or the turn given by the schedule; of the environment nothing changes but that the turn is taken. -/
def Obligations.DatapathAlwaysCompletes : Prop :=
  ∀ (s : State) (rest : List EnvMove), s.Sane → s.run = true → s.inReset = false → s.cfg.legal = true →
    (coefTables s.cfg).isSome = true → (s.env.schedule = [] ∧ rest = [] ∨ s.env.schedule = .runBlock :: rest) →
    2 ≤ s.phase.toNat → s.phase.toNat ≤ 7 →
    ∃ t, step s = .next t ∧ t.run = true ∧ t.phase = s.phase + 1 ∧ t.env = { s.env with schedule := rest }

/-- R130, R133, R29, R49: every step keeps it that each image handed to the display is FRAME of the snapshot captured before it in the same
tick, and that the buffers in between are a function of that snapshot and the configuration alone. That function has SAMP and TRI gone once
they have been read (log 9) and RAW_LEN gone after EXP (log 10): DEDUCED, the model's. -/
def Obligations.SubmittedImagesAreFramesOfTheirCaptures : Prop :=
  ∀ s t : State, s.FromLastCapture → step s = .next t → t.FromLastCapture

/-- R168, R125: every step keeps it that no capture comes earlier than DELAY_MS after the submission before it. -/
def Obligations.CaptureNeverComesBeforeTheDelay : Prop :=
  ∀ s t : State, s.DelayKept → step s = .next t → t.DelayKept

/-- R130: FRAME is total on snapshots of the right length, for every configuration whose tables meet R98, and its result has the
display's size. -/
def Obligations.FrameIsTotal : Prop :=
  ∀ (c : Configuration) (raw : List Byte), raw.length = c.bytes → (coefTables c).isSome = true →
    ∃ img, frame c raw = some img ∧ hasShape c.dh c.dw img = true

/-- R71, R49, R130, R133, R125: one TICK: from CHK with no stop pending, a snapshot of the right length and an accepting sink ready, nine
operations, DELAY_MS or more of time, and DLY submit FRAME of the snapshot and come back to CHK, with the port transactions in the
order StopSample, CaptureRead, DisplaySubmit, Now, Now. That DLY records one reading of the time, and the record itself, are the
model's choice (log 5, log 16). -/
def Obligations.OneTickSubmitsTheFrameOfItsSnapshot : Prop :=
  ∀ (s : State) (raw : List Byte) (caps : List CaptureAnswer) (disps : List DisplayAnswer) (ms : Nat) (rest : List EnvMove),
    s.inReset = false → s.run = true → s.phase = 0 → s.stopPend = false → s.cfg.legal = true →
    (coefTables s.cfg).isSome = true →
    s.env.schedule = List.replicate 9 .runBlock ++ .passTime ms :: .runBlock :: rest → s.cfg.delayMs.toNat ≤ ms →
    s.env.capAnswers = .bytes raw :: caps → raw.length = s.cfg.bytes → s.env.dispAnswers = .ok :: disps →
    ∃ (img : BitImage) (t : State), frame s.cfg raw = some img ∧ core.run 11 s = .next t
      ∧ t.phase = 0 ∧ t.run = true ∧ t.err = s.err ∧ t.cfg = s.cfg ∧ t.buf = Buffers.empty ∧ t.tEnd = s.env.now
      ∧ t.env.capAnswers = caps ∧ t.env.dispAnswers = disps ∧ t.env.schedule = rest ∧ t.env.now = s.env.now + ms
      ∧ t.env.trace = .now (s.env.now + ms) :: .now s.env.now :: .displaySubmit img .ok
          :: .captureRead s.cfg.bytes (.bytes raw) :: .stopSample false :: s.env.trace
end

