-- ==== Sys2Proof/Laws/State.lean ====
section
/-! SUPPORT. One lemma per field per update of the state, so that no proof unfolds a record update. -/

namespace Sys2Proof.Machine

@[simp] theorem State.setPhase_cfg (s : State) (c : BitVec 4) : (s.setPhase c).cfg = s.cfg := rfl
@[simp] theorem State.setPhase_phase (s : State) (c : BitVec 4) : (s.setPhase c).phase = c := rfl
@[simp] theorem State.setPhase_run (s : State) (c : BitVec 4) : (s.setPhase c).run = s.run := rfl
@[simp] theorem State.setPhase_err (s : State) (c : BitVec 4) : (s.setPhase c).err = s.err := rfl
@[simp] theorem State.setPhase_stopPend (s : State) (c : BitVec 4) : (s.setPhase c).stopPend = s.stopPend := rfl
@[simp] theorem State.setPhase_tEnd (s : State) (c : BitVec 4) : (s.setPhase c).tEnd = s.tEnd := rfl
@[simp] theorem State.setPhase_heldCap (s : State) (c : BitVec 4) : (s.setPhase c).heldCap = s.heldCap := rfl
@[simp] theorem State.setPhase_heldDisp (s : State) (c : BitVec 4) : (s.setPhase c).heldDisp = s.heldDisp := rfl
@[simp] theorem State.setPhase_buf (s : State) (c : BitVec 4) : (s.setPhase c).buf = s.buf := rfl
@[simp] theorem State.setPhase_inReset (s : State) (c : BitVec 4) : (s.setPhase c).inReset = s.inReset := rfl
@[simp] theorem State.setPhase_env (s : State) (c : BitVec 4) : (s.setPhase c).env = s.env := rfl

@[simp] theorem State.setBuf_cfg (s : State) (b : Buffers) : (s.setBuf b).cfg = s.cfg := rfl
@[simp] theorem State.setBuf_phase (s : State) (b : Buffers) : (s.setBuf b).phase = s.phase := rfl
@[simp] theorem State.setBuf_run (s : State) (b : Buffers) : (s.setBuf b).run = s.run := rfl
@[simp] theorem State.setBuf_err (s : State) (b : Buffers) : (s.setBuf b).err = s.err := rfl
@[simp] theorem State.setBuf_stopPend (s : State) (b : Buffers) : (s.setBuf b).stopPend = s.stopPend := rfl
@[simp] theorem State.setBuf_tEnd (s : State) (b : Buffers) : (s.setBuf b).tEnd = s.tEnd := rfl
@[simp] theorem State.setBuf_heldCap (s : State) (b : Buffers) : (s.setBuf b).heldCap = s.heldCap := rfl
@[simp] theorem State.setBuf_heldDisp (s : State) (b : Buffers) : (s.setBuf b).heldDisp = s.heldDisp := rfl
@[simp] theorem State.setBuf_buf (s : State) (b : Buffers) : (s.setBuf b).buf = b := rfl
@[simp] theorem State.setBuf_inReset (s : State) (b : Buffers) : (s.setBuf b).inReset = s.inReset := rfl
@[simp] theorem State.setBuf_env (s : State) (b : Buffers) : (s.setBuf b).env = s.env := rfl

@[simp] theorem State.logPort_cfg (s : State) (e : PortEvent) : (s.logPort e).cfg = s.cfg := rfl
@[simp] theorem State.logPort_phase (s : State) (e : PortEvent) : (s.logPort e).phase = s.phase := rfl
@[simp] theorem State.logPort_run (s : State) (e : PortEvent) : (s.logPort e).run = s.run := rfl
@[simp] theorem State.logPort_err (s : State) (e : PortEvent) : (s.logPort e).err = s.err := rfl
@[simp] theorem State.logPort_stopPend (s : State) (e : PortEvent) : (s.logPort e).stopPend = s.stopPend := rfl
@[simp] theorem State.logPort_tEnd (s : State) (e : PortEvent) : (s.logPort e).tEnd = s.tEnd := rfl
@[simp] theorem State.logPort_heldCap (s : State) (e : PortEvent) : (s.logPort e).heldCap = s.heldCap := rfl
@[simp] theorem State.logPort_heldDisp (s : State) (e : PortEvent) : (s.logPort e).heldDisp = s.heldDisp := rfl
@[simp] theorem State.logPort_buf (s : State) (e : PortEvent) : (s.logPort e).buf = s.buf := rfl
@[simp] theorem State.logPort_inReset (s : State) (e : PortEvent) : (s.logPort e).inReset = s.inReset := rfl
@[simp] theorem State.logPort_env (s : State) (e : PortEvent) : (s.logPort e).env = { s.env with trace := e :: s.env.trace } := rfl

@[simp] theorem State.useFree_cfg (s : State) : (s.useFree).cfg = s.cfg := rfl
@[simp] theorem State.useFree_phase (s : State) : (s.useFree).phase = s.phase := rfl
@[simp] theorem State.useFree_run (s : State) : (s.useFree).run = s.run := rfl
@[simp] theorem State.useFree_err (s : State) : (s.useFree).err = s.err := rfl
@[simp] theorem State.useFree_stopPend (s : State) : (s.useFree).stopPend = s.stopPend := rfl
@[simp] theorem State.useFree_tEnd (s : State) : (s.useFree).tEnd = s.tEnd := rfl
@[simp] theorem State.useFree_heldCap (s : State) : (s.useFree).heldCap = s.heldCap := rfl
@[simp] theorem State.useFree_heldDisp (s : State) : (s.useFree).heldDisp = s.heldDisp := rfl
@[simp] theorem State.useFree_buf (s : State) : (s.useFree).buf = s.buf := rfl
@[simp] theorem State.useFree_inReset (s : State) : (s.useFree).inReset = s.inReset := rfl
@[simp] theorem State.useFree_env (s : State) : (s.useFree).env = { s.env with free := s.env.free + 1 } := rfl

@[simp] theorem State.raiseError_cfg (s : State) (e : ErrorCode) : (s.raiseError e).cfg = s.cfg := rfl
@[simp] theorem State.raiseError_phase (s : State) (e : ErrorCode) : (s.raiseError e).phase = s.phase := rfl
@[simp] theorem State.raiseError_run (s : State) (e : ErrorCode) : (s.raiseError e).run = false := rfl
@[simp] theorem State.raiseError_err (s : State) (e : ErrorCode) : (s.raiseError e).err = e := rfl
@[simp] theorem State.raiseError_stopPend (s : State) (e : ErrorCode) : (s.raiseError e).stopPend = s.stopPend := rfl
@[simp] theorem State.raiseError_tEnd (s : State) (e : ErrorCode) : (s.raiseError e).tEnd = s.tEnd := rfl
@[simp] theorem State.raiseError_heldCap (s : State) (e : ErrorCode) : (s.raiseError e).heldCap = false := rfl
@[simp] theorem State.raiseError_heldDisp (s : State) (e : ErrorCode) : (s.raiseError e).heldDisp = false := rfl
@[simp] theorem State.raiseError_buf (s : State) (e : ErrorCode) : (s.raiseError e).buf = s.buf.afterError e := rfl
@[simp] theorem State.raiseError_inReset (s : State) (e : ErrorCode) : (s.raiseError e).inReset = s.inReset := rfl
@[simp] theorem State.raiseError_env (s : State) (e : ErrorCode) : (s.raiseError e).env = s.env := rfl

@[simp] theorem State.takeStop_cfg (s : State) : (s.takeStop).cfg = s.cfg := rfl
@[simp] theorem State.takeStop_phase (s : State) : (s.takeStop).phase = s.phase := rfl
@[simp] theorem State.takeStop_run (s : State) : (s.takeStop).run = false := rfl
@[simp] theorem State.takeStop_err (s : State) : (s.takeStop).err = s.err := rfl
@[simp] theorem State.takeStop_stopPend (s : State) : (s.takeStop).stopPend = s.stopPend := rfl
@[simp] theorem State.takeStop_tEnd (s : State) : (s.takeStop).tEnd = s.tEnd := rfl
@[simp] theorem State.takeStop_heldCap (s : State) : (s.takeStop).heldCap = false := rfl
@[simp] theorem State.takeStop_heldDisp (s : State) : (s.takeStop).heldDisp = false := rfl
@[simp] theorem State.takeStop_buf (s : State) : (s.takeStop).buf = s.buf := rfl
@[simp] theorem State.takeStop_inReset (s : State) : (s.takeStop).inReset = s.inReset := rfl
@[simp] theorem State.takeStop_env (s : State) : (s.takeStop).env = s.env := rfl

@[simp] theorem State.withSchedule_cfg (s : State) (m : List EnvMove) : (s.withSchedule m).cfg = s.cfg := rfl
@[simp] theorem State.withSchedule_phase (s : State) (m : List EnvMove) : (s.withSchedule m).phase = s.phase := rfl
@[simp] theorem State.withSchedule_run (s : State) (m : List EnvMove) : (s.withSchedule m).run = s.run := rfl
@[simp] theorem State.withSchedule_err (s : State) (m : List EnvMove) : (s.withSchedule m).err = s.err := rfl
@[simp] theorem State.withSchedule_stopPend (s : State) (m : List EnvMove) : (s.withSchedule m).stopPend = s.stopPend := rfl
@[simp] theorem State.withSchedule_tEnd (s : State) (m : List EnvMove) : (s.withSchedule m).tEnd = s.tEnd := rfl
@[simp] theorem State.withSchedule_heldCap (s : State) (m : List EnvMove) : (s.withSchedule m).heldCap = s.heldCap := rfl
@[simp] theorem State.withSchedule_heldDisp (s : State) (m : List EnvMove) : (s.withSchedule m).heldDisp = s.heldDisp := rfl
@[simp] theorem State.withSchedule_buf (s : State) (m : List EnvMove) : (s.withSchedule m).buf = s.buf := rfl
@[simp] theorem State.withSchedule_inReset (s : State) (m : List EnvMove) : (s.withSchedule m).inReset = s.inReset := rfl
@[simp] theorem State.withSchedule_env (s : State) (m : List EnvMove) : (s.withSchedule m).env = { s.env with schedule := m } := rfl

@[simp] theorem State.resetWith_cfg (c : Configuration) (e : Env) : (State.resetWith c e).cfg = c := rfl
@[simp] theorem State.resetWith_phase (c : Configuration) (e : Env) : (State.resetWith c e).phase = 0 := rfl
@[simp] theorem State.resetWith_run (c : Configuration) (e : Env) : (State.resetWith c e).run = true := rfl
@[simp] theorem State.resetWith_err (c : Configuration) (e : Env) : (State.resetWith c e).err = .noError := rfl
@[simp] theorem State.resetWith_stopPend (c : Configuration) (e : Env) : (State.resetWith c e).stopPend = false := rfl
@[simp] theorem State.resetWith_tEnd (c : Configuration) (e : Env) : (State.resetWith c e).tEnd = 0 := rfl
@[simp] theorem State.resetWith_heldCap (c : Configuration) (e : Env) : (State.resetWith c e).heldCap = true := rfl
@[simp] theorem State.resetWith_heldDisp (c : Configuration) (e : Env) : (State.resetWith c e).heldDisp = true := rfl
@[simp] theorem State.resetWith_buf (c : Configuration) (e : Env) : (State.resetWith c e).buf = Buffers.empty := rfl
@[simp] theorem State.resetWith_inReset (c : Configuration) (e : Env) : (State.resetWith c e).inReset = false := rfl
@[simp] theorem State.resetWith_env (c : Configuration) (e : Env) : (State.resetWith c e).env = { e with trace := .released c :: e.trace } := rfl

@[simp] theorem Buffers.afterError_captureSize (b : Buffers) :
    b.afterError .captureSize = { Buffers.empty with rawLen := b.rawLen } := rfl
@[simp] theorem Buffers.afterError_transport (b : Buffers) : b.afterError .transport = Buffers.empty := rfl
@[simp] theorem Buffers.afterError_noError (b : Buffers) : b.afterError .noError = Buffers.empty := rfl

/-- Error entry drops every buffer but RAW_LEN. -/
theorem Buffers.afterError_eq (b : Buffers) (e : ErrorCode) :
    b.afterError e = { Buffers.empty with rawLen := (b.afterError e).rawLen } := by
  cases e <;> rfl

end Sys2Proof.Machine
end

