-- ==== Sys2Proof/Laws/Ops.lean ====
section
/-! SUPPORT. What each shared operation can do, once: the checked read of a buffer, the port transactions, the saturation and
the recorded length. -/

namespace Sys2Proof.Machine

/-- A checked read answers the value exactly where the buffer holds one of the right size. -/
theorem readBuffer_eq_ok {α : Type} (name : BufferName) (ok : α → Bool) (b : Option α) (v : α) :
    readBuffer name ok b = .ok v ↔ b = some v ∧ ok v = true := by
  cases b with
  | none => simp [readBuffer]
  | some w =>
    by_cases h : ok w = true
    · simp only [readBuffer, h, if_true, Except.ok.injEq, Option.some.injEq]
      exact ⟨fun e => ⟨e, e ▸ h⟩, fun e => e.1⟩
    · simp only [readBuffer, h, if_false, Option.some.injEq, reduceCtorEq, false_iff, Bool.false_eq_true]
      rintro ⟨rfl, h'⟩
      exact h h'

/-- A stage operation that completes has read its buffer. -/
theorem withBuffer_next {α : Type} {read : Except Fault α} {k : α → Result} {t : State} (h : withBuffer read k = .next t) :
    ∃ v, read = .ok v ∧ k v = .next t := by
  cases read with
  | ok v => exact ⟨v, rfl, h⟩
  | error f => cases h

@[simp] theorem withBuffer_ok {α : Type} (v : α) (k : α → Result) : withBuffer (.ok v) k = k v := rfl
@[simp] theorem withBuffer_error {α : Type} (f : Fault) (k : α → Result) : withBuffer (.error f) k = .fault f := rfl

/-- A stage operation that stops on a fault has failed to read its buffer, or has read it and stopped after. -/
theorem withBuffer_fault {α : Type} {read : Except Fault α} {k : α → Result} {f : Fault} (h : withBuffer read k = .fault f) :
    read = .error f ∨ ∃ v, read = .ok v ∧ k v = .fault f := by
  cases read with
  | ok v => exact .inr ⟨v, rfl, h⟩
  | error g => cases h; exact .inl rfl

/-- `CaptureRead` takes the first answer that is ready and is recorded; the block itself is as before. -/
theorem captureRead_eq_some {s t : State} {n : Nat} {a : CaptureAnswer} (h : s.captureRead n = some (a, t)) :
    ∃ rest, s.env.capAnswers = a :: rest
      ∧ t = { s with env := { s.env with capAnswers := rest, trace := .captureRead n a :: s.env.trace } } := by
  unfold State.captureRead at h
  split at h
  · cases h
  · next a' rest e => cases h; exact ⟨rest, e, rfl⟩

/-- `DisplaySubmit` takes the first answer that is ready and is recorded; the block itself is as before. -/
theorem displaySubmit_eq_some {s t : State} {img : BitImage} {a : DisplayAnswer} (h : s.displaySubmit img = some (a, t)) :
    ∃ rest, s.env.dispAnswers = a :: rest
      ∧ t = { s with env := { s.env with dispAnswers := rest, trace := .displaySubmit img a :: s.env.trace } } := by
  unfold State.displaySubmit at h
  split at h
  · cases h
  · next a' rest e => cases h; exact ⟨rest, e, rfl⟩

/-- Saturation as a minimum and a maximum. -/
theorem clamp8_toNat (v : Int) : ((clamp8 v).toNat : Int) = max 0 (min 255 v) := by
  unfold clamp8
  split
  · simp; omega
  · split
    · simp; omega
    · rw [BitVec.toNat_ofNat]; omega

/-- Saturation does nothing to a value in range. -/
theorem clamp8_of_byte (b : Byte) : clamp8 (b.toNat : Int) = b := by
  have h := b.isLt
  apply BitVec.eq_of_toNat_eq
  have := clamp8_toNat (b.toNat : Int)
  omega

/-- RAW_LEN records a length up to 2^34 - 1. -/
theorem recordedLength_toNat (n : Nat) : (recordedLength n).toNat = min n (2 ^ 34 - 1) := by
  unfold recordedLength
  rw [BitVec.toNat_ofNat]
  omega

/-- No legal snapshot length reaches the value that stands for a longer answer (R14). -/
theorem bytes_lt (c : Configuration) : c.bytes < 2 ^ 34 - 1 := by
  have hw : c.srcW.toNat ≤ 65535 := by have := c.srcW.isLt; omega
  have hh : c.srcH.toNat ≤ 65535 := by have := c.srcH.isLt; omega
  have h : c.srcW.toNat * c.srcH.toNat ≤ 65535 * 65535 := Nat.mul_le_mul hw hh
  show 2 * (c.srcW.toNat * c.srcH.toNat) < 2 ^ 34 - 1
  omega

/-- The recorded length equals N exactly where the length does. -/
theorem recordedLength_eq_bytes (c : Configuration) (n : Nat) : (recordedLength n).toNat = c.bytes ↔ n = c.bytes := by
  have := bytes_lt c
  rw [recordedLength_toNat]
  omega

/-- A grid of the shape asked for, row by row. -/
theorem hasShape_iff {α : Type} (h w : Nat) (grid : List (List α)) :
    hasShape h w grid = true ↔ grid.length = h ∧ ∀ row ∈ grid, row.length = w := by
  simp [hasShape]

end Sys2Proof.Machine
end

