-- ==== Sys2Proof/Laws/Datapath.lean ====
section
/-! SUPPORT. The sizes of what the stages work out, and where each element comes from. -/

namespace Sys2Proof.Machine

theorem normalise_length : ∀ bytes : List Byte, (normalise bytes).length = bytes.length / 2
  | [] => rfl
  | [_] => by simp [normalise]
  | _ :: _ :: rest => by
    simp only [normalise, List.length_cons, normalise_length rest]
    omega

/-- Sample i of the normaliser is made of bytes 2i and 2i + 1. -/
theorem normalise_getElem? : ∀ (bytes : List Byte) (i : Nat) (b0 b1 : Byte),
    bytes[2 * i]? = some b0 → bytes[2 * i + 1]? = some b1 → (normalise bytes)[i]? = some (bswap16 (rd16le b0 b1))
  | [], _, _, _, h, _ => by simp at h
  | [_], i, _, _, h0, h1 => by simp at h1
  | c0 :: c1 :: rest, 0, b0, b1, h0, h1 => by
    simp at h0 h1
    simp [normalise, h0, h1]
  | c0 :: c1 :: rest, i + 1, b0, b1, h0, h1 => by
    have e0 : 2 * (i + 1) = 2 * i + 1 + 1 := by omega
    rw [e0] at h0 h1
    simp only [List.getElem?_cons_succ] at h0 h1
    simpa [normalise] using normalise_getElem? rest i b0 b1 h0 h1

@[simp] theorem expandAll_length (samples : List Sample) : (expandAll samples).length = samples.length := by
  simp [expandAll]

/-- The grid of the assembler has h rows of w where there are enough triples. -/
theorem assemble_hasShape (w h : Nat) (triples : List Triple) (hl : triples.length = w * h) :
    hasShape h w (assemble w h triples) = true := by
  rw [hasShape_iff]
  refine ⟨by simp [assemble], ?_⟩
  intro row hr
  simp only [assemble, List.mem_map, List.mem_range] at hr
  obtain ⟨y, hy, rfl⟩ := hr
  have : (y + 1) * w ≤ h * w := Nat.mul_le_mul_right w hy
  simp only [List.length_take, List.length_drop, hl]
  rw [Nat.add_mul, Nat.one_mul] at this
  rw [Nat.mul_comm w h]
  omega

/-- Column x of row y of the assembler's grid is triple y*w + x. -/
theorem assemble_pixel (w h : Nat) (triples : List Triple) (y x : Nat) (hy : y < h) (hx : x < w) :
    pixel (assemble w h triples) y x = triples[y * w + x]? := by
  simp [pixel, assemble, hy, hx]

theorem axisTable_length {p nIn nOut : Nat} {rows : List CoefRow} (h : axisTable p nIn nOut = some rows) :
    rows.length = nOut := by
  simp only [axisTable] at h
  split at h
  · cases h; simp
  · cases h

/-- A table that exists holds the row of each output position, and each row meets R98. -/
theorem axisTable_getElem? {p nIn nOut : Nat} {rows : List CoefRow} (h : axisTable p nIn nOut = some rows)
    {o : Nat} {row : CoefRow} (hr : rows[o]? = some row) :
    o < nOut ∧ row = coefRow p nIn nOut o ∧ rowMeetsObligations nIn nOut o row = true := by
  simp only [axisTable] at h
  split at h
  · next hall =>
    cases h
    simp only [List.getElem?_map, Option.map_eq_some_iff, List.getElem?_eq_some_iff] at hr
    obtain ⟨k, ⟨hk, rfl⟩, rfl⟩ := hr
    simp only [List.length_range] at hk
    simp only [List.getElem_range]
    exact ⟨hk, trivial, by simpa using (List.all_eq_true.mp hall) _ (List.mem_range.mpr hk)⟩
  · cases h

/-- The two tables of a configuration are its two axes. -/
theorem coefTables_eq_some {c : Configuration} {hor ver : List CoefRow} (h : coefTables c = some (hor, ver)) :
    axisTable c.coefP c.w c.dw = some hor ∧ axisTable c.coefP c.h c.dh = some ver := by
  simp only [coefTables] at h
  split at h
  · next h1 h2 => cases h; exact ⟨h1, h2⟩
  · cases h

/-- The resampler's output has one row for each vertical position and `dw` columns. -/
theorem resample_hasShape (p dw dh : Nat) (hor ver : List CoefRow) (full : Image) (hv : ver.length = dh) :
    hasShape dh dw (resample p dw hor ver full) = true := by
  rw [hasShape_iff]
  refine ⟨by simp [resample, verticalPass, hv], ?_⟩
  intro row hr
  simp only [resample, verticalPass, List.mem_map] at hr
  obtain ⟨_, _, rfl⟩ := hr
  simp

theorem sharpenImage_hasShape (f dh dw h w : Nat) (img : Image) (hs : hasShape h w img = true) :
    hasShape h w (sharpenImage f dh dw img) = true := by
  rw [hasShape_iff] at hs ⊢
  refine ⟨by simp [sharpenImage, hs.1], ?_⟩
  intro row hr
  simp only [sharpenImage, List.mem_mapIdx] at hr
  obtain ⟨y, hy, rfl⟩ := hr
  simp [hs.2]

/-- A row of the scan has one pixel for each luminance. -/
theorem ditherRow_length (thresh dw : Nat) (below : Bool) : ∀ (row : List Byte) (x : Nat) (cur nxt : AccRow),
    (ditherRow thresh dw below x row cur nxt).1.length = row.length
  | [], _, _, _ => rfl
  | _ :: rest, _, _, _ => by simp [ditherRow, ditherRow_length thresh dw below rest]

/-- The scan has the shape of the luminance image. -/
theorem ditherRows_lengths (thresh dw : Nat) : ∀ (rows : List (List Byte)) (cur : AccRow),
    (ditherRows thresh dw rows cur).map List.length = rows.map List.length
  | [], _ => rfl
  | _ :: rest, _ => by simp [ditherRows, ditherRow_length, ditherRows_lengths thresh dw rest]

theorem ditherScan_hasShape (thresh dw dh : Nat) (lums : List (List Byte)) (hs : hasShape dh dw lums = true) :
    hasShape dh dw (ditherScan thresh dw lums) = true := by
  have hl := ditherRows_lengths thresh dw lums (zeroRow dw)
  rw [hasShape_iff] at hs ⊢
  refine ⟨by simpa [hs.1, ditherScan] using congrArg List.length hl, ?_⟩
  intro row hr
  have : row.length ∈ (ditherRows thresh dw lums (zeroRow dw)).map List.length := List.mem_map_of_mem hr
  rw [hl, List.mem_map] at this
  obtain ⟨r, hr', e⟩ := this
  rw [← e]
  exact hs.2 r hr'

theorem lumaImage_hasShape (l : Luma) (dh dw : Nat) (img : Image) (hs : hasShape dh dw img = true) :
    hasShape dh dw (lumaImage l img) = true := by
  rw [hasShape_iff] at hs ⊢
  refine ⟨by simp [lumaImage, hs.1], ?_⟩
  intro row hr
  simp only [lumaImage, List.mem_map] at hr
  obtain ⟨r, hr', rfl⟩ := hr
  simp [hs.2 r hr']

theorem ditherImage_hasShape (l : Luma) (thresh dh dw : Nat) (img : Image) (hs : hasShape dh dw img = true) :
    hasShape dh dw (ditherImage l thresh dw img) = true := by
  have h := ditherScan_hasShape thresh dw dh _ (lumaImage_hasShape l dh dw img hs)
  rw [hasShape_iff] at h ⊢
  refine ⟨by simp [ditherImage, h.1], ?_⟩
  intro row hr
  simp only [ditherImage, List.mem_map] at hr
  obtain ⟨r, hr', rfl⟩ := hr
  simp [h.2 r hr']

end Sys2Proof.Machine
end

