-- ==== Sys2Proof/Laws/Exec.lean ====
section
/-! SUPPORT. Inversion of every meaning and of the step: if it answers a next state, this is the state. -/

namespace Sys2Proof.Machine

theorem execChk_next {s t : State} (h : execChk s = .next t) :
    (s.stopPend = true ∧ t = (s.logPort (.stopSample s.stopPend)).takeStop)
    ∨ (s.stopPend = false ∧ t = (s.logPort (.stopSample s.stopPend)).setPhase 1) := by
  cases hp : s.stopPend with
  | true =>
    simp only [execChk, State.sampleStop, hp, if_true] at h
    cases h
    exact .inl ⟨rfl, rfl⟩
  | false =>
    simp only [execChk, State.sampleStop, hp, Bool.false_eq_true, if_false] at h
    cases h
    exact .inr ⟨rfl, rfl⟩

theorem execCap_next {s t : State} (h : execCap s = .next t) :
    ∃ a rest, s.env.capAnswers = a :: rest
      ∧ t = ({ s with
          buf := Buffers.empty
          env := { s.env with capAnswers := rest, trace := .captureRead s.cfg.bytes a :: s.env.trace } } : State).takeSnapshot a := by
  simp only [execCap] at h
  split at h
  · cases h
  · next a u hc =>
    cases h
    obtain ⟨rest, e, rfl⟩ := captureRead_eq_some hc
    exact ⟨a, rest, e, rfl⟩

/-- The three things CAP can do with an answer. -/
theorem takeSnapshot_cases (s : State) (a : CaptureAnswer) :
    (a = .fail ∧ s.takeSnapshot a = s.raiseError .transport)
    ∨ (∃ raw, a = .bytes raw ∧ raw.length ≠ s.cfg.bytes ∧ s.takeSnapshot a
        = (s.setBuf { s.buf with rawLen := some (recordedLength raw.length) }).raiseError .captureSize)
    ∨ (∃ raw, a = .bytes raw ∧ raw.length = s.cfg.bytes ∧ s.takeSnapshot a
        = (s.setBuf { s.buf with rawLen := some (recordedLength raw.length), raw := some raw }).setPhase 2) := by
  cases a with
  | fail => exact .inl ⟨rfl, rfl⟩
  | bytes raw =>
    by_cases hl : raw.length = s.cfg.bytes
    · exact .inr (.inr ⟨raw, rfl, hl, by
        simp only [State.takeSnapshot, (recordedLength_eq_bytes s.cfg raw.length).mpr hl, ne_eq, not_true_eq_false, if_false]
        rfl⟩)
    · have hn : (recordedLength raw.length).toNat ≠ s.cfg.bytes := fun e => hl ((recordedLength_eq_bytes _ _).mp e)
      exact .inr (.inl ⟨raw, rfl, hl, by simp only [State.takeSnapshot, ne_eq, hn, not_false_eq_true, if_true]⟩)

theorem execNrm_next {s t : State} (h : execNrm s = .next t) :
    ∃ raw, s.buf.raw = some raw ∧ raw.length = s.cfg.bytes
      ∧ t = (s.setBuf { s.buf with samp := some (normalise raw) }).setPhase 3 := by
  obtain ⟨raw, hr, hk⟩ := withBuffer_next h
  rw [State.readRaw, readBuffer_eq_ok] at hr
  cases hk
  exact ⟨raw, hr.1, by simpa using hr.2, rfl⟩

theorem execExp_next {s t : State} (h : execExp s = .next t) :
    ∃ samp, s.buf.samp = some samp ∧ samp.length = s.cfg.samples
      ∧ t = (s.setBuf { s.buf with tri := some (expandAll samp), raw := none, rawLen := none, samp := none }).setPhase 4 := by
  obtain ⟨samp, hr, hk⟩ := withBuffer_next h
  rw [State.readSamp, readBuffer_eq_ok] at hr
  cases hk
  exact ⟨samp, hr.1, by simpa using hr.2, rfl⟩

theorem execAsm_next {s t : State} (h : execAsm s = .next t) :
    ∃ tri, s.buf.tri = some tri
      ∧ ((tri.length ≠ s.cfg.samples ∧ t = s.raiseError .captureSize)
        ∨ (tri.length = s.cfg.samples
          ∧ t = (s.setBuf { s.buf with full := some (assemble s.cfg.w s.cfg.h tri), tri := none }).setPhase 5)) := by
  obtain ⟨tri, hr, hk⟩ := withBuffer_next h
  rw [State.readTri, readBuffer_eq_ok] at hr
  refine ⟨tri, hr.1, ?_⟩
  split at hk
  · next hl => cases hk; exact .inl ⟨hl, rfl⟩
  · next hl => cases hk; exact .inr ⟨by simpa using hl, rfl⟩

theorem execRsz_next {s t : State} (h : execRsz s = .next t) :
    ∃ full hor ver, s.buf.full = some full ∧ hasShape s.cfg.h s.cfg.w full = true ∧ s.cfg.kernel = 0
      ∧ coefTables s.cfg = some (hor, ver)
      ∧ t = (s.setBuf { s.buf with
          rsz := some (resample s.cfg.coefP s.cfg.dw hor ver full), full := none, tmp := none }).setPhase 6 := by
  obtain ⟨full, hr, hk⟩ := withBuffer_next h
  rw [State.readFull, readBuffer_eq_ok] at hr
  split at hk
  · cases hk
  · next hkern =>
    split at hk
    · cases hk
    · next hor ver ht => cases hk; exact ⟨full, hor, ver, hr.1, hr.2, by simpa using hkern, ht, rfl⟩

theorem execShp_next {s t : State} (h : execShp s = .next t) :
    ∃ img, s.buf.rsz = some img ∧ hasShape s.cfg.dh s.cfg.dw img = true
      ∧ t = (s.setBuf { s.buf with
          enh := some (sharpenImage s.cfg.sharpF.toNat s.cfg.dh s.cfg.dw img), rsz := none }).setPhase 7 := by
  obtain ⟨img, hr, hk⟩ := withBuffer_next h
  rw [State.readRsz, readBuffer_eq_ok] at hr
  cases hk
  exact ⟨img, hr.1, hr.2, rfl⟩

theorem execDth_next {s t : State} (h : execDth s = .next t) :
    ∃ img, s.buf.enh = some img ∧ hasShape s.cfg.dh s.cfg.dw img = true ∧ s.cfg.ditherAlg = 0
      ∧ t = (s.setBuf { s.buf with
          bit := some (ditherImage s.cfg.luma s.cfg.thresh.toNat s.cfg.dw img), enh := none, eacc := none }).setPhase 8 := by
  obtain ⟨img, hr, hk⟩ := withBuffer_next h
  rw [State.readEnh, readBuffer_eq_ok] at hr
  split at hk
  · cases hk
  · next ha => cases hk; exact ⟨img, hr.1, hr.2, by simpa using ha, rfl⟩

theorem execSub_next {s t : State} (h : execSub s = .next t) :
    ∃ img a rest, s.buf.bit = some img ∧ hasShape s.cfg.dh s.cfg.dw img = true ∧ s.env.dispAnswers = a :: rest
      ∧ t = ({ s with
          env := { s.env with dispAnswers := rest, trace := .displaySubmit img a :: s.env.trace } } : State).finishSubmit a := by
  obtain ⟨img, hr, hk⟩ := withBuffer_next h
  rw [State.readBit, readBuffer_eq_ok] at hr
  split at hk
  · cases hk
  · next a u hd =>
    cases hk
    obtain ⟨rest, e, rfl⟩ := displaySubmit_eq_some hd
    exact ⟨img, a, rest, hr.1, hr.2, e, rfl⟩

theorem execDly_next {s t : State} (h : execDly s = .next t) :
    t = { s with phase := 0, env := { s.env with trace := .now s.env.now :: s.env.trace } }
      ∧ s.tEnd + s.cfg.delayMs.toNat ≤ s.env.now := by
  unfold execDly at h
  split at h
  · next hd => cases h; exact ⟨rfl, hd⟩
  · cases h

theorem execStatus_next {d c : Bool} {p : BitVec 4} {e : BitVec 2} {k r : Bool} {s t : State}
    (h : execStatus d c p e k r s = .next t) :
    ∃ used, t = { s with env := { s.env with free := used, trace := .statusRead s.statusRead :: s.env.trace } }
      ∧ (s.inReset = false → used = s.env.free) := by
  simp only [execStatus] at h
  split at h
  · cases h
    by_cases hr : s.inReset = true
    · exact ⟨s.env.free + 1, by rw [if_pos hr]; rfl, fun h => by simp [hr] at h⟩
    · exact ⟨s.env.free, by rw [if_neg hr]; rfl, fun _ => rfl⟩
  · cases h

/-- The block's turn executes the operation that PHASE selects, in a block that is out of reset, legal and RUNNING. -/
theorem fetchBlock_execute {u v : State} {i : Instr} (h : fetchBlock u = .execute i v) :
    v = u ∧ i = decode (.phase4 u.phase) ∧ u.inReset = false ∧ u.cfg.legal = true ∧ u.run = true := by
  cases h1 : u.inReset <;> cases h2 : u.cfg.legal <;> cases h3 : u.run <;> simp [fetchBlock, h1, h2, h3] at h
  exact ⟨h.2.symm, h.1.symm, rfl, rfl, rfl⟩

/-- Where the block's turn executes nothing there is no next state. -/
theorem fetchBlock_settled {u t : State} : fetchBlock u ≠ .settled (.next t) := by
  cases h1 : u.inReset <;> cases h2 : u.cfg.legal <;> cases h3 : u.run <;> simp [fetchBlock, h1, h2, h3]

/-- A step is the execution of what is fetched, or what the environment's move has settled. -/
theorem step_next_fetch {s t : State} (h : step s = .next t) :
    (∃ i u, fetch s = .execute i u ∧ exec i u = .next t) ∨ fetch s = .settled (.next t) := by
  unfold step at h
  split at h
  · next i u e => exact .inl ⟨i, u, e, h⟩
  · next r e => exact .inr (h ▸ e)

/-- A step that answers is the block's operation, a read of STATUS, or a move of the environment; the schedule it is taken in is
what is left of the environment's moves. -/
theorem step_next {s t : State} (h : step s = .next t) :
    ∃ moves,
      ((s.inReset = false ∧ s.cfg.legal = true ∧ s.run = true
          ∧ exec (decode (.phase4 s.phase)) (s.withSchedule moves) = .next t)
        ∨ exec (decode (.view10 s.statusView)) (s.withSchedule moves) = .next t
        ∨ ∃ m, s.env.schedule = m :: moves ∧ applyMove (s.withSchedule moves) m = .settled (.next t)) := by
  have block : ∀ u : State, (∃ i v, fetchBlock u = .execute i v ∧ exec i v = .next t) ∨ fetchBlock u = .settled (.next t) →
      u.inReset = false ∧ u.cfg.legal = true ∧ u.run = true ∧ exec (decode (.phase4 u.phase)) u = .next t := by
    rintro u (⟨i, v, e, hx⟩ | e)
    · obtain ⟨rfl, rfl, h1, h2, h3⟩ := fetchBlock_execute e
      exact ⟨h1, h2, h3, hx⟩
    · exact absurd e fetchBlock_settled
  have hf := step_next_fetch h
  cases hs : s.env.schedule with
  | nil =>
    have e : s.withSchedule [] = s := by rw [← hs]; rfl
    simp only [fetch, hs] at hf
    exact ⟨[], .inl (e.symm ▸ block s hf)⟩
  | cons m rest =>
    simp only [fetch, hs] at hf
    refine ⟨rest, ?_⟩
    by_cases hm : m = .runBlock
    · subst hm
      exact .inl (block (s.withSchedule rest) hf)
    · by_cases hr : m = .readStatus
      · subst hr
        rcases hf with ⟨i, v, e, hx⟩ | e
        · cases e
          exact .inr (.inl hx)
        · cases e
      · refine .inr (.inr ⟨m, rfl, ?_⟩)
        rcases hf with ⟨i, v, e, _⟩ | e
        · cases m <;> first | exact absurd rfl hm | exact absurd rfl hr | cases e
        · exact e

/-- A run whose first step answers goes on from there. -/
theorem run_succ_of_step (m : Host.Core) {s t : m.State} (k : Nat) (h : m.step s = .next t) : m.run (k + 1) s = m.run k t := by
  rw [Host.Core.run, h]

/-- The state after the release of reset, where it answers. -/
theorem releaseReset_next {s t : State} {c : Configuration} (h : s.releaseReset c = .next t) :
    (s.inReset = true ∧ c.legal = true ∧ (coefTables c).isSome = true ∧ t = State.resetWith c s.env)
    ∨ (s.inReset = false ∧ t = s) := by
  unfold State.releaseReset at h
  split at h
  · next hr =>
    split at h
    · next hok =>
      cases h
      unfold releasable at hok
      split at hok
      · next hl =>
        split at hok
        · next ht => exact .inl ⟨hr, hl, by simp [ht], rfl⟩
        · cases hok
      · cases hok
    · cases h
  · next hr => cases h; exact .inr ⟨by simpa using hr, rfl⟩

/-- What each move of the environment leaves, where it answers a next state. -/
theorem applyMove_next {s t : State} {m : EnvMove} (h : applyMove s m = .settled (.next t)) :
    (∃ a, m = .answerCapture a ∧ t = { s with env := { s.env with capAnswers := s.env.capAnswers ++ [a] } })
    ∨ (∃ a, m = .answerDisplay a ∧ t = { s with env := { s.env with dispAnswers := s.env.dispAnswers ++ [a] } })
    ∨ (m = .deliverStop ∧ t = { s with stopPend := s.stopPend || !s.inReset })
    ∨ (∃ ms, m = .passTime ms ∧ t = { s with env := { s.env with now := s.env.now + ms } })
    ∨ (m = .assertReset ∧ t = { s with inReset := true })
    ∨ (∃ c, m = .releaseReset c ∧ s.inReset = true ∧ c.legal = true ∧ (coefTables c).isSome = true
        ∧ t = State.resetWith c s.env)
    ∨ (∃ c, m = .releaseReset c ∧ s.inReset = false ∧ t = s) := by
  cases m with
  | runBlock => exact absurd h fetchBlock_settled
  | answerCapture a => cases h; exact .inl ⟨a, rfl, rfl⟩
  | answerDisplay a => cases h; exact .inr (.inl ⟨a, rfl, rfl⟩)
  | deliverStop =>
    cases h
    refine .inr (.inr (.inl ⟨rfl, ?_⟩))
    rcases s with ⟨_, _, _, _, stop, _, _, _, _, reset, _⟩
    cases stop <;> cases reset <;> rfl
  | passTime ms => cases h; exact .inr (.inr (.inr (.inl ⟨ms, rfl, rfl⟩)))
  | assertReset => cases h; exact .inr (.inr (.inr (.inr (.inl ⟨rfl, rfl⟩))))
  | releaseReset c =>
    injection h with h
    rcases releaseReset_next h with ⟨hr, hl, ht, e⟩ | ⟨hr, e⟩
    · exact .inr (.inr (.inr (.inr (.inr (.inl ⟨c, rfl, hr, hl, ht, e⟩)))))
    · exact .inr (.inr (.inr (.inr (.inr (.inr ⟨c, rfl, hr, e⟩)))))
  | readStatus => cases h

/-- A value of PHASE with which the block has a next state, and the meaning that gave it. -/
theorem exec_phase_next {p : BitVec 4} {s t : State} (h : exec (decode (.phase4 p)) s = .next t) :
    (p = 0 ∧ execChk s = .next t) ∨ (p = 1 ∧ execCap s = .next t) ∨ (p = 2 ∧ execNrm s = .next t)
    ∨ (p = 3 ∧ execExp s = .next t) ∨ (p = 4 ∧ execAsm s = .next t) ∨ (p = 5 ∧ execRsz s = .next t)
    ∨ (p = 6 ∧ execShp s = .next t) ∨ (p = 7 ∧ execDth s = .next t) ∨ (p = 8 ∧ execSub s = .next t)
    ∨ (p = 9 ∧ execDly s = .next t) := by
  have hp : p = 0 ∨ p = 1 ∨ p = 2 ∨ p = 3 ∨ p = 4 ∨ p = 5 ∨ p = 6 ∨ p = 7 ∨ p = 8 ∨ p = 9 ∨ p = 10 ∨ p = 11 ∨ p = 12
      ∨ p = 13 ∨ p = 14 ∨ p = 15 := by
    clear h; revert p; decide
  rcases hp with rfl | rfl | rfl | rfl | rfl | rfl | rfl | rfl | rfl | rfl | rfl | rfl | rfl | rfl | rfl | rfl
  all_goals first | (cases h; done) | (simp; exact h)

end Sys2Proof.Machine
end

