-- ==== Sys2Proof/Laws/Fairness.lean ====
section
/-! SUPPORT. The small lemmas of an environment that moves without end. -/

namespace Sys2Proof.Machine

@[simp] theorem State.after_zero (s : State) (e : Environment) : s.after e 0 = s := rfl
@[simp] theorem State.after_succ (s : State) (e : Environment) (n : Nat) : s.after e (n + 1) = (s.after e n).attempt (e n) := rfl
@[simp] theorem timePassed_zero (e : Environment) : timePassed e 0 = 0 := rfl
@[simp] theorem timePassed_succ (e : Environment) (n : Nat) : timePassed e (n + 1) = timePassed e n + (e n).time := rfl

/-- The time that has passed only grows. -/
theorem timePassed_mono (e : Environment) {a b : Nat} (h : a ≤ b) : timePassed e a ≤ timePassed e b := by
  induction h with
  | refl => exact le_refl _
  | step _ ih => exact ih.trans (Nat.le_add_right _ _)

/-- A move after which there is a next state leads to it. -/
theorem State.attempt_of_next {s t : State} {m : EnvMove} (h : step (s.withSchedule [m]) = .next t) : s.attempt m = t := by
  rw [State.attempt, h]

/-- A move after which there is none leaves the state as it is. -/
theorem State.attempt_of_no_next {s : State} {m : EnvMove} (h : ∀ t, step (s.withSchedule [m]) ≠ .next t) : s.attempt m = s := by
  unfold State.attempt
  split
  · next t e => exact absurd e (h t)
  · rfl
  · rfl

end Sys2Proof.Machine
end

