-- ==== Sys2Proof/Laws/Kernel.lean ====
section
/-! SUPPORT. What the real-number machinery of the coefficient tables says: outward division, the enclosure of pi, and the exact test for a
half, by sums of roots of unity. -/

namespace Sys2Proof.Machine

open scoped BigOperators

/-- Floor division lies below the quotient. -/
theorem floorDiv_le (a : Int) {b : Nat} (hb : 0 < b) : ((floorDiv a b : Int) : ℝ) ≤ (a : ℝ) / b := by
  rw [le_div_iff₀ (by exact_mod_cast hb)]
  exact_mod_cast Int.ediv_mul_le a (by exact_mod_cast hb.ne')

/-- Ceiling division lies above the quotient. -/
theorem le_ceilDiv (a : Int) {b : Nat} (hb : 0 < b) : (a : ℝ) / b ≤ ((ceilDiv a b : Int) : ℝ) := by
  have h := floorDiv_le (-a) hb
  rw [Int.cast_neg, neg_div] at h
  have e : ((ceilDiv a b : Int) : ℝ) = -((floorDiv (-a) b : Int) : ℝ) := by rw [ceilDiv, floorDiv, Int.cast_neg]
  linarith

/-- The sum of the first `n` values of `f`, as a list and as a finite sum over the reals. -/
theorem cast_sum_range (f : Nat → Int) (n : Nat) :
    ((((List.range n).map f).sum : Int) : ℝ) = ∑ k ∈ Finset.range n, (f k : ℝ) := by
  induction n with
  | zero => simp
  | succ n ih => rw [List.range_succ, List.map_append, List.sum_append, Finset.sum_range_succ, ← ih]; simp

/-- The term of the series of arctan(1/q) without its sign. -/
noncomputable def arctanTerm (q k : Nat) : ℝ := 1 / ((2 * k + 1) * (q : ℝ) ^ (2 * k + 1))

theorem arctanTerm_antitone {q : Nat} (hq : 1 ≤ q) : Antitone (arctanTerm q) := by
  apply antitone_nat_of_succ_le
  intro k
  have h1 : (1 : ℝ) ≤ q := by exact_mod_cast hq
  unfold arctanTerm
  gcongr <;> simp

/-- The partial sums of the series tend to arctan(1/q). -/
theorem tendsto_arctan {q : Nat} (hq : 2 ≤ q) :
    Filter.Tendsto (fun n => ∑ k ∈ Finset.range n, (-1) ^ k * arctanTerm q k) Filter.atTop
      (nhds (Real.arctan (q : ℝ)⁻¹)) := by
  have h2 : (2 : ℝ) ≤ q := by exact_mod_cast hq
  have hx : ‖(q : ℝ)⁻¹‖ < 1 := by
    rw [norm_inv, Real.norm_natCast]
    exact inv_lt_one_of_one_lt₀ (by linarith)
  have h := (Real.hasSum_arctan hx).tendsto_sum_nat
  refine h.congr fun n => Finset.sum_congr rfl fun k _ => ?_
  have : (q : ℝ) ≠ 0 := by linarith
  rw [arctanTerm, inv_pow]
  push_cast
  field_simp

/-- A sign-alternating term over `u`, rounded down. -/
theorem arctanBelow_le (u q n : Nat) (hq : 0 < q) :
    (arctanBelow u q n : ℝ) ≤ u * ∑ k ∈ Finset.range n, (-1) ^ k * arctanTerm q k := by
  rw [arctanBelow, cast_sum_range, Finset.mul_sum]
  refine Finset.sum_le_sum fun k _ => ?_
  have hd : 0 < (2 * k + 1) * q ^ (2 * k + 1) := by positivity
  have e : (u : ℝ) * arctanTerm q k = ((u : Int) : ℝ) / ((2 * k + 1) * q ^ (2 * k + 1) : Nat) := by
    rw [arctanTerm]; push_cast; ring
  rcases Nat.mod_two_eq_zero_or_one k with h | h
  · rw [if_pos h, (Nat.even_iff.mpr h).neg_one_pow, one_mul, e]
    exact floorDiv_le _ hd
  · rw [if_neg (by omega), (Nat.odd_iff.mpr h).neg_one_pow, neg_one_mul, mul_neg, e, Int.cast_neg]
    exact neg_le_neg (le_ceilDiv _ hd)

/-- A sign-alternating term over `u`, rounded up. -/
theorem le_arctanAbove (u q n : Nat) (hq : 0 < q) :
    u * ∑ k ∈ Finset.range n, (-1) ^ k * arctanTerm q k ≤ (arctanAbove u q n : ℝ) := by
  rw [arctanAbove, cast_sum_range, Finset.mul_sum]
  refine Finset.sum_le_sum fun k _ => ?_
  have hd : 0 < (2 * k + 1) * q ^ (2 * k + 1) := by positivity
  have e : (u : ℝ) * arctanTerm q k = ((u : Int) : ℝ) / ((2 * k + 1) * q ^ (2 * k + 1) : Nat) := by
    rw [arctanTerm]; push_cast; ring
  rcases Nat.mod_two_eq_zero_or_one k with h | h
  · rw [if_pos h, (Nat.even_iff.mpr h).neg_one_pow, one_mul, e]
    exact le_ceilDiv _ hd
  · rw [if_neg (by omega), (Nat.odd_iff.mpr h).neg_one_pow, neg_one_mul, mul_neg, e, Int.cast_neg]
    exact neg_le_neg (floorDiv_le _ hd)

/-- The enclosure of arctan(1/q) holds it. -/
theorem arctanEnclosure_holds (level : Nat) {q : Nat} (hq : 2 ≤ q) :
    ((arctanEnclosure level q).lo : ℝ) ≤ piUnit level * Real.arctan (q : ℝ)⁻¹
      ∧ piUnit level * Real.arctan (q : ℝ)⁻¹ ≤ ((arctanEnclosure level q).hi : ℝ) := by
  have ht := tendsto_arctan hq
  have ha := arctanTerm_antitone (q := q) (by omega)
  have hu : (0 : ℝ) ≤ piUnit level := Nat.cast_nonneg _
  exact ⟨(arctanBelow_le _ _ _ (by omega)).trans (mul_le_mul_of_nonneg_left (ha.alternating_series_le_tendsto ht _) hu),
    (mul_le_mul_of_nonneg_left (ha.tendsto_le_alternating_series ht _) hu).trans (le_arctanAbove _ _ _ (by omega))⟩

/-- The enclosure of pi holds it, at every level. -/
theorem piEnclosure_holds (level : Nat) :
    ((piEnclosure level).lo : ℝ) ≤ piUnit level * Real.pi ∧ piUnit level * Real.pi ≤ ((piEnclosure level).hi : ℝ) := by
  obtain ⟨a, b⟩ := arctanEnclosure_holds level (q := 5) (by norm_num)
  obtain ⟨c, d⟩ := arctanEnclosure_holds level (q := 239) (by norm_num)
  have e := Real.four_mul_arctan_inv_5_sub_arctan_inv_239
  have h : piUnit level * Real.pi
      = 16 * (piUnit level * Real.arctan ((5 : Nat) : ℝ)⁻¹) - 4 * (piUnit level * Real.arctan ((239 : Nat) : ℝ)⁻¹) := by
    push_cast
    linear_combination (-4 * (piUnit level : ℝ)) * e
  simp only [piEnclosure, Int.cast_sub, Int.cast_mul, Int.cast_ofNat]
  constructor <;> linarith

/-- The value of a sum of integer multiples of powers of x. -/
noncomputable def evalTerms (x : ℂ) (terms : List (Nat × Int)) : ℂ := (terms.map fun t => (t.2 : ℂ) * x ^ t.1).sum

theorem evalTerms_timesOneMinus {x : ℂ} {n : Nat} (hx : x ^ n = 1) (e : Nat) (terms : List (Nat × Int)) :
    evalTerms x (timesOneMinus n e terms) = evalTerms x terms * (1 - x ^ e) := by
  have h : ∀ m : Nat, x ^ (m % n) = x ^ m := fun m => by
    conv_rhs => rw [← Nat.div_add_mod m n, pow_add, pow_mul, hx, one_pow, one_mul]
  rw [timesOneMinus, evalTerms, List.map_append, List.sum_append, mul_sub, mul_one, sub_eq_add_neg]
  congr 1
  induction terms with
  | nil => simp [evalTerms]
  | cons t ts ih =>
    simp only [List.map_cons, List.sum_cons, ih, evalTerms, h, pow_add]
    push_cast
    ring

/-- A sum whose multiples cancel exponent by exponent is 0 everywhere. -/
theorem evalTerms_of_cancel (x : ℂ) (terms : List (Nat × Int))
    (h : ∀ t ∈ terms, ((terms.filter fun u => u.1 = t.1).map Prod.snd).sum = 0) : evalTerms x terms = 0 := by
  have key : evalTerms x terms
      = ∑ e ∈ (terms.map Prod.fst).toFinset, (((terms.filter fun u => u.1 = e).map Prod.snd).sum : ℂ) * x ^ e := by
    have : ∀ (ts : List (Nat × Int)) (es : Finset Nat), (∀ t ∈ ts, t.1 ∈ es) →
        evalTerms x ts = ∑ e ∈ es, (((ts.filter fun u => u.1 = e).map Prod.snd).sum : ℂ) * x ^ e := by
      intro ts es
      induction ts with
      | nil => simp [evalTerms]
      | cons t ts ih =>
        intro hm
        have hsplit : ∀ e, ((((t :: ts).filter fun u => u.1 = e).map Prod.snd).sum : ℂ) * x ^ e
            = (if t.1 = e then (t.2 : ℂ) * x ^ e else 0) + (((ts.filter fun u => u.1 = e).map Prod.snd).sum : ℂ) * x ^ e := by
          intro e
          by_cases he : t.1 = e <;> simp [he, add_mul]
        simp only [hsplit, Finset.sum_add_distrib, ← ih fun u hu => hm u (List.mem_cons_of_mem _ hu)]
        rw [Finset.sum_ite_eq, if_pos (hm t List.mem_cons_self)]
        simp [evalTerms]
    exact this terms _ fun t ht => by simpa using ⟨t.2, ht⟩
  rw [key]
  refine Finset.sum_eq_zero fun e he => ?_
  obtain ⟨t, ht, rfl⟩ := List.mem_map.mp (List.mem_toFinset.mp he)
  rw [h t ht]
  simp

/-- What the exact test says: a sum that passes it is 0 at every primitive root of unity. -/
theorem vanishesAtRoot_sound {n : Nat} (hn : 0 < n) {x : ℂ} (hx : IsPrimitiveRoot x n) {terms : List (Nat × Int)}
    (h : vanishesAtRoot n terms = true) : evalTerms x terms = 0 := by
  have hp : ∀ p ∈ primeDivisors n, x ^ (n / p) ≠ 1 := by
    intro p hp
    simp only [primeDivisors, List.mem_filter, Bool.and_eq_true, decide_eq_true_eq] at hp
    have hd : p ∣ n := Nat.dvd_of_mod_eq_zero hp.2.1.2
    exact hx.pow_ne_one_of_pos_of_lt (Nat.div_pos (Nat.le_of_dvd hn hd) (by omega)).ne' (Nat.div_lt_self hn hp.2.1.1)
  have fold : ∀ (ps : List Nat) (ts : List (Nat × Int)), (∀ p ∈ ps, x ^ (n / p) ≠ 1) →
      evalTerms x (ps.foldl (fun ts p => timesOneMinus n (n / p) ts) ts) = 0 → evalTerms x ts = 0 := by
    intro ps
    induction ps with
    | nil => exact fun ts _ h => h
    | cons p ps ih =>
      intro ts hps h0
      have h1 := ih _ (fun q hq => hps q (List.mem_cons_of_mem _ hq)) h0
      rw [evalTerms_timesOneMinus hx.pow_eq_one] at h1
      exact (mul_eq_zero.mp h1).resolve_right (sub_ne_zero.mpr (hps p List.mem_cons_self).symm)
  simp only [vanishesAtRoot, List.all_eq_true, decide_eq_true_eq] at h
  exact fold _ _ hp (evalTerms_of_cancel x _ h)

end Sys2Proof.Machine
end

