-- ==== Sys2Proof/Laws/PerInstr.lean ====
section
/-! SUPPORT. Per instruction: the well-formed terms are those whose word the block can hold or show. -/

namespace Sys2Proof.Laws.LegalWord

/-- The words the block can hold or show: the codes 0 to 9 of PHASE (R63), every PackedSample (R57), and the STATUS words with PHASE
at most 9, ERR not 3 (R64), both handles equal to RUN (R21), and ERR 0 while RUN is 1 (R18). -/
def legal : CodeWord → Prop
  | .phase4 c => c.toNat ≤ 9
  | .data16 _ => True
  | .view10 w =>
    (w.extractLsb' 4 4).toNat ≤ 9 ∧ (w.extractLsb' 2 2).toNat ≠ 3 ∧ w.getLsbD 9 = w.getLsbD 0 ∧ w.getLsbD 8 = w.getLsbD 0
      ∧ (w.getLsbD 0 = true → (w.extractLsb' 2 2).toNat = 0)

/-- A term is well formed exactly where its word is one of those. -/
def Statement (i : Instr) : Prop := i.wellFormed = true ↔ legal (encode i)

theorem chk : Statement .chk := by simp [Statement, Instr.wellFormed, encode, legal]
theorem cap : Statement .cap := by simp [Statement, Instr.wellFormed, encode, legal]
theorem nrm : Statement .nrm := by simp [Statement, Instr.wellFormed, encode, legal]
theorem exp : Statement .exp := by simp [Statement, Instr.wellFormed, encode, legal]
theorem asm : Statement .asm := by simp [Statement, Instr.wellFormed, encode, legal]
theorem rsz : Statement .rsz := by simp [Statement, Instr.wellFormed, encode, legal]
theorem shp : Statement .shp := by simp [Statement, Instr.wellFormed, encode, legal]
theorem dth : Statement .dth := by simp [Statement, Instr.wellFormed, encode, legal]
theorem sub : Statement .sub := by simp [Statement, Instr.wellFormed, encode, legal]
theorem dly : Statement .dly := by simp [Statement, Instr.wellFormed, encode, legal]
theorem packedSample (red : BitVec 5) (green : BitVec 6) (blue : BitVec 5) : Statement (.packedSample red green blue) := by
  simp [Statement, Instr.wellFormed, encode, legal]
theorem status (heldDisp heldCap : Bool) (phase : BitVec 4) (err : BitVec 2) (stopPend run : Bool) :
    Statement (.status heldDisp heldCap phase err stopPend run) := by
  simp only [Statement, Instr.wellFormed, Instr.statusWellFormed, encode, legal]
  revert heldDisp heldCap phase err stopPend run
  decide +kernel
theorem reserved10 : Statement .reserved10 := by simp [Statement, Instr.wellFormed, encode, legal]
theorem reserved11 : Statement .reserved11 := by simp [Statement, Instr.wellFormed, encode, legal]
theorem reserved12 : Statement .reserved12 := by simp [Statement, Instr.wellFormed, encode, legal]
theorem reserved13 : Statement .reserved13 := by simp [Statement, Instr.wellFormed, encode, legal]
theorem reserved14 : Statement .reserved14 := by simp [Statement, Instr.wellFormed, encode, legal]
theorem reserved15 : Statement .reserved15 := by simp [Statement, Instr.wellFormed, encode, legal]

end Sys2Proof.Laws.LegalWord
end

