-- ==== Sys2Proof/Tests/Slice0.lean ====
section
/-! SUPPORT. Tests of the model against the spec's own vectors (95_test_vectors.md, named V and P) and words, and a witness for the
hypotheses of each statement of the certificate. -/

namespace Sys2Proof.Tests

open Sys2Proof.Machine

/-! ## Helpers -/

/-- The reference configuration with these four dimensions. -/
def sized (w h dw dh : BitVec 16) : Configuration :=
  { Configuration.reference with srcW := w, srcH := h, dstW := dw, dstH := dh }

/-- A block out of reset with this configuration, at this PHASE, holding these buffers. -/
def block (c : Configuration) (phase : BitVec 4) (b : Buffers) : State :=
  { State.resetWith c Env.silent with phase := phase, buf := b }

/-- The same with these answers ready. -/
def answered (s : State) (caps : List CaptureAnswer) (disps : List DisplayAnswer) : State :=
  { s with env := { s.env with capAnswers := caps, dispAnswers := disps } }

/-- The same with these moves to come. -/
def moving (s : State) (moves : List EnvMove) : State := { s with env := { s.env with schedule := moves } }

/-- Whether an outcome is a next state with this property. -/
def nextHas (r : Result) (p : State → Bool) : Bool :=
  match r with
  | .next t => p t
  | .fault _ => false
  | .refused _ => false

/-- Whether an outcome is this fault. -/
def faultIs (r : Result) (f : Fault) : Bool :=
  match r with
  | .next _ => false
  | .fault g => g == f
  | .refused _ => false

/-- Whether an outcome is this refusal. -/
def refusalIs (r : Result) (f : Refusal) : Bool :=
  match r with
  | .next _ => false
  | .fault _ => false
  | .refused g => g == f

/-- A grey pixel. -/
def grey (v : Nat) : Triple := { r := BitVec.ofNat 8 v, g := BitVec.ofNat 8 v, b := BitVec.ofNat 8 v }

/-- A grey image. -/
def greys (rows : List (List Nat)) : Image := rows.map (fun row => row.map grey)

/-- Only FULL holds a value. -/
def holdingFull (img : Image) : Buffers := { Buffers.empty with full := some img }
/-- Only RSZ holds a value. -/
def holdingRsz (img : Image) : Buffers := { Buffers.empty with rsz := some img }
/-- Only ENH holds a value. -/
def holdingEnh (img : Image) : Buffers := { Buffers.empty with enh := some img }

/-- A row of bits. -/
def bits (row : List Nat) : List Bool := row.map (fun v => v == 1)

/-- A colour pixel. -/
def rgb (r g b : Nat) : Triple := { r := BitVec.ofNat 8 r, g := BitVec.ofNat 8 g, b := BitVec.ofNat 8 b }

/-! ## Words written out from the encodings of 30_encoding.md R62, R63, R57 and 10_state.md R23 -/

theorem test_decode_chk : decode (.phase4 0b0000) = .chk := by decide
theorem test_decode_cap : decode (.phase4 0b0001) = .cap := by decide
theorem test_decode_nrm : decode (.phase4 0b0010) = .nrm := by decide
theorem test_decode_exp : decode (.phase4 0b0011) = .exp := by decide
theorem test_decode_asm : decode (.phase4 0b0100) = .asm := by decide
theorem test_decode_rsz : decode (.phase4 0b0101) = .rsz := by decide
theorem test_decode_shp : decode (.phase4 0b0110) = .shp := by decide
theorem test_decode_dth : decode (.phase4 0b0111) = .dth := by decide
theorem test_decode_sub : decode (.phase4 0b1000) = .sub := by decide
theorem test_decode_dly : decode (.phase4 0b1001) = .dly := by decide
theorem test_decode_reserved10 : decode (.phase4 0b1010) = .reserved10 := by decide
theorem test_decode_reserved11 : decode (.phase4 0b1011) = .reserved11 := by decide
theorem test_decode_reserved12 : decode (.phase4 0b1100) = .reserved12 := by decide
theorem test_decode_reserved13 : decode (.phase4 0b1101) = .reserved13 := by decide
theorem test_decode_reserved14 : decode (.phase4 0b1110) = .reserved14 := by decide
theorem test_decode_reserved15 : decode (.phase4 0b1111) = .reserved15 := by decide
/-- V2.1, worked: 0x1234 is red 2, green 17, blue 20. -/
theorem test_decode_packedSample : decode (.data16 0b0001001000110100) = .packedSample 2 17 20 := by decide
/-- V6.5: 0x393 is DLY with a stop pending, RUNNING. -/
theorem test_decode_status : decode (.view10 0b1110010011) = .status true true 9 0 true true := by decide

/-- The same words as bytes: a PHASE code in one byte, a sample high byte first (R56). -/
theorem test_decode_bytes :
    decodeBytes .phase4 [0x07] = .ok .dth ∧ decodeBytes .data16 [0xF8, 0x00] = .ok (.packedSample 31 0 0)
      ∧ decodeBytes .phase4 [0x10] = .error .bitsAboveTheFormat ∧ decodeBytes .data16 [0xF8] = .error .wrongLength
      ∧ decodeBytes .view10 [0x01, 0x04] = .error .bitsAboveTheFormat := by
  refine ⟨rfl, rfl, rfl, rfl, rfl⟩

theorem test_table_words :
    decodeTableWord 4 9 = some .dly ∧ decodeTableWord 8 9 = some .dly
      ∧ decodeTableWord 16 0x1234 = some (.packedSample 2 17 20)
      ∧ decodeTableWord 10 0x301 = some (.status true true 0 0 false true) ∧ decodeTableWord 8 16 = none := by decide

/-- The instruction that is placed is the one the next step executes. -/
theorem test_placed_instruction_runs :
    nextHas (step (State.reset.withFetchWord 4 0)) (fun t => t.phase == 1)
      ∧ faultIs (step (State.reset.withFetchWord 4 12)) (.reservedPhase 12)
      ∧ nextHas (step (State.reset.withFetchWord 10 0x088)) (fun t => t.statusRead == 0x088) := by decide

/-! ## Well-formedness: one ill-formed term for each check -/

theorem test_reserved_codes_are_ill_formed :
    Instr.wellFormed .reserved10 = false ∧ Instr.wellFormed .reserved11 = false ∧ Instr.wellFormed .reserved12 = false
      ∧ Instr.wellFormed .reserved13 = false ∧ Instr.wellFormed .reserved14 = false ∧ Instr.wellFormed .reserved15 = false := by
  decide
theorem test_status_words_ill_formed :
    Instr.wellFormed (.status true true 10 0 false true) = false
      ∧ Instr.wellFormed (.status false false 1 3 false false) = false
      ∧ Instr.wellFormed (.status false true 0 0 false true) = false
      ∧ Instr.wellFormed (.status true false 0 0 false true) = false
      ∧ Instr.wellFormed (.status true true 1 2 false true) = false := by decide
theorem test_status_words_well_formed :
    Instr.wellFormed (.status true true 9 0 true true) = true ∧ Instr.wellFormed (.status false false 8 2 false false) = true := by
  decide

/-- P6, U3, U4, D4, D13: one invalid configuration for each check; the selectors' last values; a conversion that changes one grey. -/
theorem test_invalid_configurations :
    (sized 0 2 4 2).legal = false ∧ (sized 4 0 4 2).legal = false ∧ (sized 4 2 0 2).legal = false
      ∧ (sized 4 2 4 0).legal = false ∧ { sized 4 2 4 2 with ditherAlg := 1 }.legal = false
      ∧ { sized 4 2 4 2 with kernel := 3 }.legal = false ∧ { sized 4 2 4 2 with ditherAlg := 15 }.legal = false
      ∧ { sized 4 2 4 2 with kernel := 15 }.legal = false
      ∧ { sized 4 2 4 2 with luma := .exceptAt (grey 5) 6 .maximum }.legal = false ∧ { sized 4 2 4 2 with coefP := 0 }.legal = false
      ∧ { sized 4 2 4 2 with coefP := 17 }.legal = false ∧ { sized 4 2 4 2 with luma := .weighted 1 2 3 }.legal = false
      ∧ { sized 4 2 4 2 with thresh := 0 }.legal = false ∧ { sized 4 2 4 2 with pipelined := true }.legal = false
      ∧ (sized 4 2 4 2).legal = true := by decide +kernel

/-! ## Operations against the vectors -/

/-- R122, its example: a pending stop ends the run with ERR 0 and PHASE 0. -/
theorem test_chk_takes_the_stop :
    nextHas (exec .chk { State.reset with stopPend := true })
      (fun t => !t.run && t.phase == 0 && t.err == .noError && t.statusRead == 0x002) := by decide
theorem test_chk_goes_on : nextHas (exec .chk State.reset) (fun t => t.run && t.phase == 1) := by decide

/-- V6.3: 15 bytes where 16 are due. -/
theorem test_cap_short_snapshot :
    nextHas (exec .cap (answered (block (sized 4 2 4 2) 1 Buffers.empty) [.bytes (List.replicate 15 0)] []))
      (fun t => t.err == .captureSize && t.buf.rawLen == some 15 && !t.run && t.phase == 1 && t.statusRead == 0x014) := by decide
/-- V6.3: 16 bytes. -/
theorem test_cap_whole_snapshot :
    nextHas (exec .cap (answered (block (sized 4 2 4 2) 1 Buffers.empty) [.bytes (List.replicate 16 0)] []))
      (fun t => t.phase == 2 && t.buf.raw == some (List.replicate 16 0) && t.run) := by decide

/-- V2.1: the rows `F8 00` and `12 34`. -/
theorem test_nrm_swaps :
    nextHas (exec .nrm (block (sized 2 1 1 1) 2 { Buffers.empty with raw := some [0xF8, 0x00, 0x12, 0x34] }))
      (fun t => t.buf.samp == some [0xF800, 0x1234] && t.phase == 3) := by decide

/-- V2.1: the rows 0xFFFF and 0x1234. -/
theorem test_exp_expands :
    nextHas (exec .exp (block (sized 2 1 1 1) 3 { Buffers.empty with raw := some [], samp := some [0xFFFF, 0x1234] }))
      (fun t => t.buf.tri == some [rgb 248 252 248, rgb 16 68 160] && t.buf.raw == none && t.phase == 4) := by decide

/-- R81, its example: FULL[1][2] is TRI[6]. -/
theorem test_asm_index_map :
    nextHas (exec .asm (block (sized 4 2 4 2) 4 { Buffers.empty with tri := some ((List.range 8).map grey) }))
      (fun t => (t.buf.full.bind (fun f => pixel f 1 2)) == some (grey 6) && t.phase == 5) := by decide
/-- R82, R139: seven triples where eight are due. -/
theorem test_asm_wrong_count :
    nextHas (exec .asm (block (sized 4 2 4 2) 4 { Buffers.empty with tri := some ((List.range 7).map grey) }))
      (fun t => t.err == .captureSize && t.phase == 4 && !t.run) := by decide

/-- V3.1: the row of output position 1 of the 8 to 4 table. -/
theorem test_rsz_coefficients :
    (coefRow 14 8 4 1).lo = 0 ∧ (coefRow 14 8 4 1).coefs = [-1079, 2195, 7229, 7230, 2195, -1079, -551, 244] := by decide +kernel
/-- R92, by hand: 4 to 3 with 3 fraction bits. The weights of position 1 are as -1 : 9 : 9 : -1, so n * 8 is -0.5 and 4.5 exactly and rounds
away from 0. -/
theorem test_rsz_tie : (coefRow 3 4 3 1).coefs = [-1, 5, 5, -1] := by decide +kernel
/-- P2: the resampled image of the 4 by 4 colour snapshot. -/
theorem test_rsz_colour :
    nextHas (exec .rsz (block (sized 4 4 2 2) 5 (holdingFull
        [[rgb 248 252 248, rgb 248 252 248, rgb 0 0 0, rgb 0 0 0], [rgb 248 252 248, rgb 248 252 248, rgb 0 0 0, rgb 0 0 0],
         [rgb 248 0 0, rgb 0 252 0, rgb 0 0 248, rgb 128 128 128], [rgb 248 0 0, rgb 0 252 0, rgb 0 0 248, rgb 128 128 128]])))
      (fun t => t.buf.rsz == some [[rgb 221 225 215, rgb 20 24 29], [rgb 115 117 41, rgb 40 89 164]] && t.phase == 6) := by
  decide +kernel

/-- V4.8: the sharpness filter acts and saturates. -/
theorem test_shp_saturates :
    nextHas (exec .shp (block (sized 8 6 4 3) 6 (holdingRsz
        (greys [[33, 44, 188, 199], [71, 82, 226, 237], [33, 44, 188, 199]]))))
      (fun t => t.buf.enh == some (greys [[33, 44, 188, 199], [71, 69, 255, 237], [33, 44, 188, 199]]) && t.phase == 7) := by
  decide +kernel
/-- V4.9: the same at factor 1.5. -/
theorem test_shp_other_factor :
    nextHas (exec .shp (block { sized 8 6 4 3 with sharpF := 384 } 6 (holdingRsz
        (greys [[33, 44, 188, 199], [71, 82, 226, 237], [33, 44, 188, 199]]))))
      (fun t => t.buf.enh == some (greys [[33, 44, 188, 199], [71, 76, 250, 237], [33, 44, 188, 199]])) := by decide +kernel

/-- V5.8: a negative v, not clamped. -/
theorem test_dth_mixed :
    nextHas (exec .dth (block (sized 3 2 3 2) 7 (holdingEnh (greys [[0, 255, 128], [64, 192, 32]]))))
      (fun t => t.buf.bit == some [bits [0, 1, 1], bits [0, 1, 0]] && t.buf.enh == none && t.phase == 8) := by decide +kernel
/-- V5.4: the pure red snapshot. -/
theorem test_dth_red :
    nextHas (exec .dth (block (sized 4 2 4 2) 7 (holdingEnh
        (List.replicate 2 (List.replicate 4 (rgb 248 0 0))))))
      (fun t => t.buf.bit == some [bits [0, 0, 0, 0], bits [0, 1, 0, 1]]) := by decide +kernel

/-- V6.4: Ok at time 1000. -/
theorem test_sub_accepted :
    nextHas (exec .sub (answered { block (sized 1 1 1 1) 8 { Buffers.empty with bit := some [[true]] } with
        env := { Env.silent with now := 1000 } } [] [.ok]))
      (fun t => t.tEnd == 1000 && t.phase == 9 && t.buf.bit == none) := by decide
/-- V6.4: Fail. -/
theorem test_sub_refused :
    nextHas (exec .sub (answered (block (sized 1 1 1 1) 8 { Buffers.empty with bit := some [[true]] }) [] [.fail]))
      (fun t => t.err == .transport && t.phase == 8 && !t.run && t.statusRead == 0x088) := by decide

/-- V6.2: T_END 1000 and a delay of 50 ms; enabled at 1050. -/
theorem test_dly_enabled_at_the_bound :
    nextHas (exec .dly { State.reset with phase := 9, tEnd := 1000, env := { Env.silent with now := 1050 } })
      (fun t => t.phase == 0 && t.env.now == 1050) := by decide
/-- V6.2: not enabled at 1049. -/
theorem test_dly_not_enabled_before_the_bound :
    faultIs (exec .dly { State.reset with phase := 9, tEnd := 1000, env := { Env.silent with now := 1049 } }) .blockedInDelay := by
  decide

/-- V6.5: blocked in CAP, and a read changes nothing of the block. -/
theorem test_status_blocked_in_cap :
    (block (sized 4 2 4 2) 1 Buffers.empty).statusRead = 0x311
      ∧ nextHas (exec (decode (.view10 0x311)) (block (sized 4 2 4 2) 1 Buffers.empty)) (fun t => t.phase == 1 && t.run) := by
  decide
/-- V6.5: after reset; in DLY with a stop pending. -/
theorem test_status_words :
    State.reset.statusRead = 0x301 ∧ { block (sized 4 2 4 2) 9 Buffers.empty with stopPend := true }.statusRead = 0x393 := by decide

theorem test_reserved10_is_stuck : faultIs (exec .reserved10 State.reset) (.reservedPhase 10) := by decide
theorem test_reserved15_is_stuck : faultIs (exec .reserved15 State.reset) (.reservedPhase 15) := by decide
theorem test_packedSample_stops : faultIs (exec (.packedSample 31 0 0) State.reset) .notAnOperation := by decide

/-- V5.10: the rounding of an accumulator entry. -/
theorem test_rounded_error :
    [-9, -8, -7, 7, 8, 23, 24, -24, -25].map (fun a : Int => roundedError (BitVec.ofInt 16 a)) = [-1, 0, 0, 0, 1, 1, 2, -1, -2] := by
  decide
/-- V5.12: a width that is no multiple of 8. -/
theorem test_packing : packImage 9 [bits [1, 0, 1, 0, 1, 0, 1, 0, 1]] = [0xAA, 0x80] := by decide
/-- V2.1: luminances. -/
theorem test_luminance :
    [rgb 248 252 248, rgb 248 0 0, rgb 0 252 0, rgb 0 0 248, rgb 168 120 104].map (luma Configuration.reference.luma)
      = [250, 74, 148, 28, 133] := by decide
/-- C4: max(R, G, B) maps red to 248; min(R, G, B) and a conversion with one other value, by hand. -/
theorem test_other_conversions :
    [rgb 248 0 0, rgb 168 120 104].map (luma .maximum) = [248, 168]
      ∧ [rgb 248 0 0, rgb 168 120 104].map (luma .minimum) = [0, 104]
      ∧ [rgb 248 0 0, rgb 168 120 104].map (luma (.exceptAt (rgb 248 0 0) 255 .minimum)) = [255, 104] := by decide

/-! ## Witnesses: a state and operands that meet the hypotheses of each statement, clause by clause -/

theorem test_witness_StatusShowsTheRunState : State.reset.inReset = false := rfl
/-- A last byte with one pixel, and a whole number of bytes. -/
theorem test_witness_SerialisedImageIsRowsOfLeftFirstBytes :
    hasShape 1 9 [bits [1, 0, 1, 0, 1, 0, 1, 0, 1]] = true ∧ (0 < 1 ∧ 1 < (9 + 7) / 8)
      ∧ hasShape 2 8 [bits [1, 1, 1, 1, 1, 1, 1, 1], bits [0, 0, 0, 0, 0, 0, 0, 1]] = true ∧ (1 < 2 ∧ 0 < (8 + 7) / 8) := by decide
/-- One sample, red. -/
def nrmState : State := block (sized 1 1 1 1) 2 { Buffers.empty with raw := some [0xF8, 0x00] }
theorem test_witness_NrmSwapsEverySample_and_FrontEnd :
    nrmState.buf.raw = some [0xF8, 0x00] ∧ [0xF8, 0x00].length = nrmState.cfg.bytes ∧ 0 < nrmState.cfg.samples := by decide
def expState : State := block (sized 1 1 1 1) 3 { Buffers.empty with samp := some [0xF800] }
theorem test_witness_ExpExpandsEverySample :
    expState.buf.samp = some [0xF800] ∧ [0xF800].length = expState.cfg.samples ∧ [(0xF800 : Sample)][0]? = some 0xF800 := by decide
def asmState (triples : List Triple) : State := block (sized 1 1 1 1) 4 { Buffers.empty with tri := some triples }
theorem test_witness_AsmArrangesRowMajor :
    (asmState [grey 8]).buf.tri = some [grey 8] ∧ [grey 8].length = (asmState [grey 8]).cfg.samples
      ∧ 0 < (asmState [grey 8]).cfg.h ∧ 0 < (asmState [grey 8]).cfg.w := by decide
/-- One triple too few and one too many. -/
theorem test_witness_AsmReportsAWrongCount :
    (asmState []).buf.tri = some [] ∧ ([] : List Triple).length ≠ (asmState []).cfg.samples
      ∧ (asmState [grey 0, grey 8]).buf.tri = some [grey 0, grey 8]
      ∧ [grey 0, grey 8].length ≠ (asmState [grey 0, grey 8]).cfg.samples := by decide
/-- R96 (d): 2 to 1 averages. -/
theorem test_witness_CoefficientsSumToOne :
    axisTable 14 2 1 = some [{ lo := 0, coefs := [8192, 8192] }]
      ∧ [({ lo := 0, coefs := [8192, 8192] } : CoefRow)][0]? = some { lo := 0, coefs := [8192, 8192] }
      ∧ (8192 : Int) ∈ [(8192 : Int), 8192] := by decide +kernel
theorem test_witness_EnclosureHoldsTheRealKernel : 0 < 1 := by decide
/-- Whether every rounding of a row is decided. -/
def rowDecided (p nIn nOut o : Nat) : Bool :=
  let ws := weights 0 nIn nOut o
  (ws.mapIdx fun k w => (roundWeight p nIn nOut o k levels 0 (weightSum ws) w).isSome).all id
/-- The first row of the 2 to 3 table of section 3.2, by enclosures; the row of the tie, by the exact test. -/
theorem test_witness_CoefficientRowsAreThoseOfTheRealRules :
    0 < 2 ∧ 0 < 3 ∧ 0 < 3 ∧ 0 < (weightSum (weights 0 2 3 0)).lo ∧ rowDecided 14 2 3 0 = true
      ∧ (coefRow 14 2 3 0).coefs = [18418, -2034]
      ∧ 0 < (weightSum (weights 0 4 3 1)).lo ∧ rowDecided 3 4 3 1 = true
      ∧ 0 < windowLen 4 3 1 ∧ isHalf 3 4 3 1 0 (-1) = true := by decide +kernel
theorem test_witness_FilterSumsTheTapsWithin32Bits :
    1 ≤ 14 ∧ 0 + [(8192 : Int), 8192].length ≤ [(255 : Byte), 0].length ∧ 14 ≤ 16
      ∧ ([(8192 : Int), 8192].map Int.natAbs).sum < 2 ^ 17
      ∧ axisTable 14 2 1 = some [{ lo := 0, coefs := [8192, 8192] }]
      ∧ ({ lo := 0, coefs := [8192, 8192] } : CoefRow) ∈ [({ lo := 0, coefs := [8192, 8192] } : CoefRow)] := by decide +kernel

/-- Two columns to one. -/
def rszState : State := block (sized 2 1 1 1) 5 (holdingFull [[grey 248, grey 248]])
theorem test_witness_RszFiltersRowsThenColumns_and_Uniform :
    rszState.buf.full = some [[grey 248, grey 248]] ∧ hasShape rszState.cfg.h rszState.cfg.w [[grey 248, grey 248]] = true
      ∧ rszState.cfg.kernel = 0 ∧ coefTables rszState.cfg
          = some ([{ lo := 0, coefs := [8192, 8192] }], [{ lo := 0, coefs := [16384] }])
      ∧ [[grey 248, grey 248]] = uniformGrid rszState.cfg.h rszState.cfg.w (grey 248)
      ∧ 1 ≤ rszState.cfg.coefP ∧ 0 < rszState.cfg.w ∧ 0 < rszState.cfg.h := by decide +kernel
/-- The operands of the clauses about TMP and RSZ: the first line and row, the first column. -/
theorem test_witness_RszFiltersRowsThenColumns_clauses :
    Triple.r ∈ channels ∧ [[grey 248, grey 248]][0]? = some [grey 248, grey 248]
      ∧ [({ lo := 0, coefs := [8192, 8192] } : CoefRow)][0]? = some { lo := 0, coefs := [8192, 8192] }
      ∧ [({ lo := 0, coefs := [16384] } : CoefRow)][0]? = some { lo := 0, coefs := [16384] } ∧ 0 < rszState.cfg.dw
      ∧ [(248 : Byte)].length = rszState.cfg.h := by
  refine ⟨List.mem_cons_self, rfl, rfl, rfl, by decide, rfl⟩
def sameSizeState : State := block (sized 2 1 2 1) 5 (holdingFull [[grey 8, grey 248]])
theorem test_witness_ResamplingToTheSameSizeIsTheIdentity :
    sameSizeState.buf.full = some [[grey 8, grey 248]]
      ∧ hasShape sameSizeState.cfg.h sameSizeState.cfg.w [[grey 8, grey 248]] = true ∧ sameSizeState.cfg.legal = true
      ∧ sameSizeState.cfg.dw = sameSizeState.cfg.w ∧ sameSizeState.cfg.dh = sameSizeState.cfg.h := by decide
/-- Two images with one red channel and two green ones. -/
theorem test_witness_ChannelsDoNotMix :
    Triple.r ∈ channels ∧ channelOf Triple.r [[rgb 8 0 0]] = channelOf Triple.r [[rgb 8 252 0]] := by
  exact ⟨List.mem_cons_self, by decide⟩
/-- KERNEL 1; coefficients that need 17 fraction bits; DITHER_ALG 1. -/
def kernelState : State := block { sized 1 1 1 1 with kernel := 1 } 5 (holdingFull [[grey 0]])
def tablesState : State := block { sized 1 1 1 1 with coefP := 17 } 5 (holdingFull [[grey 0]])
def ditherState : State := block { sized 1 1 1 1 with ditherAlg := 1 } 7 (holdingEnh [[grey 0]])
/-- One configuration or state for each clause. -/
theorem test_witness_ReservedSelectorsAndBadTablesAreRefused :
    (sized 1 1 1 0).dstH = 0 ∧ ditherState.cfg.ditherAlg ≠ 0
      ∧ kernelState.buf.full = some [[grey 0]] ∧ hasShape kernelState.cfg.h kernelState.cfg.w [[grey 0]] = true
      ∧ kernelState.cfg.kernel ≠ 0
      ∧ tablesState.buf.full = some [[grey 0]] ∧ hasShape tablesState.cfg.h tablesState.cfg.w [[grey 0]] = true
      ∧ tablesState.cfg.kernel = 0 ∧ coefTables tablesState.cfg = none
      ∧ ditherState.buf.enh = some [[grey 0]] ∧ hasShape ditherState.cfg.dh ditherState.cfg.dw [[grey 0]] = true := by
  decide +kernel
def shpImage : Image := greys [[10, 10, 10], [10, 200, 10], [10, 10, 10]]
def shpState : State := block (sized 3 3 3 3) 6 (holdingRsz shpImage)
/-- V4.1: a border pixel and the one interior pixel. -/
theorem test_witness_ShpSharpensEveryPixel :
    shpState.buf.rsz = some shpImage ∧ hasShape shpState.cfg.dh shpState.cfg.dw shpImage = true
      ∧ pixel shpImage 0 2 = some (grey 10) ∧ 2 + 1 = shpState.cfg.dw
      ∧ pixel shpImage 1 1 = some (grey 200) ∧ 1 + 1 < shpState.cfg.dw ∧ 1 + 1 < shpState.cfg.dh
      ∧ (∀ dy < 3, ∀ dx < 3, ((pixel shpImage (1 + dy - 1) (1 + dx - 1)).map Triple.r).isSome = true) := by decide
theorem test_witness_SharpeningKeepsUniformAndSmallImages :
    hasShape 5 2 (uniformGrid 5 2 (grey 7)) = true ∧ 2 < 3 ∧ hasShape 2 5 (uniformGrid 2 5 (grey 7)) = true := by decide
/-- Each form; the green channel is a function that keeps the greys. -/
theorem test_witness_LegalConversionsKeepGreys :
    (Luma.weighted 19595 38470 7471).legal = true ∧ Luma.maximum.legal = true ∧ Luma.minimum.legal = true
      ∧ (Luma.exceptAt (rgb 248 0 0) 255 .minimum).legal = true
      ∧ ∀ u : Byte, Triple.g { r := u, g := u, b := u } = u :=
  ⟨by decide, by decide, by decide, by decide +kernel, fun _ => rfl⟩
def dthState : State := block (sized 2 1 2 1) 7 (holdingEnh (greys [[200, 100]]))
/-- V5.2: the pixel that has received a share. -/
theorem test_witness_DthDiffusesErrorsByFloydSteinberg :
    dthState.buf.enh = some (greys [[200, 100]]) ∧ hasShape dthState.cfg.dh dthState.cfg.dw (greys [[200, 100]]) = true
      ∧ dthState.cfg.ditherAlg = 0 ∧ pixel (greys [[200, 100]]) 0 1 = some (grey 100)
      ∧ pixel (ditherScan 128 2 [[200, 100]]) 0 1 = some { lum := 100, acc := BitVec.ofInt 16 (-385), v := 76, bit := false, e := 76 } := by
  decide
theorem test_witness_DitherValuesStayInBounds_and_Conserves :
    hasShape 1 2 [[(200 : Byte), 100]] = true ∧ (pixel (ditherScan 128 2 [[200, 100]]) 0 1).isSome = true := by decide
/-- R117: one image for each clause, the second by a conversion that keeps 255. -/
theorem test_witness_BlackStaysBlackAndWhiteStaysWhite :
    (sized 1 1 2 1).legal = true ∧ hasShape 1 2 (greys [[0, 0]]) = true
      ∧ lumaImage (sized 1 1 2 1).luma (greys [[0, 0]]) = uniformGrid 1 2 0
      ∧ hasShape 1 2 (greys [[255, 255]]) = true ∧ lumaImage (sized 1 1 2 1).luma (greys [[255, 255]]) = uniformGrid 1 2 255 := by
  decide
theorem test_witness_DitherDependsOnEarlierPixelsOnly : 0 < [(200 : Byte)].length := by decide

/-- R123: one answer for each clause; 1 by 1 asks for 2 bytes. -/
theorem test_witness_CapTakesExactlyOneSnapshot :
    (answered State.reset [.fail] []).env.capAnswers = [.fail]
      ∧ (answered (block (sized 1 1 1 1) 1 Buffers.empty) [.bytes [0xF8, 0x00]] []).env.capAnswers = [.bytes [0xF8, 0x00]]
      ∧ [0xF8, 0x00].length = 2 * ((sized 1 1 1 1).srcW.toNat * (sized 1 1 1 1).srcH.toNat)
      ∧ [0xF8].length ≠ 2 * ((sized 1 1 1 1).srcW.toNat * (sized 1 1 1 1).srcH.toNat) := by decide
def subState (disps : List DisplayAnswer) : State :=
  answered (block (sized 1 1 1 1) 8 { Buffers.empty with bit := some [[true]] }) [] disps
theorem test_witness_SubSubmitsTheImage :
    (subState [.ok]).buf.bit = some [[true]] ∧ hasShape 1 1 [[true]] = true ∧ (subState [.ok]).env.dispAnswers = [.ok]
      ∧ (subState [.fail]).env.dispAnswers = [.fail] := by decide
/-- DLY with T_END 1000 and a delay of 50 ms at this time, these moves to come (V6.2). -/
def dlyState (now : Nat) (moves : List EnvMove) : State :=
  { block (sized 1 1 1 1) 9 Buffers.empty with tEnd := 1000, env := { Env.silent with now := now, schedule := moves } }
/-- At the bound. -/
theorem test_witness_DlyWaitsOutTheDelay :
    (dlyState 1050 []).tEnd + (dlyState 1050 []).cfg.delayMs.toNat ≤ (dlyState 1050 []).env.now
      ∧ nextHas (exec .dly (dlyState 1050 [])) (fun t => t.phase == 0) := by decide
/-- One state for each clause; DLY one millisecond before the bound, and that millisecond passing. -/
theorem test_witness_UnansweredPortsBlock :
    State.reset.env.capAnswers = [] ∧ (subState []).buf.bit = some [[true]]
      ∧ hasShape (subState []).cfg.dh (subState []).cfg.dw [[true]] = true ∧ (subState []).env.dispAnswers = []
      ∧ (dlyState 1049 []).env.now < (dlyState 1049 []).tEnd + (dlyState 1049 []).cfg.delayMs.toNat
      ∧ (dlyState 1049 [.passTime 1, .runBlock]).inReset = false ∧ (dlyState 1049 [.passTime 1, .runBlock]).cfg.legal = true
      ∧ (dlyState 1049 [.passTime 1, .runBlock]).run = true ∧ (dlyState 1049 [.passTime 1, .runBlock]).phase = 9
      ∧ (dlyState 1049 [.passTime 1, .runBlock]).env.schedule = [.passTime 1, .runBlock]
      ∧ 1000 + (dlyState 1049 [.passTime 1, .runBlock]).cfg.delayMs.toNat ≤ 1049 + 1 := by decide
theorem test_witness_ReadingAnEmptyBufferIsAFault :
    State.reset.buf.raw = none ∧ State.reset.buf.samp = none ∧ State.reset.buf.tri = none ∧ State.reset.buf.full = none
      ∧ State.reset.buf.rsz = none ∧ State.reset.buf.enh = none ∧ State.reset.buf.bit = none := by decide
/-- A word STATUS shows and one it does not. -/
theorem test_witness_ReadingStatusChangesNothing :
    packStatus true true 0 0 false true = State.reset.statusView ∧ State.reset.inReset = false
      ∧ packStatus true true 1 0 false true ≠ State.reset.statusView := by decide
/-- The environment of the witness: a turn, ten milliseconds, an answer at each port, over and over. -/
def dutiful (n : Nat) : EnvMove :=
  match n % 4 with
  | 0 => .runBlock
  | 1 => .passTime 10
  | 2 => .answerCapture .fail
  | _ => .answerDisplay .ok
theorem timePassed_dutiful (n : Nat) : n ≤ timePassed dutiful (4 * n) := by
  induction n with
  | zero => exact Nat.zero_le _
  | succ n ih =>
    have h : ∀ k < 4, dutiful (4 * n + k) = dutiful k := fun k hk => by unfold dutiful; congr 1; omega
    have h0 := h 0 (by decide)
    have h1 := h 1 (by decide)
    have h2 := h 2 (by decide)
    have h3 := h 3 (by decide)
    show n + 1 ≤ timePassed dutiful (4 * n + 4)
    simp only [timePassed, h1, h2, h3, show dutiful (4 * n) = dutiful 0 from h0]
    have : (dutiful 0).time + (dutiful 1).time + (dutiful 2).time + (dutiful 3).time = 10 := by decide
    omega
/-- Such an environment does its duty; the three waits, each of a sane block that it serves. -/
theorem test_witness_WaitsEndInADutifulEnvironment :
    LetsTimePass dutiful ∧ GivesTurns dutiful ∧ AnswersCaptures dutiful ∧ AnswersSubmissions dutiful
      ∧ (∀ n, dutiful n ≠ .assertReset)
      ∧ (dlyState 1049 []).inReset = false ∧ (dlyState 1049 []).cfg.legal = true ∧ (dlyState 1049 []).run = true
      ∧ (dlyState 1049 []).phase = 9 ∧ (dlyState 1049 []).Sane ∧ (coefTables (dlyState 1049 []).cfg).isSome = true
      ∧ (State.after (dlyState 1049 []) dutiful 5).phase = 0 := by
  have at_mod : ∀ n k, k < 4 → dutiful (4 * n + k) = dutiful k := fun n k hk => by unfold dutiful; congr 1; omega
  refine ⟨fun b => ⟨4 * (b + 1), timePassed_dutiful (b + 1)⟩, fun n => ⟨4 * n + 0, by omega, at_mod n 0 (by decide)⟩,
    fun n => ⟨4 * n + 2, by omega, _, at_mod n 2 (by decide)⟩, fun n => ⟨4 * n + 3, by omega, _, at_mod n 3 (by decide)⟩, ?_,
    rfl, by decide, rfl, rfl, ⟨by decide, rfl, rfl, fun _ => rfl, fun _ => rfl, fun h => by cases h⟩, by decide +kernel, by decide⟩
  intro n
  unfold dutiful
  split <;> decide
theorem test_witness_ReservedPhasesAreStuck :
    10 ≤ (10 : BitVec 4).toNat ∧ 10 ≤ (15 : BitVec 4).toNat ∧ State.reset.phase.toNat ≤ 9
      ∧ nextHas (exec .chk State.reset) (fun t => t.phase == 1) = true := by decide
/-- CHK goes on; CAP ends in an error. -/
theorem test_witness_PhaseAdvancesInTheHardWiredOrder :
    State.reset.run = true ∧ nextHas (exec (decode (.phase4 State.reset.phase)) State.reset) (fun t => t.run) = true
      ∧ (answered (block (sized 1 1 1 1) 1 Buffers.empty) [.fail] []).run = true
      ∧ nextHas (exec (decode (.phase4 1)) (answered (block (sized 1 1 1 1) 1 Buffers.empty) [.fail] [])) (fun t => !t.run) = true := by
  decide
/-- CAP on `Fail`, and CAP on a snapshot of the wrong length. -/
theorem test_witness_ErrorEntryFreezesTheBlock :
    State.reset.err = .noError
      ∧ nextHas (exec .cap (answered State.reset [.fail] [])) (fun t => t.err == .transport) = true
      ∧ nextHas (exec .cap (answered State.reset [.bytes []] [])) (fun t => t.err == .captureSize) = true := by decide
theorem test_witness_StepExecutesTheOperationOfPhase :
    State.reset.inReset = false ∧ State.reset.cfg.legal = true ∧ State.reset.run = true ∧ State.reset.env.schedule = []
      ∧ (moving State.reset [.runBlock]).env.schedule = [.runBlock]
      ∧ (moving State.reset [.readStatus]).env.schedule = [.readStatus] := by decide
/-- One state for each clause. -/
theorem test_witness_NoStepWithoutRunning :
    State.reset.env.schedule = [] ∧ (moving State.reset [.runBlock]).env.schedule = [.runBlock] ∧ { State.reset with inReset := true }.inReset = true
      ∧ { State.reset with cfg := sized 0 0 0 0 }.cfg.legal = false
      ∧ State.reset.inReset = false ∧ State.reset.cfg.legal = true ∧ { State.reset with run := false }.run = false := by decide
/-- One configuration for each clause. -/
theorem test_witness_ReleasingResetStartsOver :
    (moving { State.reset with inReset := true } [.releaseReset (sized 1 1 1 1)]).env.schedule = [.releaseReset (sized 1 1 1 1)]
      ∧ (sized 1 1 1 1).legal = true ∧ (coefTables (sized 1 1 1 1)).isSome = true ∧ (sized 0 1 1 1).legal = false
      ∧ coefTables { sized 1 1 1 1 with coefP := 17 } = none
      ∧ (moving State.reset [.releaseReset (sized 1 1 1 1)]).inReset = false := by decide +kernel
/-- One schedule for each clause. -/
theorem test_witness_EnvironmentMovesChangeOnlyTheirInput :
    (moving State.reset [.answerCapture .fail]).env.schedule = [.answerCapture .fail]
      ∧ (moving State.reset [.answerDisplay .ok]).env.schedule = [.answerDisplay .ok]
      ∧ (moving State.reset [.passTime 7]).env.schedule = [.passTime 7]
      ∧ (moving State.reset [.deliverStop]).env.schedule = [.deliverStop]
      ∧ (moving State.reset [.assertReset]).env.schedule = [.assertReset] := by decide
/-- A delivery; a pending request that CHK takes. -/
theorem test_witness_StopRequestIsNeverLost :
    (moving State.reset [.deliverStop]).inReset = false ∧ (moving State.reset [.deliverStop]).env.schedule = [.deliverStop]
      ∧ { State.reset with stopPend := true }.stopPend = true ∧ { State.reset with stopPend := true }.run = true
      ∧ nextHas (step { State.reset with stopPend := true }) (fun t => !t.run && t.err == .noError) = true := by decide
theorem test_witness_ConfigurationIsConstant_and_Time :
    nextHas (step State.reset) (fun t => t.cfg == State.reset.cfg) = true
      ∧ nextHas (step (moving State.reset [.passTime 7])) (fun t => t.env.now == 7) = true
      ∧ nextHas (exec .dly (dlyState 1050 [])) (fun t => t.env.now == 1050) = true := by decide
/-- A STOPPED block whose STATUS is read, and one to which a stop request is delivered. -/
theorem test_witness_OnlyResetLeavesStopped :
    { moving State.reset [.readStatus] with run := false }.run = false
      ∧ nextHas (step { moving State.reset [.readStatus] with run := false }) (fun t => !t.run) = true
      ∧ nextHas (step { moving State.reset [.deliverStop] with run := false }) (fun t => !t.run && t.stopPend) = true := by decide

theorem reset_sane (c : Configuration) (e : Env) : (State.resetWith c e).Sane :=
  ⟨by simp [State.resetWith], rfl, rfl, fun _ => rfl, fun _ => rfl, fun h => by cases h⟩
/-- State.reset is sane, has a step, and, once its capture provider is asked in vain, a fault. -/
theorem test_witness_EveryStepKeepsSanity_and_SaneStatesNeverMisread :
    State.reset.Sane ∧ nextHas (step State.reset) (fun _ => true) = true
      ∧ (block (sized 1 1 1 1) 1 Buffers.empty).Sane
      ∧ faultIs (step (block (sized 1 1 1 1) 1 Buffers.empty)) .blockedInCapture = true
      ∧ (dlyState 1049 []).Sane ∧ faultIs (step (dlyState 1049 [])) .blockedInDelay = true :=
  ⟨reset_sane _ _, by decide, ⟨by decide, rfl, rfl, fun _ => rfl, fun _ => rfl, fun h => by cases h⟩, by decide,
    ⟨by decide, rfl, rfl, fun _ => rfl, fun _ => rfl, fun h => by cases h⟩, by decide⟩
/-- The clause about ASM. -/
theorem test_witness_AsmReportsAWrongCount_never_in_a_sane_state :
    (asmState [grey 8]).Sane ∧ (asmState [grey 8]).run = true ∧ (asmState [grey 8]).phase = 4
      ∧ (asmState [grey 8]).inReset = false ∧ nextHas (step (asmState [grey 8])) (fun _ => true) = true :=
  ⟨⟨by decide, rfl, rfl, fun _ => rfl, fun _ => ⟨[grey 8], rfl, rfl⟩, fun h => by cases h⟩, rfl, rfl, rfl, by decide⟩
/-- The first and the last of the six operations. -/
theorem test_witness_DatapathAlwaysCompletes :
    { nrmState with buf := { nrmState.buf with rawLen := some 2 } }.Sane ∧ nrmState.run = true ∧ nrmState.inReset = false
      ∧ nrmState.cfg.legal = true ∧ (coefTables nrmState.cfg).isSome = true ∧ nrmState.env.schedule = []
      ∧ 2 ≤ nrmState.phase.toNat ∧ dthState.Sane ∧ dthState.run = true ∧ dthState.inReset = false
      ∧ dthState.cfg.legal = true ∧ (coefTables dthState.cfg).isSome = true ∧ dthState.env.schedule = []
      ∧ dthState.phase.toNat ≤ 7 ∧ (moving dthState [.runBlock]).env.schedule = [.runBlock] :=
  ⟨⟨by decide, rfl, rfl, fun _ => rfl, fun _ => ⟨[0xF8, 0x00], rfl, rfl⟩, fun h => by cases h⟩, rfl, rfl, by decide,
    by decide +kernel, rfl, by decide,
    ⟨by decide, rfl, rfl, fun _ => rfl, fun _ => ⟨greys [[200, 100]], rfl, rfl⟩, fun h => by cases h⟩, rfl, rfl, by decide,
    by decide +kernel, rfl, by decide, rfl⟩
/-- A state between CAP and NRM whose buffers come from the snapshot that its record holds, and its step. -/
def capturedState : State :=
  { nrmState with
    buf := { nrmState.buf with rawLen := some 2 }
    env := { Env.silent with trace := [.captureRead 2 (.bytes [0xF8, 0x00]), .released (sized 1 1 1 1)] } }
theorem test_witness_SubmittedImagesAreFramesOfTheirCaptures :
    capturedState.FromLastCapture ∧ nextHas (step capturedState) (fun t => t.phase == 3) = true :=
  ⟨⟨trivial, rfl, fun _ _ _ => ⟨[0xF8, 0x00], rfl, rfl⟩⟩, by decide⟩
/-- A state in DLY at the moment the delay has passed, and its step. -/
def delayedState : State :=
  { block (sized 1 1 1 1) 9 Buffers.empty with
    tEnd := 1000
    env := { Env.silent with now := 1050, trace := [.now 1000, .displaySubmit [[true]] .ok] } }
theorem test_witness_CaptureNeverComesBeforeTheDelay :
    delayedState.DelayKept ∧ nextHas (step delayedState) (fun t => t.phase == 0) = true :=
  ⟨⟨rfl, fun _ h => h.elim (fun h => absurd h (by decide)) (fun h => absurd h (by decide)), fun _ _ => rfl⟩, by decide⟩
theorem test_witness_InvariantsHoldAtReset : SubmissionsAreFrames Env.silent.trace := trivial
theorem test_witness_FrameIsTotal :
    [0xF8, 0x00].length = (sized 1 1 1 1).bytes ∧ (coefTables (sized 1 1 1 1)).isSome = true := by decide +kernel
/-- A block at the top of a tick with a snapshot and an accepting sink ready, nine turns, 50 ms and a turn to come. -/
def tickState : State :=
  answered (moving (block (sized 1 1 1 1) 0 Buffers.empty) (List.replicate 9 .runBlock ++ [.passTime 50, .runBlock]))
    [.bytes [0xF8, 0x00]] [.ok]
theorem test_witness_OneTickSubmitsTheFrameOfItsSnapshot :
    tickState.inReset = false ∧ tickState.run = true ∧ tickState.phase = 0 ∧ tickState.stopPend = false
      ∧ tickState.cfg.legal = true ∧ (coefTables tickState.cfg).isSome = true
      ∧ tickState.env.schedule = List.replicate 9 .runBlock ++ .passTime 50 :: .runBlock :: []
      ∧ tickState.cfg.delayMs.toNat ≤ 50
      ∧ tickState.env.capAnswers = [.bytes [0xF8, 0x00]] ∧ [0xF8, 0x00].length = tickState.cfg.bytes
      ∧ tickState.env.dispAnswers = [.ok] := by decide +kernel

end Sys2Proof.Tests
end

section
/-! The STATUS view (R23) and the state at the release of reset (R28). -/

namespace Sys2Proof.Machine

/-! ### The fields of a STATUS word, each at its bits -/

section
variable {heldDisp heldCap : Bool} {phase : BitVec 4} {err : BitVec 2} {stopPend run : Bool}

theorem packStatus_getLsbD_run : (packStatus heldDisp heldCap phase err stopPend run).getLsbD 0 = run := by
  simp only [packStatus, BitVec.getLsbD_append]
  simp

theorem packStatus_getLsbD_stopPend :
    (packStatus heldDisp heldCap phase err stopPend run).getLsbD 1 = stopPend := by
  simp only [packStatus, BitVec.getLsbD_append]
  simp

/-- Below ERR lie the two one-bit fields RUN and STOP_PEND. -/
theorem packStatus_getLsbD_err {i : Nat} (hi : i < 2) :
    (packStatus heldDisp heldCap phase err stopPend run).getLsbD (2 + i) = err.getLsbD i := by
  simp (disch := omega) only [packStatus, BitVec.getLsbD_append, if_neg, if_pos, Nat.sub_sub, Nat.add_sub_cancel_left]

/-- Below PHASE lie RUN, STOP_PEND and the two bits of ERR. -/
theorem packStatus_getLsbD_phase {i : Nat} (hi : i < 4) :
    (packStatus heldDisp heldCap phase err stopPend run).getLsbD (4 + i) = phase.getLsbD i := by
  simp (disch := omega) only [packStatus, BitVec.getLsbD_append, if_neg, if_pos, Nat.sub_sub, Nat.add_sub_cancel_left]

theorem packStatus_getLsbD_heldCap :
    (packStatus heldDisp heldCap phase err stopPend run).getLsbD 8 = heldCap := by
  simp only [packStatus, BitVec.getLsbD_append]
  simp

theorem packStatus_getLsbD_heldDisp :
    (packStatus heldDisp heldCap phase err stopPend run).getLsbD 9 = heldDisp := by
  simp only [packStatus, BitVec.getLsbD_append]
  simp

end

/-- Out of reset STATUS is the word of the run state. -/
theorem State.statusView_eq_packStatus {s : State} (h : s.inReset = false) :
    s.statusView = packStatus s.heldDisp s.heldCap s.phase s.err.code s.stopPend s.run := by
  rw [State.statusView, h]
  exact if_neg Bool.false_ne_true

/-- R28: HELD_DISP, HELD_CAP and RUN are set and every other bit of STATUS is clear. -/
@[simp] theorem State.resetWith_statusView (c : Configuration) (e : Env) : (State.resetWith c e).statusView = 0x301 := by
  rw [State.statusView_eq_packStatus (State.resetWith_inReset c e)]
  simp only [State.resetWith_heldDisp, State.resetWith_heldCap, State.resetWith_phase, State.resetWith_err,
    State.resetWith_stopPend, State.resetWith_run]
  decide

/-- Settles O5: out of reset STATUS is the word that the six registers make, and each lies at its own bits of that word. -/
theorem statusShowsTheRunState : Obligations.StatusShowsTheRunState := by
  unfold Obligations.StatusShowsTheRunState
  intro s hs
  rw [State.statusView_eq_packStatus hs]
  exact ⟨packStatus_getLsbD_run, packStatus_getLsbD_stopPend, fun _ hi => packStatus_getLsbD_err hi,
    fun _ hi => packStatus_getLsbD_phase hi, packStatus_getLsbD_heldCap, packStatus_getLsbD_heldDisp⟩

/-- Settles O46, register by register, and STATUS from the registers. -/
theorem resetLeavesTheStateOfTheTable : Obligations.ResetLeavesTheStateOfTheTable := by
  unfold Obligations.ResetLeavesTheStateOfTheTable
  intro c env
  have herr : (State.resetWith c env).err.code = 0 := congrArg ErrorCode.code (State.resetWith_err c env)
  exact ⟨State.resetWith_run c env, State.resetWith_phase c env, herr, State.resetWith_stopPend c env,
    State.resetWith_heldCap c env, State.resetWith_heldDisp c env, State.resetWith_cfg c env, State.resetWith_buf c env,
    State.resetWith_inReset c env, State.resetWith_statusView c env⟩

end Sys2Proof.Machine
end

section
/-! The codes of PHASE (R62, R63), the fields of a PackedSample (R57) and the serialised bitonal image (R60). -/

namespace Sys2Proof.Machine

/-! ### The codes of PHASE -/

/-- R63: the reserved codes are the six above DLY's. -/
theorem reservedCode_cases {code : BitVec 4} (h : 10 ≤ code.toNat) :
    code = 10 ∨ code = 11 ∨ code = 12 ∨ code = 13 ∨ code = 14 ∨ code = 15 := by
  revert code
  decide

/-- R63: each reserved code has a row of its own, and that row is stuck at this code. -/
theorem exec_decode_reservedCode (s : State) {code : BitVec 4} (h : 10 ≤ code.toNat) :
    exec (decode (.phase4 code)) s = .fault (.reservedPhase code) := by
  obtain rfl | rfl | rfl | rfl | rfl | rfl := reservedCode_cases h <;> rfl

/-- CAP goes on to NRM, or its error keeps PHASE. -/
theorem takeSnapshot_phase (s : State) (a : CaptureAnswer) :
    (s.takeSnapshot a).phase = s.phase ∨ (s.takeSnapshot a).phase = 2 := by
  obtain ⟨-, e⟩ | ⟨raw, -, -, e⟩ | ⟨raw, -, -, e⟩ := takeSnapshot_cases s a
  · exact .inl (by rw [e, State.raiseError_phase])
  · exact .inl (by rw [e, State.raiseError_phase, State.setBuf_phase])
  · exact .inr (by rw [e, State.setPhase_phase])

/-- SUB goes on to DLY, or its error keeps PHASE. -/
theorem finishSubmit_phase (s : State) (a : DisplayAnswer) :
    (s.finishSubmit a).phase = s.phase ∨ (s.finishSubmit a).phase = 9 := by
  cases a with
  | fail => exact .inl rfl
  | ok => exact .inr rfl

/-- An instruction that completes keeps PHASE or writes one of the codes 0 to 9 to it. -/
theorem exec_next_phase {i : Instr} {s t : State} (h : exec i s = .next t) :
    t.phase = s.phase ∨ t.phase.toNat ≤ 9 := by
  cases i with
  | chk =>
    obtain ⟨-, rfl⟩ | ⟨-, rfl⟩ := execChk_next h
    · exact .inl rfl
    · exact .inr (by simp)
  | cap =>
    obtain ⟨a, rest, -, rfl⟩ := execCap_next h
    exact (takeSnapshot_phase _ a).imp_right fun e => by simp [e]
  | nrm => obtain ⟨_, -, -, rfl⟩ := execNrm_next h; exact .inr (by simp)
  | exp => obtain ⟨_, -, -, rfl⟩ := execExp_next h; exact .inr (by simp)
  | asm =>
    obtain ⟨_, -, ⟨-, rfl⟩ | ⟨-, rfl⟩⟩ := execAsm_next h
    · exact .inl rfl
    · exact .inr (by simp)
  | rsz => obtain ⟨_, _, _, -, -, -, -, rfl⟩ := execRsz_next h; exact .inr (by simp)
  | shp => obtain ⟨_, -, -, rfl⟩ := execShp_next h; exact .inr (by simp)
  | dth => obtain ⟨_, -, -, -, rfl⟩ := execDth_next h; exact .inr (by simp)
  | sub =>
    obtain ⟨_, a, _, -, -, -, rfl⟩ := execSub_next h
    exact (finishSubmit_phase _ a).imp_right fun e => by simp [e]
  | dly => obtain ⟨rfl, -⟩ := execDly_next h; exact .inr (by simp)
  | status => obtain ⟨_, rfl, -⟩ := execStatus_next h; exact .inl rfl
  | packedSample | reserved10 | reserved11 | reserved12 | reserved13 | reserved14 | reserved15 => cases h

/-- Settles O3: each of the ten codes is a row of the decoder's table. -/
theorem phaseCodesSelectTheTenOperations : Obligations.PhaseCodesSelectTheTenOperations := by
  unfold Obligations.PhaseCodesSelectTheTenOperations
  exact ⟨rfl, rfl, rfl, rfl, rfl, rfl, rfl, rfl, rfl, rfl⟩

/-- Settles O40: the reserved codes decode to stuck rows, and a row that completes keeps PHASE or writes 0 to 9. -/
theorem reservedPhasesAreStuck : Obligations.ReservedPhasesAreStuck := by
  unfold Obligations.ReservedPhasesAreStuck
  refine ⟨fun s code hcode => exec_decode_reservedCode s hcode, fun s => ⟨rfl, rfl, rfl, rfl, rfl, rfl⟩, ?_⟩
  intro i s t hs h
  obtain e | hle := exec_next_phase h
  · rwa [e]
  · exact hle

/-! ### The fields of a PackedSample -/

/-- Settles O4: the decoder cuts the three fields out of the sample, and every PackedSample is well formed. -/
theorem packedSampleFieldsAreItsBits : Obligations.PackedSampleFieldsAreItsBits := by
  unfold Obligations.PackedSampleFieldsAreItsBits
  intro s
  refine ⟨s.extractLsb' 11 5, s.extractLsb' 5 6, s.extractLsb' 0 5, rfl, fun i hi => ?_, fun i hi => ?_, fun i hi => ?_, rfl⟩
  · rw [BitVec.getLsbD_extractLsb', decide_eq_true hi, Bool.true_and]
  · rw [BitVec.getLsbD_extractLsb', decide_eq_true hi, Bool.true_and]
  · rw [BitVec.getLsbD_extractLsb', decide_eq_true hi, Bool.true_and, Nat.zero_add]

/-! ### The serialised image -/

/-- The number with the binary digits `f 0`, …, `f (n - 1)`, most significant first, has digit k in bit n - 1 - k. -/
theorem testBit_foldl_digits (f : Nat → Bool) {n k : Nat} (hk : k < n) :
    ((List.range n).foldl (fun acc i => 2 * acc + (f i).toNat) 0).testBit (n - 1 - k) = f k := by
  induction n with
  | zero => omega
  | succ n ih =>
    rw [List.range_succ, List.foldl_append, List.foldl_cons, List.foldl_nil, ← Nat.bit_val]
    obtain rfl | hlt : k = n ∨ k < n := by omega
    · rw [Nat.add_sub_cancel, Nat.sub_self, Nat.testBit_bit_zero]
    · rw [show n + 1 - 1 - k = (n - 1 - k) + 1 by omega, Nat.testBit_bit_succ, ih hlt]

/-- R60: pixel k of eight stands in bit 7 - k, the leftmost in bit 7; a missing one is 0. -/
theorem packByte_getLsbD (pixels : List Bool) {k : Nat} (hk : k < 8) :
    (packByte pixels).getLsbD (7 - k) = pixels.getD k false := by
  rw [packByte, BitVec.getLsbD_ofNat, testBit_foldl_digits (fun i => pixels.getD i false) hk, decide_eq_true (by omega),
    Bool.true_and]

@[simp] theorem packRow_length (w : Nat) (row : List Bool) : (packRow w row).length = (w + 7) / 8 := by
  simp [packRow]

/-- Byte j of a row is made of its pixels 8j to 8j + 7. -/
theorem packRow_getElem? {w j : Nat} (row : List Bool) (hj : j < (w + 7) / 8) :
    (packRow w row)[j]? = some (packByte ((row.drop (8 * j)).take 8)) := by
  simp [packRow, hj]

/-- Bit 7 - k of byte j of a row is its pixel 8j + k. -/
theorem packByte_take_drop_getLsbD (row : List Bool) (j : Nat) {k : Nat} (hk : k < 8) :
    (packByte ((row.drop (8 * j)).take 8)).getLsbD (7 - k) = (row[8 * j + k]?).getD false := by
  rw [packByte_getLsbD _ hk, List.getD_eq_getElem?_getD, List.getElem?_take_of_lt hk, List.getElem?_drop]

/-- R60: as many bytes for each row, whatever its pixels. -/
theorem packImage_length (w : Nat) (img : BitImage) : (packImage w img).length = img.length * ((w + 7) / 8) := by
  simp [packImage, List.length_flatMap]

/-- Byte j of row y of the serialised image is byte j of the serialised row y. -/
theorem packImage_getElem? {w j : Nat} (hj : j < (w + 7) / 8) : ∀ (img : BitImage) (y : Nat),
    (packImage w img)[y * ((w + 7) / 8) + j]? = (img[y]?).bind fun row => (packRow w row)[j]?
  | [], _ => rfl
  | row :: rest, 0 => by
    rw [packImage, List.flatMap_cons, Nat.zero_mul, Nat.zero_add, List.getElem?_append_left (by simpa using hj)]
    rfl
  | row :: rest, y + 1 => by
    have hplace : (y + 1) * ((w + 7) / 8) + j = (packRow w row).length + (y * ((w + 7) / 8) + j) := by
      rw [packRow_length, Nat.add_mul, Nat.one_mul]
      omega
    rw [packImage, List.flatMap_cons, hplace, List.getElem?_append_right (Nat.le_add_right _ _), Nat.add_sub_cancel_left]
    exact packImage_getElem? hj rest y

/-- Settles O6: the bytes of an image are found row by row, and the bits of a byte pixel by pixel. -/
theorem serialisedImageIsRowsOfLeftFirstBytes : Obligations.SerialisedImageIsRowsOfLeftFirstBytes := by
  unfold Obligations.SerialisedImageIsRowsOfLeftFirstBytes
  intro h w img hshape
  obtain ⟨hrows, -⟩ := (hasShape_iff h w img).mp hshape
  refine ⟨by rw [packImage_length, hrows], fun y hy j hj => ?_⟩
  obtain ⟨row, hrow⟩ : ∃ row, img[y]? = some row := ⟨_, List.getElem?_eq_getElem (hrows ▸ hy)⟩
  refine ⟨packByte ((row.drop (8 * j)).take 8), ?_, fun k hk => ?_⟩
  · rw [packImage_getElem? hj, hrow, Option.bind_some, packRow_getElem? row hj]
  · rw [packByte_take_drop_getLsbD row j hk, pixel, hrow, Option.bind_some]

end Sys2Proof.Machine
end

section
/-! The words of the front end: the native read and the byte swap (R75, R76), and the channel expansion (R78, R83). A shift, a mask and
an OR of aligned parts are concatenations, and every law is read off those. -/

namespace Sys2Proof.Machine

/-! ### Shifts and masks as concatenations -/

theorem zero_append_eq_setWidth {n : Nat} (k : Nat) (x : BitVec n) : 0#k ++ x = x.setWidth (k + n) := by
  rw [← BitVec.setWidth_eq (0#k ++ x), BitVec.setWidth_append_eq_shiftLeft_setWidth_or, BitVec.setWidth_zero,
    BitVec.zero_shiftLeft, BitVec.zero_or]

theorem setWidth_shiftLeft_eq_append_zero {n : Nat} (k : Nat) (x : BitVec n) : x.setWidth (n + k) <<< k = x ++ 0#k := by
  rw [← BitVec.setWidth_eq (x ++ 0#k), BitVec.setWidth_append_eq_shiftLeft_setWidth_or, BitVec.setWidth_zero, BitVec.or_zero]

theorem append_ushiftRight {m n : Nat} (x : BitVec m) (y : BitVec n) : (x ++ y) >>> n = x.setWidth (m + n) := by
  apply BitVec.eq_of_getLsbD_eq
  intro i hi
  simp [BitVec.getLsbD_append, hi]

/-- A mask of high bits keeps the high field over zeros. -/
theorem and_highMask {n k : Nat} (x : BitVec (n + k)) : x &&& (BitVec.allOnes n ++ 0#k) = x.extractLsb' k n ++ 0#k := by
  conv_lhs => rw [← BitVec.extractLsb'_append_extractLsb' (x := x)]
  rw [BitVec.and_append, BitVec.and_allOnes, BitVec.and_zero]

/-- A mask of low bits keeps the low field below zeros. -/
theorem and_lowMask {n k : Nat} (x : BitVec (n + k)) :
    x &&& (0#n ++ BitVec.allOnes k) = (x.extractLsb' 0 k).setWidth (n + k) := by
  conv_lhs => rw [← BitVec.extractLsb'_append_extractLsb' (x := x)]
  rw [BitVec.and_append, BitVec.and_allOnes, BitVec.and_zero, zero_append_eq_setWidth]

theorem and_0xF8 (x : Byte) : x &&& 0xF8 = x.extractLsb' 3 5 ++ 0#3 := and_highMask (n := 5) (k := 3) x

theorem and_0xFC (x : Byte) : x &&& 0xFC = x.extractLsb' 2 6 ++ 0#2 := and_highMask (n := 6) (k := 2) x

theorem and_0xE0 (x : Byte) : x &&& 0xE0 = x.extractLsb' 5 3 ++ 0#5 := and_highMask (n := 3) (k := 5) x

theorem and_0x07 (x : Byte) : x &&& 0x07 = (x.extractLsb' 0 3).setWidth 8 := and_lowMask (n := 5) (k := 3) x

theorem and_0x1F (x : Byte) : x &&& 0x1F = (x.extractLsb' 0 5).setWidth 8 := and_lowMask (n := 3) (k := 5) x

theorem extractLsb'_ushiftRight {w : Nat} (x : BitVec w) (j k n : Nat) :
    (x >>> j).extractLsb' k n = x.extractLsb' (j + k) n := by
  apply BitVec.eq_of_getLsbD_eq
  intro i hi
  simp [Nat.add_assoc]

theorem extractLsb'_shiftLeft {w k n : Nat} (x : BitVec w) (h : k + n ≤ w) :
    (x <<< k).extractLsb' k n = x.extractLsb' 0 n := by
  apply BitVec.eq_of_getLsbD_eq
  intro i hi
  have hbit : k + i < w := by omega
  simp [-BitVec.getLsbD_eq_getElem, hbit]

/-! ### The native read and the byte swap -/

theorem rd16le_eq_append (b0 b1 : Byte) : rd16le b0 b1 = b1 ++ b0 := by
  rw [rd16le, BitVec.or_comm, ← BitVec.setWidth_append_eq_shiftLeft_setWidth_or, BitVec.setWidth_eq]

theorem bswap16_append (hi lo : Byte) : bswap16 (hi ++ lo) = lo ++ hi := by
  have hlow : (hi ++ lo) &&& (0xFF : BitVec 16) = lo.setWidth 16 := by
    rw [show (0xFF : BitVec 16) = 0#8 ++ BitVec.allOnes 8 from rfl, and_lowMask, BitVec.extractLsb'_append_eq_right]
  rw [bswap16, hlow, append_ushiftRight, ← BitVec.setWidth_append_eq_shiftLeft_setWidth_or, BitVec.setWidth_eq]

theorem bswap16_eq_append (w : BitVec 16) : bswap16 w = w.extractLsb' 0 8 ++ w.extractLsb' 8 8 := by
  have hw : w.extractLsb' 8 8 ++ w.extractLsb' 0 8 = w := BitVec.extractLsb'_append_extractLsb' (w := 8)
  rw [← bswap16_append, hw]

/-- R41: a normalised sample has the byte of the lower address in its high half. -/
theorem bswap16_rd16le (b0 b1 : Byte) : bswap16 (rd16le b0 b1) = b0 ++ b1 := by
  rw [rd16le_eq_append, bswap16_append]

/-- Settles O7: the read and the swap are concatenations of the bytes, and swapping a concatenation twice restores it. -/
theorem nativeReadIsLittleEndianAndSwapExchangesBytes :
    Obligations.NativeReadIsLittleEndianAndSwapExchangesBytes := by
  unfold Obligations.NativeReadIsLittleEndianAndSwapExchangesBytes
  refine ⟨rd16le_eq_append, bswap16_eq_append, fun w => ?_⟩
  rw [bswap16_eq_append w, bswap16_append, BitVec.extractLsb'_append_extractLsb' (w := 8)]

/-! ### The channel expansion -/

/-- R78: each channel is its field over zeros. -/
theorem expand565_eq_append (s : Sample) : expand565 s =
    { r := s.extractLsb' 11 5 ++ 0#3, g := s.extractLsb' 5 6 ++ 0#2, b := s.extractLsb' 0 5 ++ 0#3 } := by
  simp only [← setWidth_shiftLeft_eq_append_zero, expand565]

/-- R78: each channel as a masked shift of the sample. -/
theorem expand565_eq_masked (s : Sample) : expand565 s =
    { r := (s >>> 8).setWidth 8 &&& 0xF8, g := (s >>> 3).setWidth 8 &&& 0xFC, b := (s <<< 3).setWidth 8 &&& 0xF8 } := by
  have hr : (s >>> 8).setWidth 8 &&& (0xF8 : Byte) = s.extractLsb' 11 5 ++ 0#3 := by
    rw [and_0xF8, BitVec.extractLsb'_setWidth_of_le (by decide),
      extractLsb'_ushiftRight]
  have hg : (s >>> 3).setWidth 8 &&& (0xFC : Byte) = s.extractLsb' 5 6 ++ 0#2 := by
    rw [and_0xFC, BitVec.extractLsb'_setWidth_of_le (by decide),
      extractLsb'_ushiftRight]
  have hb : (s <<< 3).setWidth 8 &&& (0xF8 : Byte) = s.extractLsb' 0 5 ++ 0#3 := by
    rw [and_0xF8, BitVec.extractLsb'_setWidth_of_le (by decide),
      extractLsb'_shiftLeft s (by decide)]
  rw [expand565_eq_append, hr, hg, hb]

/-- R57, R83: a sample is its three fields. -/
theorem sample_eq_fields (s : Sample) : s = s.extractLsb' 11 5 ++ s.extractLsb' 5 6 ++ s.extractLsb' 0 5 := by
  have hhigh : s.extractLsb' 11 5 ++ s.extractLsb' 5 6 = s.extractLsb' 5 11 :=
    BitVec.extractLsb'_append_extractLsb'_eq_extractLsb' rfl
  rw [hhigh]
  exact (BitVec.extractLsb'_append_extractLsb' (w := 11) (len := 5)).symm

/-- The green field of a normalised sample lies across its two bytes. -/
theorem green_append (b0 b1 : Byte) : (b0 ++ b1).extractLsb' 5 6 = b0.extractLsb' 0 3 ++ b1.extractLsb' 5 3 := by
  have h0 : (b0 ++ b1).extractLsb' 8 3 = b0.extractLsb' 0 3 := BitVec.extractLsb'_append_eq_of_le (by decide)
  have h1 : (b0 ++ b1).extractLsb' 5 3 = b1.extractLsb' 5 3 := BitVec.extractLsb'_append_eq_of_add_le (by decide)
  rw [← h0, ← h1]
  exact (BitVec.extractLsb'_append_extractLsb'_eq_extractLsb' (len₁ := 3) (len₂ := 3) rfl).symm

/-- R85: the expansion of a normalised sample in terms of its two bytes. -/
theorem expand565_append (b0 b1 : Byte) : expand565 (b0 ++ b1) =
    { r := b0 &&& 0xF8, g := ((b0 &&& 0x07) <<< 5) ||| ((b1 &&& 0xE0) >>> 3), b := (b1 &&& 0x1F) <<< 3 } := by
  have hr : (b0 ++ b1).extractLsb' 11 5 ++ 0#3 = b0 &&& 0xF8 := by
    rw [and_0xF8, BitVec.extractLsb'_append_eq_of_le (by decide)]
  have hg : (b0 ++ b1).extractLsb' 5 6 ++ 0#2 = ((b0 &&& 0x07) <<< 5) ||| ((b1 &&& 0xE0) >>> 3) := by
    have hzeros : b1.extractLsb' 5 3 ++ 0#5 = b1.extractLsb' 5 3 ++ 0#2 ++ 0#3 :=
      (BitVec.append_assoc (x₂ := 0#2) (x₃ := 0#3)).symm
    rw [green_append, and_0x07, and_0xE0, hzeros, append_ushiftRight, ← BitVec.setWidth_append_eq_shiftLeft_setWidth_or,
      BitVec.setWidth_eq]
    exact BitVec.append_assoc
  have hb : (b0 ++ b1).extractLsb' 0 5 ++ 0#3 = (b1 &&& 0x1F) <<< 3 := by
    rw [and_0x1F, BitVec.extractLsb'_append_eq_of_add_le (by decide), ← setWidth_shiftLeft_eq_append_zero]
  rw [expand565_eq_append, hr, hg, hb]

/-- Settles O9: the channels as fields over zeros, whose parts are read off, and as masked shifts. -/
theorem expandedChannelsHoldTheFieldsAboveZeros : Obligations.ExpandedChannelsHoldTheFieldsAboveZeros := by
  unfold Obligations.ExpandedChannelsHoldTheFieldsAboveZeros
  intro s
  have hmasked := expand565_eq_masked s
  have happend := expand565_eq_append s
  have hr : (expand565 s).r.extractLsb' 3 5 = s.extractLsb' 11 5 := by
    rw [happend]; exact BitVec.extractLsb'_append_eq_left
  have hg : (expand565 s).g.extractLsb' 2 6 = s.extractLsb' 5 6 := by
    rw [happend]; exact BitVec.extractLsb'_append_eq_left
  have hb : (expand565 s).b.extractLsb' 3 5 = s.extractLsb' 0 5 := by
    rw [happend]; exact BitVec.extractLsb'_append_eq_left
  refine ⟨rfl, congrArg Triple.r hmasked, rfl, congrArg Triple.g hmasked, rfl, congrArg Triple.b hmasked, ?_, ?_, ?_,
    hr, hg, hb, ?_⟩
  · rw [happend]; exact BitVec.extractLsb'_append_eq_right
  · rw [happend]; exact BitVec.extractLsb'_append_eq_right
  · rw [happend]; exact BitVec.extractLsb'_append_eq_right
  · rw [hr, hg, hb]
    exact sample_eq_fields s

end Sys2Proof.Machine
end

section
/-! The operations of the front end: NRM (R77), EXP (R79), ASM (R81), and their composite (R85). -/

namespace Sys2Proof.Machine

/-- R45: the place in scan order of a pixel of the image is that of a sample. -/
theorem scanIndex_lt_samples {c : Configuration} {y x : Nat} (hy : y < c.h) (hx : x < c.w) : y * c.w + x < c.samples :=
  calc y * c.w + x < y * c.w + c.w := Nat.add_lt_add_left hx _
    _ = (y + 1) * c.w := (Nat.succ_mul y c.w).symm
    _ ≤ c.h * c.w := Nat.mul_le_mul_right c.w hy
    _ = c.samples := Nat.mul_comm c.h c.w

/-! ### Each operation completes on an operand of its size -/

theorem exec_nrm_of_raw {s : State} {raw : List Byte} (hraw : s.buf.raw = some raw) (hlen : raw.length = s.cfg.bytes) :
    exec .nrm s = .next ((s.setBuf { s.buf with samp := some (normalise raw) }).setPhase 3) := by
  have hread : s.readRaw = .ok raw := (readBuffer_eq_ok ..).mpr ⟨hraw, by simpa using hlen⟩
  show execNrm s = _
  rw [execNrm, hread, withBuffer_ok]

theorem exec_exp_of_samp {s : State} {samp : List Sample} (hsamp : s.buf.samp = some samp)
    (hlen : samp.length = s.cfg.samples) :
    exec .exp s = .next ((s.setBuf { s.buf with
      tri := some (expandAll samp), raw := none, rawLen := none, samp := none }).setPhase 4) := by
  have hread : s.readSamp = .ok samp := (readBuffer_eq_ok ..).mpr ⟨hsamp, by simpa using hlen⟩
  show execExp s = _
  rw [execExp, hread, withBuffer_ok]

theorem exec_asm_of_tri {s : State} {tri : List Triple} (htri : s.buf.tri = some tri) (hlen : tri.length = s.cfg.samples) :
    exec .asm s = .next ((s.setBuf { s.buf with
      full := some (assemble s.cfg.w s.cfg.h tri), tri := none }).setPhase 5) := by
  have hread : s.readTri = .ok tri := (readBuffer_eq_ok ..).mpr ⟨htri, rfl⟩
  show execAsm s = _
  rw [execAsm, hread, withBuffer_ok, if_neg (not_not_intro hlen)]

/-! ### What the operations put where -/

/-- R77: half as many samples as bytes. -/
theorem normalise_length_of_bytes {c : Configuration} {raw : List Byte} (hlen : raw.length = c.bytes) :
    (normalise raw).length = c.samples := by
  rw [normalise_length, hlen, Configuration.bytes, Nat.mul_div_cancel_left _ Nat.two_pos]

/-- R77, R41: sample i is byte 2i followed by byte 2i + 1, and a snapshot of the right length has both. -/
theorem exists_bytes_of_sample {c : Configuration} {raw : List Byte} (hlen : raw.length = c.bytes) {i : Nat}
    (hi : i < c.samples) :
    ∃ b0 b1, raw[2 * i]? = some b0 ∧ raw[2 * i + 1]? = some b1 ∧ (normalise raw)[i]? = some (b0 ++ b1) := by
  have hlast : 2 * i + 1 < raw.length := by rw [hlen, Configuration.bytes]; omega
  have h0 := List.getElem?_eq_getElem (Nat.lt_of_succ_lt hlast)
  have h1 := List.getElem?_eq_getElem hlast
  exact ⟨_, _, h0, h1, by rw [normalise_getElem? raw i _ _ h0 h1, bswap16_rd16le]⟩

/-- R79: triple i is sample i expanded. -/
theorem expandAll_getElem? {samp : List Sample} {i : Nat} {x : Sample} (hx : samp[i]? = some x) :
    (expandAll samp)[i]? = some (expand565 x) := by
  rw [expandAll, List.getElem?_map, hx, Option.map_some]

/-- Settles O8: RAW is normalised pair by pair, and a snapshot of the right length has both bytes of every pair. -/
theorem nrmSwapsEverySample : Obligations.NrmSwapsEverySample := by
  unfold Obligations.NrmSwapsEverySample
  refine ⟨rfl, fun s raw hraw hlen => ⟨normalise raw, normalise_length_of_bytes hlen, ?_, exec_nrm_of_raw hraw hlen⟩⟩
  exact fun i hi => exists_bytes_of_sample hlen hi

/-- Settles O10: SAMP is expanded sample by sample; the model drops RAW_LEN and SAMP with RAW. -/
theorem expExpandsEverySample : Obligations.ExpExpandsEverySample := by
  unfold Obligations.ExpExpandsEverySample
  refine ⟨rfl, fun s samp hsamp hlen => ⟨expandAll samp, none, none, ?_, fun i x hx => ?_, exec_exp_of_samp hsamp hlen⟩⟩
  · rw [expandAll_length, hlen]
  · rw [expandAll_getElem? hx, expand565_eq_masked]

/-- Settles O11: TRI is cut into rows of W; the model drops TRI. -/
theorem asmArrangesRowMajor : Obligations.AsmArrangesRowMajor := by
  unfold Obligations.AsmArrangesRowMajor
  refine ⟨rfl, fun s tri htri hlen => ⟨assemble s.cfg.w s.cfg.h tri, none, assemble_hasShape _ _ _ hlen, ?_,
    exec_asm_of_tri htri hlen⟩⟩
  exact fun y hy x hx => assemble_pixel _ _ _ y x hy hx

/-- Settles O13: the three operations complete one after the other, and a pixel is the expansion of the two bytes of its sample. -/
theorem frontEndIsTheCompositeOfThreeStages : Obligations.FrontEndIsTheCompositeOfThreeStages := by
  unfold Obligations.FrontEndIsTheCompositeOfThreeStages
  intro s raw hraw hlen
  have hsamp : (normalise raw).length = s.cfg.samples := normalise_length_of_bytes hlen
  have htri : (expandAll (normalise raw)).length = s.cfg.samples := (expandAll_length _).trans hsamp
  refine ⟨_, _, _, assemble s.cfg.w s.cfg.h (expandAll (normalise raw)), exec_nrm_of_raw hraw hlen, exec_exp_of_samp rfl hsamp,
    exec_asm_of_tri rfl htri, rfl, assemble_hasShape _ _ _ htri, fun y hy x hx => ?_⟩
  obtain ⟨b0, b1, h0, h1, hsample⟩ := exists_bytes_of_sample hlen (scanIndex_lt_samples hy hx)
  refine ⟨b0, b1, expand565 (b0 ++ b1), h0, h1, ?_, ?_⟩
  · rw [assemble_pixel _ _ _ y x hy hx, expandAll_getElem? hsample]
  · rw [expand565_append]
    exact ⟨rfl, rfl, rfl⟩

end Sys2Proof.Machine
end

section
/-! The resampler: the rows of an admitted table sum to 2^P (R93), the filter of one value (R94), and RSZ (R95). -/

namespace Sys2Proof.Machine

/-! ### The rows of a table -/

theorem nearestTap_lt_length : ∀ {ts : List Nat}, ts ≠ [] → nearestTap ts < ts.length
  | [], h => absurd rfl h
  | t :: rest, _ => by
    rw [nearestTap]
    split
    · simp
    · next hleast =>
      have hrest : rest ≠ [] := by rintro rfl; simp at hleast
      simpa using nearestTap_lt_length hrest

/-- R93: the coefficient that is fixed up brings the sum to 2^P. -/
theorem fixUp_sum {p j : Nat} {qs : List Int} (hj : j < qs.length) : (fixUp p j qs).sum = 2 ^ p := by
  rw [fixUp, List.modify_eq_set_get _ hj, List.sum_set', dif_pos hj, List.get_eq_getElem, Nat.cast_pow, Nat.cast_ofNat]
  ring

@[simp] theorem quantisedWeights_length (p nIn nOut o : Nat) : (quantisedWeights p nIn nOut o).length = windowLen nIn nOut o := by
  simp [quantisedWeights, weights]

@[simp] theorem coefRow_coefs_length (p nIn nOut o : Nat) : (coefRow p nIn nOut o).coefs.length = windowLen nIn nOut o := by
  simp [coefRow, fixUp]

/-- R93: the coefficients of a row with taps sum to exactly 2^P. -/
theorem coefRow_coefs_sum {nIn nOut o : Nat} (p : Nat) (h : 0 < windowLen nIn nOut o) : (coefRow p nIn nOut o).coefs.sum = 2 ^ p := by
  refine fixUp_sum ?_
  rw [quantisedWeights_length]
  simpa using nearestTap_lt_length (ts := (List.range (windowLen nIn nOut o)).map fun k => (tapNumerator nIn nOut o k).natAbs)
    (by simpa using h.ne')

/-- R98: what an admitted row has been tested for. -/
theorem rowMeetsObligations_iff {nIn nOut o : Nat} {row : CoefRow} : rowMeetsObligations nIn nOut o row = true ↔
    0 < (weightSum (weights 0 nIn nOut o)).lo ∧ (∀ c ∈ row.coefs, c.natAbs < 2 ^ 17)
      ∧ (row.coefs.map Int.natAbs).sum < 2 ^ 17 := by
  simp [rowMeetsObligations, and_assoc]

/-- R91, R98: a window with a positive sum of weights is not empty. -/
theorem windowLen_pos_of_weightSum {level nIn nOut o : Nat} (h : 0 < (weightSum (weights level nIn nOut o)).lo) :
    0 < windowLen nIn nOut o := by
  by_contra hempty
  simp [weightSum, weights, Nat.eq_zero_of_not_pos hempty] at h

/-- R93, R98: the rows of an admitted table sum to 2^P, their magnitudes to less than 2^17. -/
theorem axisTable_sums {p nIn nOut : Nat} {rows : List CoefRow} {row : CoefRow} (h : axisTable p nIn nOut = some rows)
    (hrow : row ∈ rows) : row.coefs.sum = 2 ^ p ∧ (row.coefs.map Int.natAbs).sum < 2 ^ 17 := by
  obtain ⟨o, ho⟩ := List.mem_iff_getElem?.mp hrow
  obtain ⟨_, rfl, hmeets⟩ := axisTable_getElem? h ho
  obtain ⟨hpos, _, hsum⟩ := rowMeetsObligations_iff.mp hmeets
  exact ⟨coefRow_coefs_sum p (windowLen_pos_of_weightSum hpos), hsum⟩

/-- R10, R98: a table is admitted with at most 16 fraction bits, for its rows' magnitudes sum to at least 2^P. -/
theorem axisTable_coefP_le {p nIn nOut : Nat} {rows : List CoefRow} {row : CoefRow} (h : axisTable p nIn nOut = some rows)
    (hrow : row ∈ rows) : p ≤ 16 := by
  obtain ⟨hsum, habs⟩ := axisTable_sums h hrow
  have hpow : 2 ^ p < 2 ^ 17 := calc
    2 ^ p = row.coefs.sum.natAbs := by rw [hsum]; norm_cast
    _ ≤ (row.coefs.map Int.natAbs).sum := List.le_sum_of_subadditive _ le_rfl Int.natAbs_add_le _
    _ < 2 ^ 17 := habs
  exact Nat.le_of_lt_succ ((Nat.pow_lt_pow_iff_right Nat.one_lt_two).mp hpow)

/-! ### The filter of one value -/

/-- A sum of products of two lists, the second long enough, over the places of the first. -/
theorem sum_zipWith_eq_sum_getD : ∀ (cs : List Int) (vs : List Byte), cs.length ≤ vs.length →
    (List.zipWith (fun c v => c * (v.toNat : Int)) cs vs).sum
      = ∑ k ∈ Finset.range cs.length, cs.getD k 0 * ((vs.getD k 0).toNat : Int)
  | [], _, _ => by simp
  | _ :: _, [], h => absurd h (by simp)
  | c :: cs, v :: vs, h => by
    have ih := sum_zipWith_eq_sum_getD cs vs (by simpa using h)
    simp only [List.zipWith_cons_cons, List.sum_cons, ih, List.length_cons, Finset.sum_range_succ', List.getD_cons_succ,
      List.getD_cons_zero, add_comm]

/-- R94: the accumulator, its sum written out over the taps. -/
theorem firAcc_eq_sum {p : Nat} {row : CoefRow} {src : List Byte} (h : row.lo + row.coefs.length ≤ src.length) :
    firAcc p row src = 2 ^ (p - 1)
      + ∑ k ∈ Finset.range row.coefs.length, row.coefs.getD k 0 * ((src.getD (row.lo + k) 0).toNat : Int) := by
  rw [firAcc, sum_zipWith_eq_sum_getD _ _ (by rw [List.length_drop]; omega)]
  simp [List.getD_eq_getElem?_getD]

theorem fir_toNat (p : Nat) (row : CoefRow) (src : List Byte) :
    ((fir p row src).toNat : Int) = max 0 (min 255 (firAcc p row src / 2 ^ p)) := by
  rw [fir, clamp8_toNat, asr, Nat.cast_pow, Nat.cast_ofNat]

/-- A byte is at most 255, so a sum of products with bytes is at most 255 times the sum of the coefficients' magnitudes. -/
theorem natAbs_sum_zipWith_le : ∀ (cs : List Int) (vs : List Byte),
    (List.zipWith (fun c v => c * (v.toNat : Int)) cs vs).sum.natAbs ≤ 255 * (cs.map Int.natAbs).sum
  | [], _ => by simp
  | _ :: _, [] => by simp
  | c :: cs, v :: vs => by
    have hterm : (c * (v.toNat : Int)).natAbs ≤ 255 * c.natAbs := by
      rw [Int.natAbs_mul, Int.natAbs_natCast, Nat.mul_comm]
      exact Nat.mul_le_mul_right _ (Nat.le_of_lt_succ v.isLt)
    simp only [List.zipWith_cons_cons, List.sum_cons, List.map_cons, Nat.mul_add]
    exact (Int.natAbs_add_le _ _).trans (Nat.add_le_add hterm (natAbs_sum_zipWith_le cs vs))

/-- R94, R98: the accumulator is within 2^15 + 255 * (2^17 - 1) of 0, whatever the line. -/
theorem firAcc_natAbs_lt {p : Nat} {row : CoefRow} (src : List Byte) (hp : p ≤ 16)
    (habs : (row.coefs.map Int.natAbs).sum < 2 ^ 17) : (firAcc p row src).natAbs < 2 ^ 31 := by
  have hhalf : 2 ^ (p - 1) ≤ 2 ^ 15 := Nat.pow_le_pow_right Nat.two_pos (by omega)
  have htaps := natAbs_sum_zipWith_le row.coefs (src.drop row.lo)
  calc (firAcc p row src).natAbs ≤ 2 ^ (p - 1) + _ := Int.natAbs_add_le _ _
    _ ≤ 2 ^ 15 + 255 * (2 ^ 17 - 1) := Nat.add_le_add hhalf (htaps.trans (by omega))
    _ < 2 ^ 31 := by decide

/-- Settles O17: the taps of a window inside the line are those of the zip, and an admitted table has at most 16 fraction bits. -/
theorem filterSumsTheTapsWithin32Bits : Obligations.FilterSumsTheTapsWithin32Bits := by
  unfold Obligations.FilterSumsTheTapsWithin32Bits
  refine ⟨fun p row src _ hwindow => ⟨firAcc_eq_sum hwindow, fir_toNat p row src, fun hp habs => ?_⟩,
    fun p nIn nOut rows row htable hrow => ?_⟩
  · have hacc := firAcc_natAbs_lt src hp habs
    omega
  · obtain ⟨_, habs⟩ := axisTable_sums htable hrow
    refine ⟨habs, fun src => ?_⟩
    have hacc := firAcc_natAbs_lt src (axisTable_coefP_le htable hrow) habs
    omega

/-! ### RSZ -/

theorem exec_rsz_of_full {s : State} {full : Image} {hor ver : List CoefRow} (hfull : s.buf.full = some full)
    (hshape : hasShape s.cfg.h s.cfg.w full = true) (hkernel : s.cfg.kernel = 0) (htables : coefTables s.cfg = some (hor, ver)) :
    exec .rsz s = .next ((s.setBuf { s.buf with
      rsz := some (resample s.cfg.coefP s.cfg.dw hor ver full), full := none, tmp := none }).setPhase 6) := by
  have hread : s.readFull = .ok full := (readBuffer_eq_ok ..).mpr ⟨hfull, hshape⟩
  show execRsz s = _
  rw [execRsz, hread, withBuffer_ok, if_neg (not_not_intro hkernel), htables]

/-- R87 (c): each channel of a filtered line is the filter of that channel. -/
theorem channel_firTriple {ch : Triple → Byte} (hch : ch ∈ channels) (p : Nat) (row : CoefRow) (line : List Triple) :
    ch (firTriple p row line) = fir p row (line.map ch) := by
  simp only [channels, List.mem_cons, List.not_mem_nil, or_false] at hch
  rcases hch with rfl | rfl | rfl <;> rfl

theorem horizontalPass_hasShape {h : Nat} {full : Image} (p : Nat) (table : List CoefRow) (hh : full.length = h) :
    hasShape h table.length (horizontalPass p table full) = true := by
  simp [hasShape_iff, horizontalPass, hh]

/-- R95: column x of row y of TMP is row y of FULL under the filter of position x. -/
theorem horizontalPass_pixel {p : Nat} {table : List CoefRow} {full : Image} {y x : Nat} {line : List Triple} {row : CoefRow}
    (hline : full[y]? = some line) (hrow : table[x]? = some row) :
    pixel (horizontalPass p table full) y x = some (firTriple p row line) := by
  simp [pixel, horizontalPass, hline, hrow]

/-- R95: column x of row o of RSZ is column x of TMP under the filter of position o. -/
theorem verticalPass_pixel {p dw : Nat} {table : List CoefRow} {tmp : Image} {o x : Nat} {row : CoefRow}
    (hrow : table[o]? = some row) (hx : x < dw) :
    pixel (verticalPass p dw table tmp) o x = some (firTriple p row (column x tmp)) := by
  simp [pixel, verticalPass, hrow, hx]

/-- A column of a grid with rows long enough for it holds the pixels at that place of each row. -/
theorem column_getElem? {α : Type} {x : Nat} : ∀ {grid : List (List α)}, (∀ row ∈ grid, x < row.length) →
    ∀ y, (column x grid)[y]? = pixel grid y x
  | [], _, _ => rfl
  | row :: grid, h, y => by
    have hcons : column x (row :: grid) = row[x]'(h row List.mem_cons_self) :: column x grid :=
      List.filterMap_cons_some (List.getElem?_eq_getElem _)
    cases y with
    | zero => simp [hcons, pixel]
    | succ y =>
      rw [hcons, List.getElem?_cons_succ, column_getElem? (fun r hr => h r (List.mem_cons_of_mem _ hr))]
      rfl

/-- A list that lists a channel of the pixels of a column is that channel of the column. -/
theorem eq_map_column {ch : Triple → Byte} {h w x : Nat} {grid : Image} {col : List Byte} (hshape : hasShape h w grid = true)
    (hx : x < w) (hlen : col.length = h) (hcol : ∀ y < h, col[y]? = (pixel grid y x).map ch) : col = (column x grid).map ch := by
  obtain ⟨hrows, hcols⟩ := (hasShape_iff ..).mp hshape
  refine List.ext_getElem? fun y => ?_
  rw [List.getElem?_map, column_getElem? (fun row hrow => (hcols row hrow).symm ▸ hx)]
  by_cases hy : y < h
  · exact hcol y hy
  · rw [List.getElem?_eq_none (by omega), pixel, List.getElem?_eq_none (by omega)]
    rfl

/-- Settles O18: TMP is the horizontal pass over FULL and RSZ the vertical pass over TMP, each pixel of either one filtered line. -/
theorem rszFiltersRowsThenColumns : Obligations.RszFiltersRowsThenColumns := by
  unfold Obligations.RszFiltersRowsThenColumns
  refine ⟨rfl, fun s full hor ver hfull hshape hkernel htables => ?_⟩
  obtain ⟨hhor, hver⟩ := coefTables_eq_some htables
  have htmp : hasShape s.cfg.h s.cfg.dw (horizontalPass s.cfg.coefP hor full) = true :=
    axisTable_length hhor ▸ horizontalPass_hasShape _ hor ((hasShape_iff ..).mp hshape).1
  refine ⟨horizontalPass s.cfg.coefP hor full, resample s.cfg.coefP s.cfg.dw hor ver full, htmp,
    resample_hasShape _ _ _ hor ver full (axisTable_length hver), ?_, ?_, exec_rsz_of_full hfull hshape hkernel htables⟩
  · intro ch hch y x line rh hline hrh
    rw [horizontalPass_pixel hline hrh, Option.map_some, channel_firTriple hch]
  · intro ch hch o x rv col hrv hx hlen hcol
    rw [resample, verticalPass_pixel hrv hx, Option.map_some, channel_firTriple hch, eq_map_column htmp hx hlen hcol]

end Sys2Proof.Machine
end

section
/-! The sharpness filter: the operator on one value (R103), its reference (R101, R102), SHP (R104) and the laws of R105. -/

namespace Sys2Proof.Machine

/-! ### The operator -/

theorem clamp8_of_nonpos {v : Int} (h : v ≤ 0) : clamp8 v = 0 := by
  have := clamp8_toNat v
  have hzero : (clamp8 v).toNat = 0 := by omega
  exact BitVec.eq_of_toNat_eq hzero

theorem clamp8_of_ge {v : Int} (h : 255 ≤ v) : clamp8 v = 255 := by
  have := clamp8_toNat v
  have hmax : (clamp8 v).toNat = 255 := by omega
  exact BitVec.eq_of_toNat_eq hmax

theorem sharpen_toNat (f : Nat) (input blur : Int) :
    ((sharpen f input blur).toNat : Int) = max 0 (min 255 ((256 * blur + f * (input - blur) + 128) / 256)) :=
  clamp8_toNat _

/-- R103: at a whole factor k nothing is rounded. -/
theorem sharpen_wholeFactor (k : Nat) (input blur : Int) : sharpen (256 * k) input blur = clamp8 (blur + k * (input - blur)) := by
  have hwhole : 256 * blur + (256 * k : Nat) * (input - blur) + 128 = 128 + 256 * (blur + k * (input - blur)) := by
    push_cast
    ring
  have hdiv : asr (256 * blur + (256 * k : Nat) * (input - blur) + 128) 8 = blur + k * (input - blur) := by
    rw [hwhole, asr]
    omega
  rw [sharpen, hdiv]

theorem sharpen_512 (input blur : Int) : sharpen 512 input blur = clamp8 (input + (input - blur)) := by
  rw [sharpen_wholeFactor 2]
  congr 1
  ring

theorem sharpen_256 (input blur : Int) : sharpen 256 input blur = clamp8 input := by
  rw [sharpen_wholeFactor 1]
  congr 1
  ring

theorem sharpen_0 (input blur : Int) : sharpen 0 input blur = clamp8 blur := by
  rw [sharpen_wholeFactor 0]
  congr 1
  ring

/-- R102: a value sharpened against itself passes at every factor. -/
theorem sharpen_self (f : Nat) (v : Byte) : sharpen f v.toNat v.toNat = v := by
  have hround : asr (256 * (v.toNat : Int) + f * ((v.toNat : Int) - v.toNat) + 128) 8 = v.toNat := by
    rw [sub_self, mul_zero, asr]
    omega
  rw [sharpen, hround, clamp8_of_byte]

/-- R103: a 16-bit factor moves a byte by less than 2^24. -/
theorem abs_factor_mul_sub_lt (f : BitVec 16) (input blur : Byte) :
    |(f.toNat : Int) * ((input.toNat : Int) - blur.toNat)| < 2 ^ 24 := by
  have hf : |(f.toNat : Int)| ≤ 2 ^ 16 := by rw [abs_le]; omega
  have hdiff : |(input.toNat : Int) - blur.toNat| ≤ 255 := by rw [abs_le]; omega
  calc |(f.toNat : Int) * ((input.toNat : Int) - blur.toNat)|
      = |(f.toNat : Int)| * |(input.toNat : Int) - blur.toNat| := abs_mul _ _
    _ ≤ 2 ^ 16 * 255 := mul_le_mul hf hdiff (abs_nonneg _) (by norm_num)
    _ < 2 ^ 24 := by norm_num

/-- Settles O23: the saturated quotient of t, and no rounding at the three whole factors. -/
theorem sharpenAtTheNamedFactors : Obligations.SharpenAtTheNamedFactors := by
  unfold Obligations.SharpenAtTheNamedFactors
  refine fun input blur => ⟨fun f => ?_, ?_, ?_, ?_⟩
  · obtain ⟨hlow, hhigh⟩ := abs_lt.mp (abs_factor_mul_sub_lt f input blur)
    exact ⟨_, rfl, by omega, by omega, sharpen_toNat _ _ _⟩
  · rw [sharpen_512, clamp8_toNat, two_mul, add_sub_assoc]
  · rw [sharpen_256, clamp8_of_byte]
  · rw [sharpen_0, clamp8_of_byte]

/-! ### The pixels of a grid -/

/-- A grid has pixels inside its shape only. -/
theorem pixel_lt_of_hasShape {α : Type} {h w y x : Nat} {grid : List (List α)} {a : α} (hshape : hasShape h w grid = true)
    (ha : pixel grid y x = some a) : y < h ∧ x < w := by
  obtain ⟨hrows, hcols⟩ := (hasShape_iff ..).mp hshape
  obtain ⟨row, hrow, hx⟩ := Option.bind_eq_some_iff.mp ha
  obtain ⟨hy, rfl⟩ := List.getElem?_eq_some_iff.mp hrow
  obtain ⟨hx, -⟩ := List.getElem?_eq_some_iff.mp hx
  exact ⟨hrows ▸ hy, hcols _ (List.getElem_mem hy) ▸ hx⟩

theorem uniformGrid_hasShape {α : Type} (h w : Nat) (v : α) : hasShape h w (uniformGrid h w v) = true := by
  simp [hasShape, uniformGrid]

theorem uniformGrid_pixel {α : Type} {h w y x : Nat} (v : α) (hy : y < h) (hx : x < w) :
    pixel (uniformGrid h w v) y x = some v := by
  simp [pixel, uniformGrid, hy, hx]

theorem plane_pixel (ch : Triple → Byte) (img : Image) (y x : Nat) :
    pixel (plane ch img) y x = ((pixel img y x).map ch).map fun v => (v.toNat : Int) := by
  cases h : img[y]? <;> simp [pixel, plane, h, Function.comp_def]

/-! ### The reference -/

theorem onBorder_iff {dh dw y x : Nat} : onBorder dh dw y x = true ↔ x = 0 ∨ y = 0 ∨ x + 1 = dw ∨ y + 1 = dh := by
  simp [onBorder, or_assoc]

/-- R102: the reference of a border pixel is its own value. -/
theorem blurAt_of_onBorder {dh dw y x : Nat} (grid : List (List Int)) (centre : Int) (h : onBorder dh dw y x = true) :
    blurAt dh dw grid y x centre = centre := if_pos h

theorem neighbourhood_sum {grid : List (List Int)} {y x : Nat} {v : Nat → Nat → Int}
    (hv : ∀ dy < 3, ∀ dx < 3, pixel grid (y - 1 + dy) (x - 1 + dx) = some (v dy dx)) :
    (neighbourhood grid y x).sum = ∑ dy ∈ Finset.range 3, ∑ dx ∈ Finset.range 3, v dy dx := by
  have hrow : ∀ dy < 3,
      ((List.range 3).filterMap fun dx => pixel grid (y - 1 + dy) (x - 1 + dx)) = (List.range 3).map (v dy) := by
    intro dy hdy
    rw [← List.filterMap_eq_map]
    exact List.filterMap_congr fun dx hdx => hv dy hdy dx (List.mem_range.mp hdx)
  have hrows : neighbourhood grid y x = (List.range 3).flatMap fun dy => (List.range 3).map (v dy) := by
    rw [neighbourhood, List.filterMap_flatMap]
    refine List.flatMap_congr fun dy hdy => ?_
    rw [List.filterMap_map, Function.id_comp, hrow dy (List.mem_range.mp hdy)]
  rw [hrows]
  simp [List.range_succ, Finset.sum_range_succ, add_assoc]

/-- R101: the reference of an interior pixel, its nine neighbours read from the image. -/
theorem blurAt_of_interior {ch : Triple → Byte} {dh dw y x : Nat} {img : Image} {v : Nat → Nat → Byte} (centre : Int)
    (hx : 1 ≤ x) (hy : 1 ≤ y) (hborder : ¬ onBorder dh dw y x = true)
    (hv : ∀ dy < 3, ∀ dx < 3, (pixel img (y + dy - 1) (x + dx - 1)).map ch = some (v dy dx)) :
    blurAt dh dw (plane ch img) y x centre
      = ((∑ dy ∈ Finset.range 3, ∑ dx ∈ Finset.range 3, ((v dy dx).toNat : Int)) + 4 * centre + 6) / 13 := by
  have hplane : ∀ dy < 3, ∀ dx < 3, pixel (plane ch img) (y - 1 + dy) (x - 1 + dx) = some ((v dy dx).toNat : Int) := by
    intro dy hdy dx hdx
    rw [plane_pixel, ← Nat.sub_add_comm hy, ← Nat.sub_add_comm hx, hv dy hdy dx hdx, Option.map_some]
  rw [blurAt, if_neg hborder, blurInterior, blurSum, neighbourhood_sum hplane]

/-! ### The image -/

/-- A pixel of the sharpened image. -/
def sharpenedPixel (f dh dw : Nat) (img : Image) (y x : Nat) (px : Triple) : Triple where
  r := sharpenChannel f dh dw (plane Triple.r img) y x px.r
  g := sharpenChannel f dh dw (plane Triple.g img) y x px.g
  b := sharpenChannel f dh dw (plane Triple.b img) y x px.b

theorem sharpenImage_eq_mapIdx (f dh dw : Nat) (img : Image) :
    sharpenImage f dh dw img = img.mapIdx fun y row => row.mapIdx (sharpenedPixel f dh dw img y) := rfl

theorem sharpenImage_pixel (f dh dw : Nat) (img : Image) (y x : Nat) :
    pixel (sharpenImage f dh dw img) y x = (pixel img y x).map (sharpenedPixel f dh dw img y x) := by
  rw [sharpenImage_eq_mapIdx]
  cases h : img[y]? <;> simp [pixel, h]

/-- R104: each channel of a sharpened pixel is that channel sharpened. -/
theorem channel_sharpenedPixel {ch : Triple → Byte} (hch : ch ∈ channels) (f dh dw : Nat) (img : Image) (y x : Nat) (px : Triple) :
    ch (sharpenedPixel f dh dw img y x px) = sharpenChannel f dh dw (plane ch img) y x (ch px) := by
  simp only [channels, List.mem_cons, List.not_mem_nil, or_false] at hch
  rcases hch with rfl | rfl | rfl <;> rfl

/-- A triple is its three channels. -/
theorem eq_of_channels {p q : Triple} (h : ∀ ch ∈ channels, ch p = ch q) : p = q := by
  cases p
  cases q
  simpa [channels] using h

/-- R105: an image whose pixels are all their own reference passes at every factor. -/
theorem sharpenImage_eq_self {dh dw : Nat} {img : Image} (f : Nat)
    (hself : ∀ ch ∈ channels, ∀ y x px, pixel img y x = some px →
      blurAt dh dw (plane ch img) y x (ch px).toNat = (ch px).toNat) : sharpenImage f dh dw img = img := by
  have hpixel : ∀ y x px, pixel img y x = some px → sharpenedPixel f dh dw img y x px = px := by
    intro y x px hpx
    refine eq_of_channels fun ch hch => ?_
    rw [channel_sharpenedPixel hch, sharpenChannel, hself ch hch y x px hpx, sharpen_self]
  rw [sharpenImage_eq_mapIdx]
  refine List.ext_getElem List.length_mapIdx fun y _ hy => ?_
  rw [List.getElem_mapIdx]
  refine List.ext_getElem List.length_mapIdx fun x _ hx => ?_
  rw [List.getElem_mapIdx]
  exact hpixel y x _ (by simp [pixel, hy, hx])

theorem exec_shp_of_rsz {s : State} {img : Image} (hrsz : s.buf.rsz = some img)
    (hshape : hasShape s.cfg.dh s.cfg.dw img = true) :
    exec .shp s = .next ((s.setBuf { s.buf with
      enh := some (sharpenImage s.cfg.sharpF.toNat s.cfg.dh s.cfg.dw img), rsz := none }).setPhase 7) := by
  have hread : s.readRsz = .ok img := (readBuffer_eq_ok ..).mpr ⟨hrsz, hshape⟩
  show execShp s = _
  rw [execShp, hread, withBuffer_ok]

/-- Settles O24: each pixel of ENH is that of RSZ sharpened against its reference, in each channel. -/
theorem shpSharpensEveryPixel : Obligations.ShpSharpensEveryPixel := by
  unfold Obligations.ShpSharpensEveryPixel
  refine ⟨rfl, fun s img hrsz hshape => ⟨sharpenImage s.cfg.sharpF.toNat s.cfg.dh s.cfg.dw img,
    sharpenImage_hasShape _ _ _ _ _ img hshape, fun ch hch y x px hpx => ?_, exec_shp_of_rsz hrsz hshape⟩⟩
  refine ⟨_, by rw [sharpenImage_pixel, hpx, Option.map_some], blurAt s.cfg.dh s.cfg.dw (plane ch img) y x (ch px).toNat,
    ?_, fun hborder => ?_, fun hx hy hdw hdh v hv => ?_⟩
  · rw [channel_sharpenedPixel hch, sharpenChannel, sharpen_toNat]
  · exact blurAt_of_onBorder _ _ (onBorder_iff.mpr hborder)
  · exact blurAt_of_interior _ hx hy (by rw [onBorder_iff]; omega) hv

/-! ### The laws of R105 -/

/-- R105 (d): an image narrower or shorter than 3 has border pixels only. -/
theorem sharpenImage_of_small {dh dw : Nat} {img : Image} (f : Nat) (hshape : hasShape dh dw img = true)
    (hsmall : dw < 3 ∨ dh < 3) : sharpenImage f dh dw img = img := by
  refine sharpenImage_eq_self f fun ch _ y x px hpx => blurAt_of_onBorder _ _ (onBorder_iff.mpr ?_)
  obtain ⟨hy, hx⟩ := pixel_lt_of_hasShape hshape hpx
  omega

/-- R105 (a): the weights of the reference sum to 13, so in a uniform image it is the common value. -/
theorem sharpenImage_uniformGrid (f dh dw : Nat) (px : Triple) :
    sharpenImage f dh dw (uniformGrid dh dw px) = uniformGrid dh dw px := by
  refine sharpenImage_eq_self f fun ch _ y x q hq => ?_
  obtain ⟨hy, hx⟩ := pixel_lt_of_hasShape (uniformGrid_hasShape dh dw px) hq
  obtain rfl : px = q := Option.some.inj ((uniformGrid_pixel px hy hx).symm.trans hq)
  by_cases hborder : onBorder dh dw y x = true
  · exact blurAt_of_onBorder _ _ hborder
  · have hinside := mt onBorder_iff.mpr hborder
    rw [blurAt_of_interior (v := fun _ _ => ch px) _ (by omega) (by omega) hborder fun dy hdy dx hdx => by
      rw [uniformGrid_pixel px (by omega) (by omega), Option.map_some]]
    simp only [Finset.sum_const, Finset.card_range, nsmul_eq_mul, Nat.cast_ofNat]
    omega

/-- Settles O25: the pixels are their own references, and factor 2.0 saturates in + (in - blur). -/
theorem sharpeningKeepsUniformAndSmallImages : Obligations.SharpeningKeepsUniformAndSmallImages := by
  unfold Obligations.SharpeningKeepsUniformAndSmallImages
  refine ⟨fun f dh dw => ⟨sharpenImage_uniformGrid f dh dw, fun img => sharpenImage_of_small f⟩, fun input blur => ?_⟩
  rw [sharpen_512]
  refine ⟨_, rfl, by omega, by omega, fun h0 h255 => ?_, fun h => clamp8_of_nonpos h.le, fun h => clamp8_of_ge h.le, ?_, ?_⟩
  · rw [clamp8_toNat, min_eq_right h255, max_eq_right h0]
  · rintro rfl
    exact clamp8_of_nonpos (by simp)
  · rintro rfl
    have hsat : 255 ≤ 255 + (255 - (blur.toNat : Int)) := by omega
    exact clamp8_of_ge hsat

end Sys2Proof.Machine
end

section
/-! The error-diffusion ditherer: the reference luminance (R109), the sums that the accumulator holds (R110, R112, R113), one pixel and
its bounds (R111, R115), DTH (R114) and the conservation of brightness (R116).

What the accumulator holds is shown first as sums modulo 2^16, which needs no bound; the bound of the errors, by induction along the
scan, then shows that no sum wraps. -/

namespace Sys2Proof.Machine

/-! ### Luminance -/

theorem weightedSum_lt (px : Triple) : 19595 * px.r.toNat + 38470 * px.g.toNat + 7471 * px.b.toNat + 32768 < 2 ^ 24 := by
  have hr := px.r.isLt
  have hg := px.g.isLt
  have hb := px.b.isLt
  omega

theorem luma_reference_toNat (px : Triple) : (luma Configuration.reference.luma px).toNat
    = (19595 * px.r.toNat + 38470 * px.g.toNat + 7471 * px.b.toNat + 32768) / 65536 := by
  have hsum := weightedSum_lt px
  show (BitVec.ofNat 8 _).toNat = _
  rw [BitVec.toNat_ofNat]
  exact Nat.mod_eq_of_lt (by omega)

/-- R109: the weights sum to 65536. -/
theorem luma_reference_grey (u : Byte) : luma Configuration.reference.luma { r := u, g := u, b := u } = u := by
  refine BitVec.eq_of_toNat_eq ?_
  rw [luma_reference_toNat]
  dsimp only
  omega

/-- Settles O26: the sum is below 2^24, so the quotient fits the byte. -/
theorem luminanceIsTheWeightedMean : Obligations.LuminanceIsTheWeightedMean := by
  unfold Obligations.LuminanceIsTheWeightedMean
  exact ⟨by decide, fun px => ⟨weightedSum_lt px, luma_reference_toNat px⟩, luma_reference_grey,
    by decide, by decide, by decide, by decide⟩

/-! ### A row of the accumulator -/

/-- The first `dw` entries of the row hold these sums of shares, modulo 2^16. -/
def HoldsSums (dw : Nat) (row : AccRow) (sums : Nat → Int) : Prop := ∀ x < dw, row[x]? = some (BitVec.ofInt 16 (sums x))

section
variable {dw : Nat} {row : AccRow} {sums : Nat → Int}

theorem HoldsSums.congr {sums' : Nat → Int} (h : HoldsSums dw row sums) (heq : ∀ x < dw, sums x = sums' x) :
    HoldsSums dw row sums' := fun x hx => heq x hx ▸ h x hx

theorem HoldsSums.getD (h : HoldsSums dw row sums) {x : Nat} (hx : x < dw) : row.getD x 0 = BitVec.ofInt 16 (sums x) := by
  rw [List.getD_eq_getElem?_getD, h x hx, Option.getD_some]

theorem holdsSums_zeroRow (dw : Nat) : HoldsSums dw (zeroRow dw) fun _ => 0 :=
  fun _ hx => List.getElem?_replicate_of_lt hx

/-- R112: one share is added to its receiver's sum. -/
theorem HoldsSums.addAt (h : HoldsSums dw row sums) (k : Nat) (d : Int) :
    HoldsSums dw (addAt k d row) fun x => sums x + if x = k then d else 0 := by
  intro x hx
  rw [Machine.addAt, List.getElem?_modify, h x hx]
  by_cases hk : k = x
  · simp [hk, BitVec.ofInt_add]
  · simp [hk, Ne.symm hk]

/-- R112, R113: the share to the right; the last column has no receiver. -/
theorem HoldsSums.diffuseRow (h : HoldsSums dw row sums) (x : Nat) (e : Int) :
    HoldsSums dw (diffuseRow dw x e row) fun j => sums j + if j = x + 1 then 7 * e else 0 := by
  rw [Machine.diffuseRow]
  split
  · exact h.addAt (x + 1) (7 * e)
  · exact h.congr fun j hj => by omega

/-- R112, R113: the three shares to the row below; the first column has no receiver to the left and the last none to the right. -/
theorem HoldsSums.diffuseBelow (h : HoldsSums dw row sums) (x : Nat) (e : Int) :
    HoldsSums dw (diffuseBelow dw x true e row) fun j =>
      sums j + (if j + 1 = x then 3 * e else 0) + (if j = x then 5 * e else 0) + if j = x + 1 then e else 0 := by
  have hleft : HoldsSums dw (if 1 ≤ x then Machine.addAt (x - 1) (3 * e) row else row) fun j =>
      sums j + if j + 1 = x then 3 * e else 0 := by
    split
    · exact (h.addAt (x - 1) (3 * e)).congr fun j _ => by omega
    · exact h.congr fun j _ => by omega
  have hmiddle := hleft.addAt x (5 * e)
  simp only [Machine.diffuseBelow, Bool.true_and, decide_eq_true_eq, if_true]
  split
  · exact hmiddle.addAt (x + 1) e
  · exact hmiddle.congr fun j hj => by omega

end

/-! ### The errors of a row, and what they send -/

/-- The errors of pixels that stand from column `x` on, by column; 0 where none stands. -/
def errorsFrom (x : Nat) (pixels : List DitheredPixel) (j : Nat) : Int :=
  if j < x then 0 else (pixels[j - x]?.map DitheredPixel.e).getD 0

theorem errorsFrom_of_lt {x j : Nat} (pixels : List DitheredPixel) (h : j < x) : errorsFrom x pixels j = 0 := if_pos h

theorem errorsFrom_of_length_le {x j : Nat} {pixels : List DitheredPixel} (h : x + pixels.length ≤ j) :
    errorsFrom x pixels j = 0 := by
  have hnone : pixels[j - x]? = none := List.getElem?_eq_none (by omega)
  simp [errorsFrom, hnone]

theorem errorsFrom_cons (x : Nat) (px : DitheredPixel) (pixels : List DitheredPixel) (j : Nat) :
    errorsFrom x (px :: pixels) j = (if j = x then px.e else 0) + errorsFrom (x + 1) pixels j := by
  rcases lt_trichotomy j x with h | rfl | h
  · rw [errorsFrom_of_lt _ h, errorsFrom_of_lt _ (Nat.lt_succ_of_lt h), if_neg h.ne, add_zero]
  · rw [errorsFrom_of_lt _ (Nat.lt_succ_self j), if_pos rfl, add_zero]
    simp [errorsFrom]
  · have hindex : j - x = j - (x + 1) + 1 := by omega
    rw [errorsFrom, errorsFrom, if_neg h.not_gt, if_neg h.ne', if_neg (by omega), zero_add, hindex, List.getElem?_cons_succ]

/-- R112 read at the receiver: what the errors of the row above send to column `j`. -/
def sharesFromAbove (errors : Nat → Int) (j : Nat) : Int :=
  5 * errors j + (if 1 ≤ j then errors (j - 1) else 0) + 3 * errors (j + 1)

/-- R112 read at the receiver: what the error to the left sends to column `j`. -/
def shareFromLeft (errors : Nat → Int) (j : Nat) : Int := if 1 ≤ j then 7 * errors (j - 1) else 0

/-- Nothing stands to the left of the first pixel. -/
theorem shareFromLeft_errorsFrom_self (x : Nat) (pixels : List DitheredPixel) : shareFromLeft (errorsFrom x pixels) x = 0 := by
  rw [shareFromLeft]
  split
  · rw [errorsFrom_of_lt _ (by omega), mul_zero]
  · rfl

theorem shareFromLeft_errorsFrom_cons (x : Nat) (px : DitheredPixel) (pixels : List DitheredPixel) (j : Nat) :
    shareFromLeft (errorsFrom x (px :: pixels)) j =
      (if j = x + 1 then 7 * px.e else 0) + shareFromLeft (errorsFrom (x + 1) pixels) j := by
  simp only [shareFromLeft, errorsFrom_cons]
  omega

theorem sharesFromAbove_errorsFrom_cons (x : Nat) (px : DitheredPixel) (pixels : List DitheredPixel) (j : Nat) :
    sharesFromAbove (errorsFrom x (px :: pixels)) j =
      (if j + 1 = x then 3 * px.e else 0) + (if j = x then 5 * px.e else 0) + (if j = x + 1 then px.e else 0)
        + sharesFromAbove (errorsFrom (x + 1) pixels) j := by
  simp only [sharesFromAbove, errorsFrom_cons]
  omega

/-! ### One row of the scan -/

/-- R111: every pixel of a row is the step for its luminance and the entry it reads. -/
theorem ditherRow_step (thresh dw : Nat) (below : Bool) : ∀ (row : List Byte) (x : Nat) (cur nxt : AccRow) (i : Nat)
    (d : DitheredPixel), (ditherRow thresh dw below x row cur nxt).1[i]? = some d →
      row[i]? = some d.lum ∧ d = ditherPixel thresh d.lum d.acc
  | _ :: _, _, _, _, 0, _, rfl => ⟨rfl, rfl⟩
  | _ :: rest, _, _, _, i + 1, d, h => ditherRow_step thresh dw below rest _ _ _ i d h

/-- R112: the entry that a pixel reads holds what came from above and the share of the pixel to its left. -/
theorem ditherRow_acc {thresh dw : Nat} {below : Bool} : ∀ {row : List Byte} {x : Nat} {cur : AccRow} (nxt : AccRow)
    {sums : Nat → Int}, HoldsSums dw cur sums → x + row.length = dw → ∀ {i : Nat} {d : DitheredPixel},
      (ditherRow thresh dw below x row cur nxt).1[i]? = some d →
      d.acc = BitVec.ofInt 16
        (sums (x + i) + shareFromLeft (errorsFrom x (ditherRow thresh dw below x row cur nxt).1) (x + i)) := by
  intro row
  induction row with
  | nil =>
    intro x cur nxt sums _ _ i d h
    cases h
  | cons lum rest ih =>
    intro x cur nxt sums hcur hx i d h
    rw [List.length_cons] at hx
    cases i with
    | zero =>
      obtain rfl := Option.some.inj h
      rw [Nat.add_zero, shareFromLeft_errorsFrom_self, add_zero]
      exact hcur.getD (by omega)
    | succ i =>
      have hright := hcur.diffuseRow x (ditherPixel thresh lum (cur.getD x 0)).e
      rw [ih _ hright (by omega) h, ditherRow, shareFromLeft_errorsFrom_cons, Nat.succ_add_eq_add_succ, add_assoc]

/-- R112: at the end of a row the row below holds, besides what it held, what each error of the row sends down. -/
theorem HoldsSums.ditherRow {dw : Nat} (thresh : Nat) : ∀ (row : List Byte) (x : Nat) (cur : AccRow) {nxt : AccRow}
    {sums : Nat → Int}, HoldsSums dw nxt sums → HoldsSums dw (ditherRow thresh dw true x row cur nxt).2 fun j =>
      sums j + sharesFromAbove (errorsFrom x (ditherRow thresh dw true x row cur nxt).1) j := by
  intro row
  induction row with
  | nil =>
    intro x cur nxt sums h
    exact h.congr fun j _ => by simp [Machine.ditherRow, sharesFromAbove, errorsFrom]
  | cons lum rest ih =>
    intro x cur nxt sums h
    have hbelow := h.diffuseBelow x (ditherPixel thresh lum (cur.getD x 0)).e
    refine (ih (x + 1) _ hbelow).congr fun j _ => ?_
    simp only [Machine.ditherRow, sharesFromAbove_errorsFrom_cons, add_assoc]

/-! ### The rows of the scan -/

theorem errorAt_cons_zero (row : List DitheredPixel) (scan : List (List DitheredPixel)) :
    errorAt (row :: scan) 0 = errorsFrom 0 row := rfl

theorem errorAt_cons_succ (row : List DitheredPixel) (scan : List (List DitheredPixel)) (y x : Nat) :
    errorAt (row :: scan) (y + 1) x = errorAt scan y x := rfl

theorem errorAt_of_pixel {scan : List (List DitheredPixel)} {y x : Nat} {d : DitheredPixel} (h : pixel scan y x = some d) :
    errorAt scan y x = d.e := by
  rw [errorAt, h]
  rfl

theorem receivedShares_cons_zero (row : List DitheredPixel) (scan : List (List DitheredPixel)) (dw x : Nat) :
    receivedShares (row :: scan) dw 0 x = shareFromLeft (errorsFrom 0 row) x := add_zero _

/-- R112: with a row put above it, the first row of a scan has received what that row sends down; the others receive as before. -/
theorem receivedShares_cons_succ {row : List DitheredPixel} {dw : Nat} (hrow : row.length = dw)
    (scan : List (List DitheredPixel)) (y x : Nat) : receivedShares (row :: scan) dw (y + 1) x =
      (if y = 0 then sharesFromAbove (errorsFrom 0 row) x else 0) + receivedShares scan dw y x := by
  cases y with
  | zero =>
    have hright : ¬ x + 1 < dw → errorsFrom 0 row (x + 1) = 0 := fun hx => errorsFrom_of_length_le (by omega)
    simp only [receivedShares, errorAt_cons_succ, errorAt_cons_zero, sharesFromAbove, Nat.zero_add, Nat.sub_self, le_refl, if_true]
    omega
  | succ y => simp [receivedShares, errorAt_cons_succ]

theorem ditherRows_step (thresh dw : Nat) : ∀ (rows : List (List Byte)) (cur : AccRow) (y x : Nat) (d : DitheredPixel),
    pixel (ditherRows thresh dw rows cur) y x = some d → pixel rows y x = some d.lum ∧ d = ditherPixel thresh d.lum d.acc
  | row :: _, cur, 0, x, d, h => ditherRow_step thresh dw _ row 0 cur _ x d h
  | _ :: rest, _, y + 1, x, d, h => ditherRows_step thresh dw rest _ y x d h

theorem ditherRows_acc {thresh dw : Nat} : ∀ {rows : List (List Byte)} {cur : AccRow} {sums : Nat → Int},
    (∀ row ∈ rows, row.length = dw) → HoldsSums dw cur sums → ∀ {y x : Nat} {d : DitheredPixel},
      pixel (ditherRows thresh dw rows cur) y x = some d →
      d.acc = BitVec.ofInt 16 ((if y = 0 then sums x else 0) + receivedShares (ditherRows thresh dw rows cur) dw y x) := by
  intro rows
  induction rows with
  | nil =>
    intro cur sums _ _ y x d h
    cases h
  | cons row rest ih =>
    intro cur sums hlen hcur y x d h
    obtain ⟨hrow, hrest⟩ := List.forall_mem_cons.mp hlen
    rw [ditherRows]
    cases y with
    | zero => rw [receivedShares_cons_zero, if_pos rfl, ditherRow_acc _ hcur (by omega) h, Nat.zero_add]
    | succ y =>
      rw [receivedShares_cons_succ (by rw [ditherRow_length, hrow]), if_neg (Nat.succ_ne_zero y), zero_add]
      cases rest with
      | nil => cases h
      | cons next rest =>
        have hbelow := (holdsSums_zeroRow dw).ditherRow thresh row 0 cur
        simp only [zero_add] at hbelow
        exact ih hrest hbelow h

/-! ### One pixel -/

/-- R111: the arithmetic of the step. -/
theorem ditherPixel_law {thresh : Nat} {d : DitheredPixel} (h : d = ditherPixel thresh d.lum d.acc) :
    d.v = d.lum.toNat + (d.acc.toInt + 8) / 16 ∧ (d.bit = true ↔ (thresh : Int) ≤ d.v)
      ∧ d.e = d.v - 255 * (if d.bit then 1 else 0) := by
  rw [h]
  exact ⟨rfl, by simp [ditherPixel], rfl⟩

/-- R111: the residue of the rounding, in sixteenths. -/
theorem roundingResidue_bounds (a : Int) : -7 ≤ 16 * ((a + 8) / 16) - a ∧ 16 * ((a + 8) / 16) - a ≤ 8 := by omega

/-- R115: an entry of at most 16 errors leaves an error within the same bound. At threshold 128 the least bound is 128; 255 is one at
every threshold. -/
theorem abs_e_le {thresh : Nat} {d : DitheredPixel} {bound : Int} (h : d = ditherPixel thresh d.lum d.acc)
    (hlow : thresh ≤ bound + 1) (hhigh : 255 ≤ bound + thresh) (hacc : |d.acc.toInt| ≤ 16 * bound) : |d.e| ≤ bound := by
  obtain ⟨hv, hbit, he⟩ := ditherPixel_law h
  rw [abs_le] at hacc ⊢
  by_cases hb : d.bit = true
  · have hwhite := hbit.mp hb
    rw [if_pos hb] at he
    omega
  · have hblack := mt hbit.mpr hb
    rw [if_neg hb] at he
    omega

/-- R115: the shares that a pixel receives add up to at most 16 errors. -/
theorem abs_receivedShares_le {scan : List (List DitheredPixel)} {y x : Nat} {bound : Int} (dw : Nat) (hbound : 0 ≤ bound)
    (hleft : ∀ j < x, |errorAt scan y j| ≤ bound) (habove : ∀ i < y, ∀ j, |errorAt scan i j| ≤ bound) :
    |receivedShares scan dw y x| ≤ 16 * bound := by
  simp only [abs_le] at hleft habove ⊢
  have hw (hx : 1 ≤ x) := hleft (x - 1) (by omega)
  have hnw (hy : 1 ≤ y) := habove (y - 1) (by omega) (x - 1)
  have hn (hy : 1 ≤ y) := habove (y - 1) (by omega) x
  have hne (hy : 1 ≤ y) := habove (y - 1) (by omega) (x + 1)
  rw [receivedShares]
  omega

/-- R115: a sum within the bound of 16 errors is held whole. -/
theorem toInt_ofInt_of_abs_le {z bound : Int} (hfit : 16 * bound < 2 ^ 15) (h : |z| ≤ 16 * bound) :
    (BitVec.ofInt 16 z).toInt = z := by
  rw [abs_le] at h
  norm_num at hfit
  exact BitVec.toInt_ofInt_eq_self (by decide) (by norm_num; omega) (by norm_num; omega)

/-! ### The whole scan -/

section
variable {thresh dh dw : Nat} {lums : List (List Byte)} {bound : Int} {y x : Nat} {d : DitheredPixel}

theorem ditherScan_step (hd : pixel (ditherScan thresh dw lums) y x = some d) :
    pixel lums y x = some d.lum ∧ d = ditherPixel thresh d.lum d.acc := ditherRows_step thresh dw lums _ y x d hd

/-- R110, R112, R113: the entry that a pixel reads is what it has been sent, modulo 2^16. -/
theorem ditherScan_acc (hshape : hasShape dh dw lums = true) (hd : pixel (ditherScan thresh dw lums) y x = some d) :
    d.acc = BitVec.ofInt 16 (receivedShares (ditherScan thresh dw lums) dw y x) := by
  obtain ⟨-, hlen⟩ := (hasShape_iff ..).mp hshape
  rw [ditherRows_acc hlen (holdsSums_zeroRow dw) hd, ite_self, zero_add, ditherScan]

/-- R115: the bound of the errors, by induction along the scan. -/
theorem abs_errorAt_le (hshape : hasShape dh dw lums = true) (hlow : thresh ≤ bound + 1) (hhigh : 255 ≤ bound + thresh)
    (hfit : 16 * bound < 2 ^ 15) (y x : Nat) : |errorAt (ditherScan thresh dw lums) y x| ≤ bound := by
  have hbound : 0 ≤ bound := by omega
  induction y using Nat.strong_induction_on generalizing x with
  | _ y habove =>
    induction x using Nat.strong_induction_on with
    | _ x hleft =>
      cases hd : pixel (ditherScan thresh dw lums) y x with
      | none => simpa [errorAt, hd] using hbound
      | some d =>
        obtain ⟨-, hstep⟩ := ditherScan_step hd
        have hshares := abs_receivedShares_le dw hbound hleft habove
        rw [errorAt_of_pixel hd]
        refine abs_e_le hstep hlow hhigh ?_
        rwa [ditherScan_acc hshape hd, toInt_ofInt_of_abs_le hfit hshares]

/-- R115: no sum wraps, so the entry that a pixel reads is exactly what it has been sent. -/
theorem ditherScan_acc_toInt (hshape : hasShape dh dw lums = true) (hlow : thresh ≤ bound + 1) (hhigh : 255 ≤ bound + thresh)
    (hfit : 16 * bound < 2 ^ 15) (hd : pixel (ditherScan thresh dw lums) y x = some d) :
    d.acc.toInt = receivedShares (ditherScan thresh dw lums) dw y x ∧ |d.acc.toInt| ≤ 16 * bound := by
  have herr := abs_errorAt_le hshape hlow hhigh hfit
  have hshares := abs_receivedShares_le dw (by omega) (fun j (_ : j < x) => herr y j) fun i (_ : i < y) => herr i
  rw [ditherScan_acc hshape hd, toInt_ofInt_of_abs_le hfit hshares]
  exact ⟨rfl, hshares⟩

end

/-- At every threshold that the parameter can have, by the bound 255 of the errors. -/
theorem ditherScan_acc_eq_receivedShares {thresh : BitVec 8} {dh dw y x : Nat} {lums : List (List Byte)} {d : DitheredPixel}
    (hshape : hasShape dh dw lums = true) (hd : pixel (ditherScan thresh.toNat dw lums) y x = some d) :
    d.acc.toInt = receivedShares (ditherScan thresh.toNat dw lums) dw y x :=
  (ditherScan_acc_toInt (bound := 255) hshape (by omega) (by omega) (by norm_num) hd).1

/-! ### DTH -/

theorem lumaImage_pixel (l : Luma) (img : Image) (y x : Nat) : pixel (lumaImage l img) y x = (pixel img y x).map (luma l) := by
  cases h : img[y]? <;> simp [pixel, lumaImage, h]

theorem exec_dth_of_enh {s : State} {img : Image} (henh : s.buf.enh = some img) (hshape : hasShape s.cfg.dh s.cfg.dw img = true)
    (halg : s.cfg.ditherAlg = 0) :
    exec .dth s = .next ((s.setBuf { s.buf with
      bit := some (ditherImage s.cfg.luma s.cfg.thresh.toNat s.cfg.dw img), enh := none, eacc := none }).setPhase 8) := by
  have hread : s.readEnh = .ok img := (readBuffer_eq_ok ..).mpr ⟨henh, hshape⟩
  show execDth s = _
  rw [execDth, hread, withBuffer_ok, if_neg (not_not.mpr halg)]

/-- Settles O28: the scan is that of the luminance image; its entries hold the shares modulo 2^16 and none of them wraps. -/
theorem dthDiffusesErrorsByFloydSteinberg : Obligations.DthDiffusesErrorsByFloydSteinberg := by
  unfold Obligations.DthDiffusesErrorsByFloydSteinberg
  refine ⟨rfl, fun s img henh hshape halg => ?_⟩
  have hlums := lumaImage_hasShape s.cfg.luma _ _ _ hshape
  refine ⟨ditherScan s.cfg.thresh.toNat s.cfg.dw (lumaImage s.cfg.luma img), ditherScan_hasShape _ _ _ _ hlums,
    fun y x px d hpx hd => ?_, exec_dth_of_enh henh hshape halg⟩
  obtain ⟨hlum, hstep⟩ := ditherScan_step hd
  rw [lumaImage_pixel, hpx, Option.map_some, Option.some.injEq] at hlum
  exact ⟨hlum.symm, ditherScan_acc_eq_receivedShares hlums hd, ditherPixel_law hstep⟩

/-! ### Conservation -/

theorem sum_mapIdx {α : Type} {l : List α} {f : Nat → α → Int} {g : Nat → Int} (h : ∀ i a, l[i]? = some a → f i a = g i) :
    (l.mapIdx f).sum = ∑ i ∈ Finset.range l.length, g i := by
  have hmap : l.mapIdx f = (List.range l.length).map g := by
    refine List.ext_getElem (by simp) fun i hi _ => ?_
    rw [List.getElem_mapIdx, List.getElem_map, List.getElem_range]
    exact h i _ (by simp)
  rw [hmap]
  rfl

/-- A sum over the pixels of a scan, of what each place gives. -/
theorem sumOver_eq_sum {dh dw : Nat} {scan : List (List DitheredPixel)} {f : Nat → Nat → DitheredPixel → Int}
    (g : Nat → Nat → Int) (hshape : hasShape dh dw scan = true) (h : ∀ y x d, pixel scan y x = some d → f y x d = g y x) :
    sumOver scan f = ∑ y ∈ Finset.range dh, ∑ x ∈ Finset.range dw, g y x := by
  obtain ⟨rfl, hcols⟩ := (hasShape_iff ..).mp hshape
  refine sum_mapIdx fun y row hrow => ?_
  rw [← hcols row (List.mem_of_getElem? hrow)]
  exact sum_mapIdx fun x d hd => h y x d (Option.bind_eq_some_iff.mpr ⟨row, hrow, hd⟩)

/-- What every place but the first gets from the one before it is what every place but the last gives. -/
theorem sum_range_shift {n : Nat} (f : Nat → Int) : ∑ i ∈ Finset.range n, (if 1 ≤ i then f (i - 1) else 0)
    = ∑ i ∈ Finset.range n, if i + 1 < n then f i else 0 := by
  cases n with
  | zero => rfl
  | succ n =>
    rw [Finset.sum_range_succ', Finset.sum_range_succ, if_neg (by omega), if_neg (by omega)]
    congr 1
    refine Finset.sum_congr rfl fun i hi => ?_
    rw [Finset.mem_range] at hi
    rw [if_pos (by omega), if_pos (by omega), Nat.add_sub_cancel]

/-- R112, R113: what a row receives from its left neighbours is what its pixels keep to the right. -/
theorem sum_sharesToRight (dw : Nat) (errors : Nat → Int) :
    ∑ x ∈ Finset.range dw, (if 1 ≤ x then 7 * errors (x - 1) else 0)
      = ∑ x ∈ Finset.range dw, errors x * if x + 1 < dw then 7 else 0 := by
  rw [sum_range_shift fun x => 7 * errors x]
  simp only [mul_ite, mul_zero, mul_comm (7 : Int)]

/-- R112, R113: what a row receives from the row above is what the pixels of that row keep below. -/
theorem sum_sharesToRowBelow (dw : Nat) (errors : Nat → Int) :
    ∑ x ∈ Finset.range dw,
        (5 * errors x + (if 1 ≤ x then errors (x - 1) else 0) + if x + 1 < dw then 3 * errors (x + 1) else 0)
      = ∑ x ∈ Finset.range dw, errors x * (5 + (if 1 ≤ x then 3 else 0) + if x + 1 < dw then 1 else 0) := by
  have hright := sum_range_shift (n := dw) errors
  have hleft : ∑ x ∈ Finset.range dw, (if 1 ≤ x then 3 * errors x else 0)
      = ∑ x ∈ Finset.range dw, if x + 1 < dw then 3 * errors (x + 1) else 0 := by
    rw [← sum_range_shift fun x => 3 * errors (x + 1)]
    refine Finset.sum_congr rfl fun x _ => ?_
    split
    · next hx => rw [Nat.sub_add_cancel hx]
    · rfl
  simp only [Finset.sum_add_distrib, hright, ← hleft, mul_add, mul_ite, mul_one, mul_zero]
  simp only [mul_comm (errors _)]
  ring

/-- R116: the shares received over a whole image are those kept inside it. -/
theorem sum_receivedShares (scan : List (List DitheredPixel)) (dh dw : Nat) :
    ∑ y ∈ Finset.range dh, ∑ x ∈ Finset.range dw, receivedShares scan dw y x
      = ∑ y ∈ Finset.range dh, ∑ x ∈ Finset.range dw, errorAt scan y x * keptShares dh dw y x := by
  simp only [receivedShares, keptShares, mul_add, Finset.sum_add_distrib, sum_sharesToRight]
  congr 1
  simp only [mul_ite, mul_zero, Finset.sum_ite_irrel, Finset.sum_const_zero, sum_sharesToRowBelow]
  exact sum_range_shift fun y => ∑ x ∈ Finset.range dw,
    errorAt scan y x * (5 + (if 1 ≤ x then 3 else 0) + if x + 1 < dw then 1 else 0)

/-- Settles O30: at each pixel 255*b - Y is the rounded entry less e; the entries sum to the shares kept. -/
theorem ditherConservesBrightness : Obligations.DitherConservesBrightness := by
  unfold Obligations.DitherConservesBrightness
  refine fun dh dw thresh lums hshape => ⟨?_, fun y x d _ => roundingResidue_bounds _⟩
  have hscan := ditherScan_hasShape thresh.toNat dw dh lums hshape
  have hacc : ∀ y x d, pixel (ditherScan thresh.toNat dw lums) y x = some d →
      d.acc.toInt = receivedShares (ditherScan thresh.toNat dw lums) dw y x := fun y x d hd =>
    ditherScan_acc_eq_receivedShares hshape hd
  have houtput : ∀ y x d, pixel (ditherScan thresh.toNat dw lums) y x = some d →
      255 * (if d.bit then 1 else 0) - (d.lum.toNat : Int)
        = (receivedShares (ditherScan thresh.toNat dw lums) dw y x + 8) / 16 - errorAt (ditherScan thresh.toNat dw lums) y x := by
    intro y x d hd
    obtain ⟨hv, -, he⟩ := ditherPixel_law (ditherScan_step hd).2
    rw [errorAt_of_pixel hd, ← hacc y x d hd, he, hv]
    ring
  have hkept := sum_receivedShares (ditherScan thresh.toNat dw lums) dh dw
  generalize ditherScan thresh.toNat dw lums = scan at hscan hacc houtput hkept ⊢
  rw [sumOver_eq_sum _ hscan houtput,
    sumOver_eq_sum (fun y x => 16 * ((receivedShares scan dw y x + 8) / 16) - receivedShares scan dw y x) hscan
      fun y x d hd => by rw [hacc y x d hd],
    sumOver_eq_sum (fun y x => 16 * errorAt scan y x - errorAt scan y x * keptShares dh dw y x) hscan
      fun y x d hd => by rw [errorAt_of_pixel hd]; ring]
  simp only [mul_sub, Finset.mul_sum, Finset.sum_sub_distrib, hkept]
  ring

end Sys2Proof.Machine
end

section
/-! The operations of the loop: CHK (R122, R145), CAP (R123), DLY (R125), and the order in which PHASE advances (R126). -/

namespace Sys2Proof.Machine

/-! ### CHK and DLY -/

/-- R122: CHK completes in every state. -/
theorem exec_chk (s : State) : exec .chk s = .next (
    if s.stopPend then (s.logPort (.stopSample s.stopPend)).takeStop else (s.logPort (.stopSample s.stopPend)).setPhase 1) := by
  show execChk s = _
  rw [execChk, State.sampleStop]
  split <;> rfl

/-- R125: DLY completes once the delay has passed. -/
theorem exec_dly_of_delay_passed {s : State} (h : s.tEnd + s.cfg.delayMs.toNat ≤ s.env.now) :
    exec .dly s = .next ((s.logPort (.now s.env.now)).setPhase 0) :=
  if_pos h

/-- Settles O33: CHK records its sample and stops or moves on. -/
theorem chkStopsOrContinues : Obligations.ChkStopsOrContinues := by
  unfold Obligations.ChkStopsOrContinues
  exact ⟨rfl, fun s => ⟨_, exec_chk s⟩⟩

/-- Settles O36: the read of the time is recorded; a DLY that completes has met its own test of the time. -/
theorem dlyWaitsOutTheDelay : Obligations.DlyWaitsOutTheDelay := by
  unfold Obligations.DlyWaitsOutTheDelay
  exact ⟨rfl, fun s => ⟨_, exec_dly_of_delay_passed, fun _ ht => (execDly_next ht).2⟩⟩

/-! ### CAP -/

/-- R123: CAP takes the first answer that is ready, the buffers emptied before it. -/
theorem exec_cap_of_answer {s : State} {a : CaptureAnswer} {more : List CaptureAnswer} (h : s.env.capAnswers = a :: more) :
    exec .cap s = .next (({ s with
      buf := Buffers.empty
      env := { s.env with capAnswers := more, trace := .captureRead s.cfg.bytes a :: s.env.trace } } : State).takeSnapshot a) := by
  show execCap s = _
  rw [execCap, State.captureRead, h]
  rfl

/-- R136: a snapshot too long for RAW_LEN is of the wrong length as well, and recorded so. -/
theorem takeSnapshot_of_length_ne {s : State} {raw : List Byte} (h : raw.length ≠ s.cfg.bytes) :
    s.takeSnapshot (.bytes raw)
      = (s.setBuf { s.buf with rawLen := some (recordedLength raw.length) }).raiseError .captureSize :=
  if_pos (mt (recordedLength_eq_bytes ..).mp h)

theorem takeSnapshot_of_length_eq {s : State} {raw : List Byte} (h : raw.length = s.cfg.bytes) :
    s.takeSnapshot (.bytes raw)
      = (s.setBuf { s.buf with rawLen := some (recordedLength raw.length), raw := some raw }).setPhase 2 :=
  if_neg (not_not_intro ((recordedLength_eq_bytes ..).mpr h))

/-- Settles O34: the answer is taken, and its form and its length say which of the three outcomes it has. -/
theorem capTakesExactlyOneSnapshot : Obligations.CapTakesExactlyOneSnapshot := by
  unfold Obligations.CapTakesExactlyOneSnapshot
  refine ⟨rfl, rfl, rfl, fun s a more hans => ⟨.captureRead s.cfg.bytes a :: s.env.trace, ?_, ?_⟩⟩
  · rintro rfl
    exact exec_cap_of_answer hans
  · rintro raw rfl
    refine ⟨fun hne => ⟨_, recordedLength_toNat _, ?_⟩,
      fun hlen => ⟨_, ((recordedLength_eq_bytes s.cfg _).mpr hlen).trans hlen.symm, ?_⟩⟩
    · exact (exec_cap_of_answer hans).trans (congrArg Host.Outcome.next (takeSnapshot_of_length_ne hne))
    · exact (exec_cap_of_answer hans).trans (congrArg Host.Outcome.next (takeSnapshot_of_length_eq hlen))

/-! ### The order of PHASE -/

/-- The operation has completed: the block goes on at `next` as it was, RUNNING or not. -/
def State.MovesOnTo (s : State) (next : BitVec 4) (t : State) : Prop :=
  t.run = s.run ∧ t.err = s.err ∧ t.phase = next

/-- The operation has ended with an error (R140), PHASE being kept. -/
def State.FailsTo (s t : State) : Prop :=
  t.run = false ∧ t.phase = s.phase ∧ t.err ≠ .noError

section
variable {s t : State}

theorem execCap_movesOn_or_fails (h : execCap s = .next t) : s.MovesOnTo 2 t ∨ s.FailsTo t := by
  obtain ⟨a, rest, -, rfl⟩ := execCap_next h
  obtain ⟨-, htake⟩ | ⟨raw, -, -, htake⟩ | ⟨raw, -, -, htake⟩ := takeSnapshot_cases _ a <;> rw [htake]
  · exact .inr ⟨rfl, rfl, ErrorCode.noConfusion⟩
  · exact .inr ⟨rfl, rfl, ErrorCode.noConfusion⟩
  · exact .inl ⟨rfl, rfl, rfl⟩

theorem execAsm_movesOn_or_fails (h : execAsm s = .next t) : s.MovesOnTo 5 t ∨ s.FailsTo t := by
  obtain ⟨tri, -, ⟨-, rfl⟩ | ⟨-, rfl⟩⟩ := execAsm_next h
  · exact .inr ⟨rfl, rfl, ErrorCode.noConfusion⟩
  · exact .inl ⟨rfl, rfl, rfl⟩

theorem execSub_movesOn_or_fails (h : execSub s = .next t) : s.MovesOnTo 9 t ∨ s.FailsTo t := by
  obtain ⟨img, a, rest, -, -, -, rfl⟩ := execSub_next h
  cases a with
  | ok => exact .inl ⟨rfl, rfl, rfl⟩
  | fail => exact .inr ⟨rfl, rfl, ErrorCode.noConfusion⟩

/-- R126: whatever operation PHASE selects, completing it moves on to the next in the order; else a stop is taken at CHK, or an
operation other than CHK has failed. -/
theorem exec_phase_outcome (h : exec (decode (.phase4 s.phase)) s = .next t) :
    (∃ next : BitVec 4, next.toNat = (s.phase.toNat + 1) % 10 ∧ s.MovesOnTo next t)
    ∨ (s.phase = 0 ∧ s.stopPend = true ∧ t.run = false ∧ t.phase = s.phase ∧ t.err = s.err)
    ∨ (s.phase ≠ 0 ∧ s.FailsTo t) := by
  have movesOn {p next : BitVec 4} (hp : s.phase = p) (hnext : next.toNat = (p.toNat + 1) % 10) (hm : s.MovesOnTo next t) :
      ∃ next : BitVec 4, next.toNat = (s.phase.toNat + 1) % 10 ∧ s.MovesOnTo next t := ⟨next, hp ▸ hnext, hm⟩
  rcases exec_phase_next h with ⟨hp, hx⟩ | ⟨hp, hx⟩ | ⟨hp, hx⟩ | ⟨hp, hx⟩ | ⟨hp, hx⟩ | ⟨hp, hx⟩ | ⟨hp, hx⟩ | ⟨hp, hx⟩
    | ⟨hp, hx⟩ | ⟨hp, hx⟩
  · obtain ⟨hstop, rfl⟩ | ⟨-, rfl⟩ := execChk_next hx
    · exact .inr (.inl ⟨hp, hstop, rfl, rfl, rfl⟩)
    · exact .inl (movesOn hp rfl ⟨rfl, rfl, rfl⟩)
  · exact (execCap_movesOn_or_fails hx).imp (movesOn hp rfl) fun hf => .inr ⟨by simp [hp], hf⟩
  · obtain ⟨raw, -, -, rfl⟩ := execNrm_next hx
    exact .inl (movesOn hp rfl ⟨rfl, rfl, rfl⟩)
  · obtain ⟨samp, -, -, rfl⟩ := execExp_next hx
    exact .inl (movesOn hp rfl ⟨rfl, rfl, rfl⟩)
  · exact (execAsm_movesOn_or_fails hx).imp (movesOn hp rfl) fun hf => .inr ⟨by simp [hp], hf⟩
  · obtain ⟨full, hor, ver, -, -, -, -, rfl⟩ := execRsz_next hx
    exact .inl (movesOn hp rfl ⟨rfl, rfl, rfl⟩)
  · obtain ⟨img, -, -, rfl⟩ := execShp_next hx
    exact .inl (movesOn hp rfl ⟨rfl, rfl, rfl⟩)
  · obtain ⟨img, -, -, -, rfl⟩ := execDth_next hx
    exact .inl (movesOn hp rfl ⟨rfl, rfl, rfl⟩)
  · exact (execSub_movesOn_or_fails hx).imp (movesOn hp rfl) fun hf => .inr ⟨by simp [hp], hf⟩
  · obtain ⟨rfl, -⟩ := execDly_next hx
    exact .inl (movesOn hp rfl ⟨rfl, rfl, rfl⟩)

end

/-- Settles O42: the outcome of the operation that PHASE selects, in a block that was RUNNING. -/
theorem phaseAdvancesInTheHardWiredOrder : Obligations.PhaseAdvancesInTheHardWiredOrder := by
  unfold Obligations.PhaseAdvancesInTheHardWiredOrder
  intro s t hrun h
  obtain ⟨next, hnext, hrun', herr, hphase⟩ | ⟨hp, hstop, hrun', hphase, herr⟩ | ⟨hp, hrun', hphase, herr⟩ :=
    exec_phase_outcome h
  · exact .inl ⟨hrun'.trans hrun, herr, hphase ▸ hnext⟩
  · exact .inr ⟨hrun', hphase, .inl ⟨hp, hstop, herr⟩⟩
  · exact .inr ⟨hrun', hphase, .inr ⟨hp, herr⟩⟩

end Sys2Proof.Machine
end

section
/-! Error entry (R140), and the stop request (R144): what the end of an instruction keeps, and what a step does with the latch. -/

namespace Sys2Proof.Machine

/-! ### Error entry -/

theorem ErrorCode.code_eq_one_or_two {e : ErrorCode} (h : e ≠ .noError) : e.code = 1 ∨ e.code = 2 := by
  cases e with
  | noError => exact absurd rfl h
  | captureSize => exact .inl rfl
  | transport => exact .inr rfl

/-- R140: `t` is `s` after error entry in `i`. At entry the port may have answered and the buffers are `b`; where the error is one of
size and `i` is not ASM, RAW_LEN records the length of the snapshot that was answered (R136). -/
def State.EntersError (s : State) (i : Instr) (t : State) : Prop :=
  ∃ (env : Env) (b : Buffers) (e : ErrorCode), t = ({ s with buf := b, env := env } : State).raiseError e ∧ e ≠ .noError
    ∧ (e = .captureSize →
        (∃ raw more, s.env.capAnswers = .bytes raw :: more ∧ b.rawLen = some (recordedLength raw.length)) ∨ i = .asm)

section
variable {s t : State}

/-- R140: error entry leaves the stop latch alone. -/
theorem State.EntersError.stopPend_eq {i : Instr} (h : s.EntersError i t) : t.stopPend = s.stopPend := by
  obtain ⟨env, b, e, rfl, -, -⟩ := h
  rfl

theorem execCap_keeps_or_entersError (h : execCap s = .next t) :
    (t.err = s.err ∧ t.stopPend = s.stopPend) ∨ s.EntersError .cap t := by
  obtain ⟨a, more, hans, rfl⟩ := execCap_next h
  obtain ⟨-, htake⟩ | ⟨raw, rfl, -, htake⟩ | ⟨raw, -, -, htake⟩ := takeSnapshot_cases _ a <;> rw [htake]
  · exact .inr ⟨_, _, .transport, rfl, ErrorCode.noConfusion, ErrorCode.noConfusion⟩
  · exact .inr ⟨_, _, .captureSize, rfl, ErrorCode.noConfusion, fun _ => .inl ⟨raw, more, hans, rfl⟩⟩
  · exact .inl ⟨rfl, rfl⟩

theorem execAsm_keeps_or_entersError (h : execAsm s = .next t) :
    (t.err = s.err ∧ t.stopPend = s.stopPend) ∨ s.EntersError .asm t := by
  obtain ⟨tri, -, ⟨-, rfl⟩ | ⟨-, rfl⟩⟩ := execAsm_next h
  · exact .inr ⟨s.env, s.buf, .captureSize, rfl, ErrorCode.noConfusion, fun _ => .inr rfl⟩
  · exact .inl ⟨rfl, rfl⟩

theorem execSub_keeps_or_entersError (h : execSub s = .next t) :
    (t.err = s.err ∧ t.stopPend = s.stopPend) ∨ s.EntersError .sub t := by
  obtain ⟨img, a, more, -, -, -, rfl⟩ := execSub_next h
  cases a with
  | ok => exact .inl ⟨rfl, rfl⟩
  | fail => exact .inr ⟨_, s.buf, .transport, rfl, ErrorCode.noConfusion, ErrorCode.noConfusion⟩

/-- R140: an instruction that completes keeps ERR and the stop latch, or has done error entry. CAP, ASM and SUB alone can do the second. -/
theorem exec_keeps_or_entersError {i : Instr} (h : exec i s = .next t) :
    (t.err = s.err ∧ t.stopPend = s.stopPend) ∨ s.EntersError i t := by
  cases i with
  | cap => exact execCap_keeps_or_entersError h
  | asm => exact execAsm_keeps_or_entersError h
  | sub => exact execSub_keeps_or_entersError h
  | chk => obtain ⟨-, rfl⟩ | ⟨-, rfl⟩ := execChk_next h <;> exact .inl ⟨rfl, rfl⟩
  | nrm => obtain ⟨raw, -, -, rfl⟩ := execNrm_next h; exact .inl ⟨rfl, rfl⟩
  | exp => obtain ⟨samp, -, -, rfl⟩ := execExp_next h; exact .inl ⟨rfl, rfl⟩
  | rsz => obtain ⟨full, hor, ver, -, -, -, -, rfl⟩ := execRsz_next h; exact .inl ⟨rfl, rfl⟩
  | shp => obtain ⟨img, -, -, rfl⟩ := execShp_next h; exact .inl ⟨rfl, rfl⟩
  | dth => obtain ⟨img, -, -, -, rfl⟩ := execDth_next h; exact .inl ⟨rfl, rfl⟩
  | dly => obtain ⟨rfl, -⟩ := execDly_next h; exact .inl ⟨rfl, rfl⟩
  | status d c p e k r => obtain ⟨used, rfl, -⟩ := execStatus_next h; exact .inl ⟨rfl, rfl⟩
  | packedSample | reserved10 | reserved11 | reserved12 | reserved13 | reserved14 | reserved15 => cases h

end

/-- Settles O43: an instruction that sets ERR has done error entry, and error entry freezes the block. -/
theorem errorEntryFreezesTheBlock : Obligations.ErrorEntryFreezesTheBlock := by
  unfold Obligations.ErrorEntryFreezesTheBlock
  intro i s t hnone h herr
  obtain ⟨hkept, -⟩ | ⟨env, b, e, rfl, hne, hsize⟩ := exec_keeps_or_entersError h
  · exact absurd (hkept.trans hnone) herr
  · refine ⟨ErrorCode.code_eq_one_or_two hne, rfl, rfl, rfl, rfl, rfl, rfl, rfl, rfl, Buffers.afterError_eq b e, ?_, ?_⟩
    · rintro (rfl : e = .transport)
      rfl
    · rintro (rfl : e = .captureSize)
      exact (hsize rfl).imp_left fun ⟨raw, more, hans, hlen⟩ => ⟨raw, more, _, hans, hlen, recordedLength_toNat _⟩

/-! ### The stop request -/

section
variable {s t : State}

/-- R19: no instruction writes the stop latch; CHK takes the request by clearing RUN. -/
theorem exec_stopPend {i : Instr} (h : exec i s = .next t) : t.stopPend = s.stopPend :=
  (exec_keeps_or_entersError h).elim And.right State.EntersError.stopPend_eq

/-- R44: a read of STATUS leaves RUN alone. -/
theorem exec_view10_run {w : BitVec 10} (h : exec (decode (.view10 w)) s = .next t) : t.run = s.run := by
  obtain ⟨used, rfl, -⟩ := execStatus_next h
  rfl

/-- R156: of the environment's moves the release of an asserted reset alone writes RUN or clears the stop latch. -/
theorem applyMove_latch_cases {m : EnvMove} (h : applyMove s m = .settled (.next t)) :
    (t.run = s.run ∧ (s.stopPend = true → t.stopPend = true))
    ∨ ∃ c, m = .releaseReset c ∧ s.inReset = true ∧ t = State.resetWith c s.env := by
  obtain ⟨a, -, rfl⟩ | ⟨a, -, rfl⟩ | ⟨-, rfl⟩ | ⟨ms, -, rfl⟩ | ⟨-, rfl⟩ | ⟨c, hm, hreset, -, -, rfl⟩ | ⟨c, -, -, rfl⟩ :=
    applyMove_next h
  · exact .inl ⟨rfl, id⟩
  · exact .inl ⟨rfl, id⟩
  · exact .inl ⟨rfl, fun hstop => by simp [hstop]⟩
  · exact .inl ⟨rfl, id⟩
  · exact .inl ⟨rfl, id⟩
  · exact .inr ⟨c, hm, hreset, rfl⟩
  · exact .inl ⟨rfl, id⟩

/-- R144: out of reset the delivery sets the latch, whatever it was. -/
theorem step_deliverStop {rest : List EnvMove} (hreset : s.inReset = false) (hnext : s.env.schedule = .deliverStop :: rest) :
    step s = .next { s with stopPend := true, env := { s.env with schedule := rest } } := by
  have hlatch : (s.withSchedule rest).deliverStop = { s.withSchedule rest with stopPend := true } :=
    if_neg (by simp [hreset])
  rw [step, fetch, hnext]
  exact congrArg Host.Outcome.next hlatch

/-- R144: the latch is sticky. -/
theorem step_keeps_stopPend (hstop : s.stopPend = true) (h : step s = .next t) :
    t.stopPend = true ∨ (s.inReset = true ∧ s.releasesReset) := by
  obtain ⟨moves, ⟨-, -, -, hblock⟩ | hread | ⟨m, hnext, hmove⟩⟩ := step_next h
  · exact .inl ((exec_stopPend hblock).trans hstop)
  · exact .inl ((exec_stopPend hread).trans hstop)
  · obtain ⟨-, hkeeps⟩ | ⟨c, rfl, hreset, -⟩ := applyMove_latch_cases hmove
    · exact .inl (hkeeps hstop)
    · exact .inr ⟨hreset, c, moves, hnext⟩

/-- R144, R145: a run that ends without an error has been ended by CHK, on a request. The order of PHASE (R126) says so of the block's
own operation; neither a read of STATUS nor a move of the environment ends a run. -/
theorem step_ends_run_of_chk (hrun : s.run = true) (h : step s = .next t) (hended : t.run = false) (herr : t.err = .noError) :
    s.phase = 0 ∧ s.stopPend = true := by
  have hnot : t.run ≠ true := by simp [hended]
  obtain ⟨moves, ⟨-, -, -, hblock⟩ | hread | ⟨m, -, hmove⟩⟩ := step_next h
  · obtain ⟨hgoes, -, -⟩ | ⟨-, -, ⟨hphase, hstop, -⟩ | ⟨-, hfails⟩⟩ :=
      phaseAdvancesInTheHardWiredOrder (s.withSchedule moves) t hrun hblock
    · exact absurd hgoes hnot
    · exact ⟨hphase, hstop⟩
    · exact absurd herr hfails
  · exact absurd ((exec_view10_run hread).trans hrun) hnot
  · obtain ⟨hkept, -⟩ | ⟨c, -, -, rfl⟩ := applyMove_latch_cases hmove
    · exact absurd (hkept.trans hrun) hnot
    · exact absurd (State.resetWith_run c _) hnot

end

/-- Settles O49: the delivery, the latch over every step, and the end of a run. -/
theorem stopRequestIsNeverLost : Obligations.StopRequestIsNeverLost := by
  unfold Obligations.StopRequestIsNeverLost
  exact ⟨fun _ _ => step_deliverStop, fun _ _ => step_keeps_stopPend, fun _ _ => step_ends_run_of_chk⟩

end Sys2Proof.Machine
end

section
/-! Decoding and encoding agree (R57, R61, R62, R23): each format's word is made of the fields it is cut into. -/

namespace Sys2Proof.Machine

theorem encode_decodePhase (code : BitVec 4) : encode (decodePhase code) = .phase4 code := by
  revert code
  decide

theorem decodeSample_packSample (red : BitVec 5) (green : BitVec 6) (blue : BitVec 5) :
    decodeSample (packSample red green blue) = .packedSample red green blue := by
  have hred : (packSample red green blue).extractLsb' 11 5 = red := calc
    (packSample red green blue).extractLsb' 11 5 = (red ++ green).extractLsb' 6 5 :=
      BitVec.extractLsb'_append_eq_of_le (by decide)
    _ = red := BitVec.extractLsb'_append_eq_left
  have hgreen : (packSample red green blue).extractLsb' 5 6 = green := calc
    (packSample red green blue).extractLsb' 5 6 = (red ++ green).extractLsb' 0 6 :=
      BitVec.extractLsb'_append_eq_of_le (by decide)
    _ = green := BitVec.extractLsb'_append_eq_right
  have hblue : (packSample red green blue).extractLsb' 0 5 = blue := BitVec.extractLsb'_append_eq_right
  rw [decodeSample, hred, hgreen, hblue]

theorem encode_decodeSample (s : BitVec 16) : encode (decodeSample s) = .data16 s :=
  congrArg CodeWord.data16 (sample_eq_fields s).symm

theorem decodeStatus_packStatus (heldDisp heldCap : Bool) (phase : BitVec 4) (err : BitVec 2) (stopPend run : Bool) :
    decodeStatus (packStatus heldDisp heldCap phase err stopPend run) = .status heldDisp heldCap phase err stopPend run := by
  have hphase : (packStatus heldDisp heldCap phase err stopPend run).extractLsb' 4 4 = phase :=
    BitVec.eq_of_getLsbD_eq fun i hi => by
      rw [BitVec.getLsbD_extractLsb', decide_eq_true hi, Bool.true_and, packStatus_getLsbD_phase hi]
  have herr : (packStatus heldDisp heldCap phase err stopPend run).extractLsb' 2 2 = err :=
    BitVec.eq_of_getLsbD_eq fun i hi => by
      rw [BitVec.getLsbD_extractLsb', decide_eq_true hi, Bool.true_and, packStatus_getLsbD_err hi]
  rw [decodeStatus, hphase, herr, packStatus_getLsbD_heldDisp, packStatus_getLsbD_heldCap, packStatus_getLsbD_stopPend,
    packStatus_getLsbD_run]

/-- R23: the six fields cover the ten bits. -/
theorem encode_decodeStatus (w : BitVec 10) : encode (decodeStatus w) = .view10 w := by
  refine congrArg CodeWord.view10 (BitVec.eq_of_getLsbD_eq fun i hi => ?_)
  have hfield : i = 0 ∨ i = 1 ∨ (∃ j < 2, i = 2 + j) ∨ (∃ j < 4, i = 4 + j) ∨ i = 8 ∨ i = 9 := by
    rcases Nat.lt_or_ge i 4 with h | h
    · rcases Nat.lt_or_ge i 2 with h2 | h2
      · omega
      · exact .inr (.inr (.inl ⟨i - 2, by omega, by omega⟩))
    · rcases Nat.lt_or_ge i 8 with h8 | h8
      · exact .inr (.inr (.inr (.inl ⟨i - 4, by omega, by omega⟩)))
      · omega
  obtain rfl | rfl | ⟨j, hj, rfl⟩ | ⟨j, hj, rfl⟩ | rfl | rfl := hfield
  · exact packStatus_getLsbD_run
  · exact packStatus_getLsbD_stopPend
  · rw [packStatus_getLsbD_err hj, BitVec.getLsbD_extractLsb', decide_eq_true hj, Bool.true_and]
  · rw [packStatus_getLsbD_phase hj, BitVec.getLsbD_extractLsb', decide_eq_true hj, Bool.true_and]
  · exact packStatus_getLsbD_heldCap
  · exact packStatus_getLsbD_heldDisp

/-- Settles O1: PHASE4 code by code, and DATA16 and VIEW10 by the fields of the word. -/
theorem decodeAndEncodeAgree : Obligations.DecodeAndEncodeAgree := by
  unfold Obligations.DecodeAndEncodeAgree
  constructor
  · intro i
    cases i with
    | packedSample red green blue => exact decodeSample_packSample red green blue
    | status d c p e k r => exact decodeStatus_packStatus d c p e k r
    | chk | cap | nrm | exp | asm | rsz | shp | dth | sub | dly => rfl
    | reserved10 | reserved11 | reserved12 | reserved13 | reserved14 | reserved15 => rfl
  · intro w
    cases w with
    | phase4 code => exact encode_decodePhase code
    | data16 s => exact encode_decodeSample s
    | view10 v => exact encode_decodeStatus v

end Sys2Proof.Machine
end

section
/-! One step: the block's turn (R121, R127), the environment's moves (R156), the release of reset (R157), and what every step keeps
(R29, R127, R149). -/

namespace Sys2Proof.Machine

/-! ### The block's turn -/

/-- The next step is the block's: no move of the environment is to come, or the schedule gives the turn; `rest` is what is left of it. -/
def State.HasTurn (s : State) (rest : List EnvMove) : Prop :=
  s.env.schedule = [] ∧ rest = [] ∨ s.env.schedule = .runBlock :: rest

theorem State.withSchedule_nil {s : State} (h : s.env.schedule = []) : s.withSchedule [] = s := by
  rw [← h]
  rfl

section
variable {s : State} {rest : List EnvMove}

theorem fetch_of_move {m : EnvMove} (h : s.env.schedule = m :: rest) : fetch s = applyMove (s.withSchedule rest) m := by
  rw [fetch, h]

theorem fetch_of_turn (h : s.HasTurn rest) : fetch s = fetchBlock (s.withSchedule rest) := by
  obtain ⟨hnil, rfl⟩ | hturn := h
  · rw [fetch, hnil, State.withSchedule_nil hnil]
  · exact fetch_of_move hturn

theorem fetchBlock_of_inReset (h : s.inReset = true) : fetchBlock s = .settled (.fault .heldInReset) := by simp [fetchBlock, h]

theorem fetchBlock_of_illegal (hreset : s.inReset = false) (h : s.cfg.legal = false) :
    fetchBlock s = .settled (.refused .invalidConfiguration) := by simp [fetchBlock, hreset, h]

theorem fetchBlock_of_stopped (hreset : s.inReset = false) (hlegal : s.cfg.legal = true) (h : s.run = false) :
    fetchBlock s = .settled (.fault .stopped) := by simp [fetchBlock, hreset, hlegal, h]

theorem fetchBlock_of_running (hreset : s.inReset = false) (hlegal : s.cfg.legal = true) (h : s.run = true) :
    fetchBlock s = .execute (decode (.phase4 s.phase)) s := by simp [fetchBlock, hreset, hlegal, h]

/-- R121: the turn of a RUNNING block executes the operation that PHASE selects. -/
theorem step_of_turn (hturn : s.HasTurn rest) (hreset : s.inReset = false) (hlegal : s.cfg.legal = true) (hrun : s.run = true) :
    step s = exec (decode (.phase4 s.phase)) (s.withSchedule rest) := by
  rw [step, fetch_of_turn hturn, fetchBlock_of_running (s := s.withSchedule rest) hreset hlegal hrun]
  rfl

theorem step_of_readStatus (h : s.env.schedule = .readStatus :: rest) :
    step s = exec (decode (.view10 s.statusView)) (s.withSchedule rest) := by
  rw [step, fetch_of_move h]
  rfl

theorem step_of_settled {r : Result} (h : fetch s = .settled r) : step s = r := by rw [step, h]

end

/-- Settles O44: the turn of the block, and the read of STATUS. -/
theorem stepExecutesTheOperationOfPhase : Obligations.StepExecutesTheOperationOfPhase := by
  unfold Obligations.StepExecutesTheOperationOfPhase
  refine ⟨fun s hreset hlegal hrun => ⟨fun hnil => ?_, fun rest hturn => step_of_turn (.inr hturn) hreset hlegal hrun⟩,
    fun s rest => step_of_readStatus⟩
  rw [step_of_turn (.inl ⟨hnil, rfl⟩) hreset hlegal hrun, State.withSchedule_nil hnil]

/-- Settles O45: what the block's turn is fetched as in each of the three cases. -/
theorem noStepWithoutRunning : Obligations.NoStepWithoutRunning := by
  unfold Obligations.NoStepWithoutRunning
  intro s hsched
  obtain ⟨rest, hturn⟩ : ∃ rest, s.HasTurn rest :=
    hsched.elim (fun hnil => ⟨[], .inl ⟨hnil, rfl⟩⟩) fun ⟨rest, h⟩ => ⟨rest, .inr h⟩
  have hfetch := fetch_of_turn hturn
  exact ⟨fun hreset => step_of_settled (hfetch.trans (fetchBlock_of_inReset hreset)),
    fun hreset hlegal => step_of_settled (hfetch.trans (fetchBlock_of_illegal hreset hlegal)),
    fun hreset hlegal hrun => step_of_settled (hfetch.trans (fetchBlock_of_stopped hreset hlegal hrun))⟩

/-! ### The environment's moves -/

/-- R144: the latch is set unless reset is asserted. -/
theorem State.deliverStop_eq (s : State) : s.deliverStop = { s with stopPend := s.stopPend || !s.inReset } := by
  by_cases hreset : s.inReset = true
  · have hlost : (s.stopPend || !s.inReset) = s.stopPend := by simp [hreset]
    rw [State.deliverStop, if_pos hreset, hlost]
  · simp [State.deliverStop, hreset]

/-- Settles O48: the move is taken off the schedule and applied. -/
theorem environmentMovesChangeOnlyTheirInput : Obligations.EnvironmentMovesChangeOnlyTheirInput := by
  unfold Obligations.EnvironmentMovesChangeOnlyTheirInput
  intro s rest
  refine ⟨fun a h => step_of_settled (fetch_of_move h), fun a h => step_of_settled (fetch_of_move h),
    fun ms h => step_of_settled (fetch_of_move h), fun h => ?_, fun h => step_of_settled (fetch_of_move h)⟩
  have hlatch := (s.withSchedule rest).deliverStop_eq
  exact (step_of_settled (fetch_of_move h)).trans (congrArg Host.Outcome.next hlatch)

/-! ### The release of reset -/

section
variable {c : Configuration}

theorem releasable_of_legal (hlegal : c.legal = true) (htables : (coefTables c).isSome = true) : releasable c = .ok () := by
  obtain ⟨tables, htables⟩ := Option.isSome_iff_exists.mp htables
  simp [releasable, hlegal, htables]

theorem releasable_of_illegal (hlegal : c.legal = false) : releasable c = .error .invalidConfiguration := by
  simp [releasable, hlegal]

theorem releasable_of_no_tables (htables : coefTables c = none) :
    releasable c = .error (if c.legal then .coefficientTables else .invalidConfiguration) := by
  cases hlegal : c.legal <;> simp [releasable, hlegal, htables]

variable {s : State} {rest : List EnvMove}

theorem step_of_release_ok (h : s.env.schedule = .releaseReset c :: rest) (hreset : s.inReset = true)
    (hok : releasable c = .ok ()) : step s = .next (State.resetWith c { s.env with schedule := rest }) := by
  refine (step_of_settled (fetch_of_move h)).trans ?_
  simp [State.releaseReset, hreset, hok]

theorem step_of_release_error {r : Refusal} (h : s.env.schedule = .releaseReset c :: rest) (hreset : s.inReset = true)
    (herror : releasable c = .error r) : step s = .refused r := by
  refine (step_of_settled (fetch_of_move h)).trans ?_
  simp [State.releaseReset, hreset, herror]

theorem step_of_release_unasserted (h : s.env.schedule = .releaseReset c :: rest) (hreset : s.inReset = false) :
    step s = .next (s.withSchedule rest) := by
  refine (step_of_settled (fetch_of_move h)).trans ?_
  simp [State.releaseReset, hreset]

end

/-- Settles O47: whether the configuration is one that reset may be released with, where reset is asserted. -/
theorem releasingResetStartsOver : Obligations.ReleasingResetStartsOver := by
  unfold Obligations.ReleasingResetStartsOver
  intro s c rest h
  exact ⟨fun hreset hlegal htables => step_of_release_ok h hreset (releasable_of_legal hlegal htables),
    fun hreset hlegal => step_of_release_error h hreset (releasable_of_illegal hlegal),
    fun hreset htables => step_of_release_error h hreset (releasable_of_no_tables htables),
    step_of_release_unasserted h⟩

/-! ### The frame of a step -/

/-- What an instruction never writes: the configuration, the reset input, the time and the schedule. -/
structure State.SameInputs (s t : State) : Prop where
  cfg : t.cfg = s.cfg
  inReset : t.inReset = s.inReset
  now : t.env.now = s.env.now
  schedule : t.env.schedule = s.env.schedule

/-- A step of the environment alone (R156): the registers and buffers of the block stay, answers are only added, time only passes, the
stop latch is set by a delivery, and the record grows by a read of STATUS at most. -/
structure State.EnvironmentMoved (s t : State) : Prop where
  cfg : t.cfg = s.cfg
  phase : t.phase = s.phase
  run : t.run = s.run
  err : t.err = s.err
  tEnd : t.tEnd = s.tEnd
  heldCap : t.heldCap = s.heldCap
  heldDisp : t.heldDisp = s.heldDisp
  buf : t.buf = s.buf
  inReset : t.inReset = s.inReset ∨ ∃ rest, s.env.schedule = .assertReset :: rest
  stopPend : t.stopPend = s.stopPend ∨ (t.stopPend = true ∧ ∃ rest, s.env.schedule = .deliverStop :: rest)
  capAnswers : s.env.capAnswers <+: t.env.capAnswers
  dispAnswers : s.env.dispAnswers <+: t.env.dispAnswers
  now : s.env.now ≤ t.env.now
  trace : t.env.trace = s.env.trace ∨ ∃ w, t.env.trace = .statusRead w :: s.env.trace

theorem takeSnapshot_sameInputs (s : State) (a : CaptureAnswer) : s.SameInputs (s.takeSnapshot a) := by
  obtain ⟨-, h⟩ | ⟨raw, -, -, h⟩ | ⟨raw, -, -, h⟩ := takeSnapshot_cases s a <;> rw [h] <;> exact ⟨rfl, rfl, rfl, rfl⟩

theorem exec_sameInputs {i : Instr} {s t : State} (h : exec i s = .next t) : s.SameInputs t := by
  cases i with
  | chk => obtain ⟨-, rfl⟩ | ⟨-, rfl⟩ := execChk_next h <;> exact ⟨rfl, rfl, rfl, rfl⟩
  | cap =>
    obtain ⟨a, rest, -, rfl⟩ := execCap_next h
    obtain ⟨hcfg, hreset, hnow, hsched⟩ := takeSnapshot_sameInputs _ a
    exact ⟨hcfg, hreset, hnow, hsched⟩
  | nrm => obtain ⟨raw, -, -, rfl⟩ := execNrm_next h; exact ⟨rfl, rfl, rfl, rfl⟩
  | exp => obtain ⟨samp, -, -, rfl⟩ := execExp_next h; exact ⟨rfl, rfl, rfl, rfl⟩
  | asm => obtain ⟨tri, -, ⟨-, rfl⟩ | ⟨-, rfl⟩⟩ := execAsm_next h <;> exact ⟨rfl, rfl, rfl, rfl⟩
  | rsz => obtain ⟨full, hor, ver, -, -, -, -, rfl⟩ := execRsz_next h; exact ⟨rfl, rfl, rfl, rfl⟩
  | shp => obtain ⟨img, -, -, rfl⟩ := execShp_next h; exact ⟨rfl, rfl, rfl, rfl⟩
  | dth => obtain ⟨img, -, -, -, rfl⟩ := execDth_next h; exact ⟨rfl, rfl, rfl, rfl⟩
  | sub => obtain ⟨img, a, rest, -, -, -, rfl⟩ := execSub_next h; cases a <;> exact ⟨rfl, rfl, rfl, rfl⟩
  | dly => obtain ⟨rfl, -⟩ := execDly_next h; exact ⟨rfl, rfl, rfl, rfl⟩
  | status d c p e k r => obtain ⟨used, rfl, -⟩ := execStatus_next h; exact ⟨rfl, rfl, rfl, rfl⟩
  | packedSample | reserved10 | reserved11 | reserved12 | reserved13 | reserved14 | reserved15 => cases h

/-- A step that writes the environment alone. -/
theorem State.EnvironmentMoved.of_env {s : State} {env : Env} (hcap : s.env.capAnswers <+: env.capAnswers)
    (hdisp : s.env.dispAnswers <+: env.dispAnswers) (hnow : s.env.now ≤ env.now)
    (htrace : env.trace = s.env.trace ∨ ∃ w, env.trace = .statusRead w :: s.env.trace) : s.EnvironmentMoved { s with env := env } :=
  ⟨rfl, rfl, rfl, rfl, rfl, rfl, rfl, rfl, .inl rfl, .inl rfl, hcap, hdisp, hnow, htrace⟩

/-- R156: no move of the environment but the release of an asserted reset writes the block. -/
theorem applyMove_environmentMoved {s t : State} {m : EnvMove} {rest : List EnvMove} (hnext : s.env.schedule = m :: rest)
    (h : applyMove (s.withSchedule rest) m = .settled (.next t)) :
    s.EnvironmentMoved t
    ∨ (s.inReset = true ∧ ∃ c, s.env.schedule = .releaseReset c :: rest ∧ t = State.resetWith c { s.env with schedule := rest }) := by
  obtain ⟨a, -, rfl⟩ | ⟨a, -, rfl⟩ | ⟨rfl, rfl⟩ | ⟨ms, -, rfl⟩ | ⟨rfl, rfl⟩ | ⟨c, rfl, hreset, -, -, rfl⟩ | ⟨c, -, -, rfl⟩ :=
    applyMove_next h
  · exact .inl (.of_env (List.prefix_append _ _) List.prefix_rfl le_rfl (.inl rfl))
  · exact .inl (.of_env List.prefix_rfl (List.prefix_append _ _) le_rfl (.inl rfl))
  · refine .inl ⟨rfl, rfl, rfl, rfl, rfl, rfl, rfl, rfl, .inl rfl, ?_, List.prefix_rfl, List.prefix_rfl, le_rfl, .inl rfl⟩
    cases hreset : s.inReset with
    | true => exact .inl (by simp [hreset])
    | false => exact .inr ⟨by simp [hreset], rest, hnext⟩
  · exact .inl (.of_env List.prefix_rfl List.prefix_rfl (Nat.le_add_right _ _) (.inl rfl))
  · exact .inl ⟨rfl, rfl, rfl, rfl, rfl, rfl, rfl, rfl, .inr ⟨rest, hnext⟩, .inl rfl, List.prefix_rfl, List.prefix_rfl, le_rfl, .inl rfl⟩
  · exact .inr ⟨hreset, c, hnext, rfl⟩
  · exact .inl (.of_env List.prefix_rfl List.prefix_rfl le_rfl (.inl rfl))

/-- What a step can be: the block's operation, a step of the environment alone, or the release of an asserted reset. -/
theorem step_cases {s t : State} (h : step s = .next t) :
    (∃ rest, s.inReset = false ∧ s.cfg.legal = true ∧ s.run = true
      ∧ exec (decode (.phase4 s.phase)) (s.withSchedule rest) = .next t)
    ∨ s.EnvironmentMoved t
    ∨ (s.inReset = true ∧ ∃ c rest, s.env.schedule = .releaseReset c :: rest
      ∧ t = State.resetWith c { s.env with schedule := rest }) := by
  obtain ⟨rest, hblock | hread | ⟨m, hnext, hmove⟩⟩ := step_next h
  · exact .inl ⟨rest, hblock⟩
  · obtain ⟨used, rfl, -⟩ := execStatus_next hread
    exact .inr (.inl (.of_env List.prefix_rfl List.prefix_rfl le_rfl (.inr ⟨_, rfl⟩)))
  · exact .inr ((applyMove_environmentMoved hnext hmove).imp_right fun ⟨hreset, c, hrelease⟩ => ⟨hreset, c, rest, hrelease⟩)

/-- Settles O50: neither an instruction nor a move of the environment writes the configuration, but the release of reset. -/
theorem configurationIsConstant : Obligations.ConfigurationIsConstant := by
  unfold Obligations.ConfigurationIsConstant
  intro s t h
  obtain ⟨rest, -, -, -, hblock⟩ | henv | ⟨hreset, c, rest, hnext, -⟩ := step_cases h
  · exact .inl (exec_sameInputs hblock).cfg
  · exact .inl henv.cfg
  · exact .inr ⟨hreset, c, rest, hnext⟩

/-- Settles O51: a STOPPED block has no turn, and the environment alone leaves it as it is. -/
theorem onlyResetLeavesStopped : Obligations.OnlyResetLeavesStopped := by
  unfold Obligations.OnlyResetLeavesStopped
  intro s t hstopped h
  obtain ⟨rest, -, -, hrun, -⟩ | henv | ⟨hreset, c, rest, hnext, -⟩ := step_cases h
  · exact absurd hrun (by simp [hstopped])
  · exact .inl ⟨henv.run.trans hstopped, henv.err, henv.phase, henv.heldCap, henv.heldDisp, henv.buf, henv.tEnd, henv.stopPend,
      henv.trace⟩
  · exact .inr ⟨hreset, c, rest, hnext⟩

/-- Settles O52: an instruction leaves the time, the environment lets it pass. -/
theorem timeNeverRunsBackwards : Obligations.TimeNeverRunsBackwards := by
  unfold Obligations.TimeNeverRunsBackwards
  refine ⟨fun s t h => ?_, fun i s t h => (exec_sameInputs h).now⟩
  obtain ⟨rest, -, -, -, hblock⟩ | henv | ⟨-, c, rest, -, rfl⟩ := step_cases h
  · exact (exec_sameInputs hblock).now.ge
  · exact henv.now
  · exact le_rfl

end Sys2Proof.Machine
end

section
/-! The operations at the ports: SUB (R124), what an operation waits for (R121, R152) and stops on (R15, R57), and the read of STATUS
(R23, R44). -/

namespace Sys2Proof.Machine

section
variable {s : State} {img : BitImage}

/-! ### SUB -/

theorem State.readBit_eq_ok (hbit : s.buf.bit = some img) (hshape : hasShape s.cfg.dh s.cfg.dw img = true) : s.readBit = .ok img :=
  (readBuffer_eq_ok ..).mpr ⟨hbit, hshape⟩

/-- R124: SUB hands BIT over and takes the first answer that is ready. -/
theorem exec_sub_of_answer {a : DisplayAnswer} {more : List DisplayAnswer} (hbit : s.buf.bit = some img)
    (hshape : hasShape s.cfg.dh s.cfg.dw img = true) (hans : s.env.dispAnswers = a :: more) :
    exec .sub s = .next (({ s with
      env := { s.env with dispAnswers := more, trace := .displaySubmit img a :: s.env.trace } } : State).finishSubmit a) := by
  show execSub s = _
  rw [execSub, State.readBit_eq_ok hbit hshape, withBuffer_ok, State.displaySubmit, hans]
  rfl

/-! ### Waits -/

theorem exec_cap_of_no_answer (h : s.env.capAnswers = []) : exec .cap s = .fault .blockedInCapture := by
  show execCap s = _
  rw [execCap, State.captureRead, h]

theorem exec_sub_of_no_answer (hbit : s.buf.bit = some img) (hshape : hasShape s.cfg.dh s.cfg.dw img = true)
    (h : s.env.dispAnswers = []) : exec .sub s = .fault .blockedInSubmit := by
  show execSub s = _
  rw [execSub, State.readBit_eq_ok hbit hshape, withBuffer_ok, State.displaySubmit, h]

theorem exec_dly_of_delay_left (h : s.env.now < s.tEnd + s.cfg.delayMs.toNat) : exec .dly s = .fault .blockedInDelay :=
  if_neg (Nat.not_le.mpr h)

/-- R125: the turn of DLY once the delay has passed. -/
theorem step_dly_of_delay_passed {rest : List EnvMove} (hturn : s.HasTurn rest) (hreset : s.inReset = false)
    (hlegal : s.cfg.legal = true) (hrun : s.run = true) (hphase : s.phase = 9) (hdelay : s.tEnd + s.cfg.delayMs.toNat ≤ s.env.now) :
    step s = .next (((s.withSchedule rest).logPort (.now s.env.now)).setPhase 0) := by
  rw [step_of_turn hturn hreset hlegal hrun, hphase]
  exact exec_dly_of_delay_passed (s := s.withSchedule rest) hdelay

theorem step_of_passTime {ms : Nat} {rest : List EnvMove} (h : s.env.schedule = .passTime ms :: rest) :
    step s = .next { s with env := { s.env with schedule := rest, now := s.env.now + ms } } := step_of_settled (fetch_of_move h)

/-- R121, R125: time that passes enables DLY. -/
theorem run_dly_after_time {ms : Nat} {rest : List EnvMove} (hreset : s.inReset = false) (hlegal : s.cfg.legal = true)
    (hrun : s.run = true) (hphase : s.phase = 9) (hsched : s.env.schedule = .passTime ms :: .runBlock :: rest)
    (hdelay : s.tEnd + s.cfg.delayMs.toNat ≤ s.env.now + ms) :
    core.run 2 s = .next { s with
      phase := 0
      env := { s.env with schedule := rest, now := s.env.now + ms, trace := .now (s.env.now + ms) :: s.env.trace } } := by
  have hturn := step_dly_of_delay_passed (s := { s with env := { s.env with schedule := .runBlock :: rest, now := s.env.now + ms } })
    (.inr rfl) hreset hlegal hrun hphase hdelay
  exact (run_succ_of_step core 1 (step_of_passTime hsched)).trans (run_succ_of_step core 0 hturn)

end

/-- Settles O35: the answer is taken, and finishing the submission with it is R124's two cases. -/
theorem subSubmitsTheImage : Obligations.SubSubmitsTheImage := by
  unfold Obligations.SubSubmitsTheImage
  refine ⟨rfl, rfl, fun s img a more hbit hshape hans => ⟨?_, ?_⟩⟩
  · rintro rfl
    exact exec_sub_of_answer hbit hshape hans
  · rintro rfl
    exact exec_sub_of_answer hbit hshape hans

/-- Settles O37: the three waits, and after the time has passed the turn of DLY. -/
theorem unansweredPortsBlock : Obligations.UnansweredPortsBlock := by
  unfold Obligations.UnansweredPortsBlock
  refine ⟨fun s => exec_cap_of_no_answer, fun s img => exec_sub_of_no_answer, fun s => exec_dly_of_delay_left, ?_⟩
  intro s ms rest hreset hlegal hrun hphase hsched hdelay
  exact ⟨_, run_dly_after_time hreset hlegal hrun hphase hsched hdelay, rfl, hrun⟩

/-! ### Reads that stop -/

/-- R15: a checked read of a buffer that holds no value is a fault. -/
@[simp] theorem readBuffer_none {α : Type} (name : BufferName) (ok : α → Bool) :
    readBuffer name ok none = .error (.holdsNoValue name) := rfl

/-- Settles O38: each operation reads its operand first. -/
theorem readingAnEmptyBufferIsAFault : Obligations.ReadingAnEmptyBufferIsAFault := by
  unfold Obligations.ReadingAnEmptyBufferIsAFault
  intro s
  refine ⟨fun h => ?_, fun h => ?_, fun h => ?_, fun h => ?_, fun h => ?_, fun h => ?_, fun h => ?_⟩
  · simp [exec, execNrm, State.readRaw, h]
  · simp [exec, execExp, State.readSamp, h]
  · simp [exec, execAsm, State.readTri, h]
  · simp [exec, execRsz, State.readFull, h]
  · simp [exec, execShp, State.readRsz, h]
  · simp [exec, execDth, State.readEnh, h]
  · simp [exec, execSub, State.readBit, h]

/-- Settles O41: the row stops whatever the sample. -/
theorem packedSampleIsNoOperation : Obligations.PackedSampleIsNoOperation := by
  unfold Obligations.PackedSampleIsNoOperation
  exact fun _ _ _ _ => rfl

/-! ### The read of STATUS -/

section
variable {heldDisp heldCap : Bool} {phase : BitVec 4} {err : BitVec 2} {stopPend run : Bool} {s : State}

/-- R44: the read of the word that STATUS shows completes; it uses a free value while reset is held. -/
theorem exec_status_of_shown (h : packStatus heldDisp heldCap phase err stopPend run = s.statusView) :
    exec (.status heldDisp heldCap phase err stopPend run) s
      = .next ((if s.inReset then s.useFree else s).logPort (.statusRead s.statusRead)) := if_pos h

theorem exec_status_of_not_shown (h : packStatus heldDisp heldCap phase err stopPend run ≠ s.statusView) :
    exec (.status heldDisp heldCap phase err stopPend run) s = .fault .statusReadsOtherwise := if_neg h

end

/-- U12: a wider read has STATUS in its low bits. -/
theorem State.statusRead_low (s : State) : s.statusRead.extractLsb' 0 10 = s.statusView := by
  rw [State.statusRead, BitVec.extractLsb'_setWidth_of_le (by decide), BitVec.extractLsb'_eq_self]

/-- U12: the bits above STATUS read as 0. -/
theorem State.statusRead_high (s : State) : s.statusRead.extractLsb' 10 6 = 0 :=
  BitVec.eq_of_getLsbD_eq fun i _ => by simp [State.statusRead]

/-- Settles O39: the read completes for the word that STATUS shows and for no other. -/
theorem readingStatusChangesNothing : Obligations.ReadingStatusChangesNothing := by
  unfold Obligations.ReadingStatusChangesNothing
  refine ⟨fun s => ⟨s.statusRead_low, s.statusRead_high⟩,
    fun s heldDisp heldCap phase err stopPend run => ⟨fun h => ?_, exec_status_of_not_shown⟩⟩
  obtain ⟨used, ht, hfree⟩ := execStatus_next (exec_status_of_shown h)
  exact ⟨used, (exec_status_of_shown h).trans (congrArg Host.Outcome.next ht), hfree⟩

end Sys2Proof.Machine
end

section
/-! Sane states (R14 to R18, R21, R126, R140): a sane RUNNING block completes, waits or has failing tables, and every step keeps it sane. -/

namespace Sys2Proof.Machine

/-! ### The parts of a legal configuration -/

section
variable {c : Configuration}

/-- R155: what validity says, parameter by parameter. -/
theorem Configuration.legal_iff : c.legal = true ↔ (c.w ≠ 0 ∧ c.h ≠ 0 ∧ c.dw ≠ 0 ∧ c.dh ≠ 0) ∧ c.ditherAlg = 0 ∧ c.kernel = 0
    ∧ (1 ≤ c.coefP ∧ c.coefP ≤ 16) ∧ c.luma.legal = true ∧ c.thresh ≠ 0 ∧ c.pipelined = false := by
  simp [Configuration.legal, Configuration.coefPLegal, and_assoc]

theorem Configuration.kernel_of_legal (h : c.legal = true) : c.kernel = 0 := by
  obtain ⟨-, -, hkernel, -⟩ := legal_iff.mp h
  exact hkernel

theorem Configuration.ditherAlg_of_legal (h : c.legal = true) : c.ditherAlg = 0 := by
  obtain ⟨-, halg, -⟩ := legal_iff.mp h
  exact halg

end

/-! ### Refusals -/

section
variable {s : State}

theorem exec_rsz_of_reserved_kernel {full : Image} (hfull : s.buf.full = some full) (hshape : hasShape s.cfg.h s.cfg.w full = true)
    (hkernel : s.cfg.kernel ≠ 0) : exec .rsz s = .refused .invalidConfiguration := by
  have hread : s.readFull = .ok full := (readBuffer_eq_ok ..).mpr ⟨hfull, hshape⟩
  show execRsz s = _
  rw [execRsz, hread, withBuffer_ok, if_pos hkernel]

theorem exec_rsz_of_no_tables {full : Image} (hfull : s.buf.full = some full) (hshape : hasShape s.cfg.h s.cfg.w full = true)
    (hkernel : s.cfg.kernel = 0) (htables : coefTables s.cfg = none) : exec .rsz s = .refused .coefficientTables := by
  have hread : s.readFull = .ok full := (readBuffer_eq_ok ..).mpr ⟨hfull, hshape⟩
  show execRsz s = _
  rw [execRsz, hread, withBuffer_ok, if_neg (not_not_intro hkernel), htables]

theorem exec_dth_of_reserved_alg {img : Image} (henh : s.buf.enh = some img) (hshape : hasShape s.cfg.dh s.cfg.dw img = true)
    (halg : s.cfg.ditherAlg ≠ 0) : exec .dth s = .refused .invalidConfiguration := by
  have hread : s.readEnh = .ok img := (readBuffer_eq_ok ..).mpr ⟨henh, hshape⟩
  show execDth s = _
  rw [execDth, hread, withBuffer_ok, if_pos halg]

end

/-- Settles O22: a configuration with such a parameter is not legal; the reads of RSZ and DTH are followed by their tests. -/
theorem reservedSelectorsAndBadTablesAreRefused : Obligations.ReservedSelectorsAndBadTablesAreRefused := by
  unfold Obligations.ReservedSelectorsAndBadTablesAreRefused
  refine ⟨fun c hbad => releasable_of_illegal ?_, fun c htables => ?_, fun s full => exec_rsz_of_reserved_kernel,
    fun s full => exec_rsz_of_no_tables, fun s img => exec_dth_of_reserved_alg⟩
  · by_contra hlegal
    obtain ⟨⟨hw, hh, hdw, hdh⟩, halg, hkernel, -⟩ := Configuration.legal_iff.mp (Bool.of_not_eq_false hlegal)
    have hsize : ∀ x : BitVec 16, x.toNat ≠ 0 → x ≠ 0 := fun x hx h => hx (by rw [h]; rfl)
    rcases hbad with h | h | h | h | h | h
    · exact h halg
    · exact h hkernel
    · exact hsize _ hw h
    · exact hsize _ hh h
    · exact hsize _ hdw h
    · exact hsize _ hdh h
  · rw [releasable_of_no_tables htables]
    split
    · exact .inr rfl
    · exact .inl rfl

/-! ### Sane states -/

theorem State.sane_resetWith (c : Configuration) (env : Env) : (State.resetWith c env).Sane :=
  ⟨Nat.zero_le 9, rfl, rfl, fun _ => rfl, fun _ => rfl, nofun⟩

section
variable {s t : State}

theorem State.Sane.fit {p : BitVec 4} (hs : s.Sane) (hrun : s.run = true) (hphase : s.phase = p) : s.buf.fit s.cfg p.toNat :=
  hphase ▸ hs.buf_running hrun

/-- A sane RUNNING block that goes on is sane where its buffers fit its next operation. -/
theorem State.Sane.goesOn (hs : s.Sane) (hrun : s.run = true) (hphase : t.phase.toNat ≤ 9) (hfit : t.buf.fit t.cfg t.phase.toNat)
    (hkept : t.run = s.run ∧ t.err = s.err ∧ t.heldCap = s.heldCap ∧ t.heldDisp = s.heldDisp) : t.Sane := by
  obtain ⟨hrun', herr, hcap, hdisp⟩ := hkept
  have hrunning : t.run = true := hrun'.trans hrun
  exact ⟨hphase, by rw [hcap, hs.heldCap_eq, hrun'], by rw [hdisp, hs.heldDisp_eq, hrun'], fun _ => herr.trans (hs.err_running hrun),
    fun _ => hfit, fun hstopped => absurd hstopped (by simp [hrunning])⟩

/-- R140: error entry leaves a sane block. -/
theorem State.sane_raiseError (e : ErrorCode) (hphase : s.phase.toNat ≤ 9) : (s.raiseError e).Sane :=
  ⟨hphase, rfl, rfl, nofun, nofun, fun _ => Buffers.afterError_eq s.buf e⟩

/-- The environment alone leaves a sane block sane. -/
theorem State.Sane.of_environmentMoved (hs : s.Sane) (henv : s.EnvironmentMoved t) : t.Sane where
  phase_le := henv.phase ▸ hs.phase_le
  heldCap_eq := by rw [henv.heldCap, hs.heldCap_eq, henv.run]
  heldDisp_eq := by rw [henv.heldDisp, hs.heldDisp_eq, henv.run]
  err_running h := henv.err.trans (hs.err_running (henv.run.symm.trans h))
  buf_running h := by
    rw [henv.buf, henv.cfg, henv.phase]
    exact hs.buf_running (henv.run.symm.trans h)
  buf_stopped h := by
    rw [henv.buf]
    exact hs.buf_stopped (henv.run.symm.trans h)

theorem State.Sane.withSchedule (hs : s.Sane) (moves : List EnvMove) : (s.withSchedule moves).Sane :=
  ⟨hs.phase_le, hs.heldCap_eq, hs.heldDisp_eq, hs.err_running, hs.buf_running, hs.buf_stopped⟩

end

/-! ### Each operation in a sane state -/

/-- R62: the operations in three kinds: those of the loop, the datapath, and no others in a sane state. -/
theorem phase_cases {p : BitVec 4} (h : p.toNat ≤ 9) : p = 0 ∨ p = 1 ∨ (2 ≤ p.toNat ∧ p.toNat ≤ 7) ∨ p = 8 ∨ p = 9 := by
  revert p
  decide

theorem datapathPhase_cases {p : BitVec 4} (h : 2 ≤ p.toNat ∧ p.toNat ≤ 7) : p = 2 ∨ p = 3 ∨ p = 4 ∨ p = 5 ∨ p = 6 ∨ p = 7 := by
  revert p
  decide

/-- R135: each operation of the datapath completes on buffers that fit it and leaves buffers that fit the next one. RSZ needs tables. -/
theorem exec_datapath_of_fit {s : State} {p : BitVec 4} (hp : 2 ≤ p.toNat ∧ p.toNat ≤ 7) (hlegal : s.cfg.legal = true)
    (htables : p = 5 → (coefTables s.cfg).isSome = true) (hfit : s.buf.fit s.cfg p.toNat) :
    ∃ b : Buffers, exec (decode (.phase4 p)) s = .next ((s.setBuf b).setPhase (p + 1)) ∧ b.fit s.cfg (p + 1).toNat := by
  obtain rfl | rfl | rfl | rfl | rfl | rfl := datapathPhase_cases hp
  · obtain ⟨raw, hlen, hbuf⟩ := hfit
    refine ⟨_, exec_nrm_of_raw (by rw [hbuf]) hlen, raw, normalise raw, hlen, normalise_length_of_bytes hlen, ?_⟩
    rw [hbuf]
  · obtain ⟨raw, samp, -, hlen, hbuf⟩ := hfit
    refine ⟨_, exec_exp_of_samp (by rw [hbuf]) hlen, expandAll samp, (expandAll_length samp).trans hlen, ?_⟩
    rw [hbuf]
    rfl
  · obtain ⟨tri, hlen, hbuf⟩ := hfit
    refine ⟨_, exec_asm_of_tri (by rw [hbuf]) hlen, assemble s.cfg.w s.cfg.h tri, assemble_hasShape _ _ _ hlen, ?_⟩
    rw [hbuf]
    rfl
  · obtain ⟨full, hshape, hbuf⟩ := hfit
    obtain ⟨⟨hor, ver⟩, htab⟩ := Option.isSome_iff_exists.mp (htables rfl)
    refine ⟨_, exec_rsz_of_full (by rw [hbuf]) hshape (Configuration.kernel_of_legal hlegal) htab,
      resample s.cfg.coefP s.cfg.dw hor ver full, ?_, ?_⟩
    · exact resample_hasShape _ _ _ hor ver full (axisTable_length (coefTables_eq_some htab).2)
    · rw [hbuf]
      rfl
  · obtain ⟨img, hshape, hbuf⟩ := hfit
    refine ⟨_, exec_shp_of_rsz (by rw [hbuf]) hshape, _,
      sharpenImage_hasShape s.cfg.sharpF.toNat s.cfg.dh s.cfg.dw _ _ img hshape, ?_⟩
    rw [hbuf]
    rfl
  · obtain ⟨img, hshape, hbuf⟩ := hfit
    refine ⟨_, exec_dth_of_enh (by rw [hbuf]) hshape (Configuration.ditherAlg_of_legal hlegal), _,
      ditherImage_hasShape s.cfg.luma s.cfg.thresh.toNat _ _ img hshape, ?_⟩
    rw [hbuf]
    rfl

/-- R152: the block waits, and a turn given to it stops on `f`: for a snapshot, for the sink, for the delay. -/
def State.WaitsOn (s : State) (f : Fault) : Prop :=
  s.phase = 1 ∧ s.env.capAnswers = [] ∧ f = .blockedInCapture
    ∨ s.phase = 8 ∧ s.env.dispAnswers = [] ∧ f = .blockedInSubmit
    ∨ s.phase = 9 ∧ s.env.now < s.tEnd + s.cfg.delayMs.toNat ∧ f = .blockedInDelay

/-- R126, R128, R155: the operation of a sane RUNNING block with a legal configuration completes, is RSZ and refused for failing tables, or
waits. -/
theorem exec_phase_of_sane {s : State} (hs : s.Sane) (hrun : s.run = true) (hlegal : s.cfg.legal = true) :
    (∃ t, exec (decode (.phase4 s.phase)) s = .next t)
    ∨ (coefTables s.cfg = none ∧ exec (decode (.phase4 s.phase)) s = .refused .coefficientTables)
    ∨ ∃ f, s.WaitsOn f ∧ exec (decode (.phase4 s.phase)) s = .fault f := by
  obtain hp | hp | hp | hp | hp := phase_cases hs.phase_le
  · rw [hp]
    exact .inl ⟨_, exec_chk s⟩
  · rw [hp]
    cases hans : s.env.capAnswers with
    | nil => exact .inr (.inr ⟨_, .inl ⟨hp, hans, rfl⟩, exec_cap_of_no_answer hans⟩)
    | cons a more => exact .inl ⟨_, exec_cap_of_answer hans⟩
  · cases htables : coefTables s.cfg with
    | some tables =>
      obtain ⟨b, hnext, -⟩ := exec_datapath_of_fit hp hlegal (fun _ => by simp [htables]) (hs.buf_running hrun)
      exact .inl ⟨_, hnext⟩
    | none =>
      by_cases h5 : s.phase = 5
      · obtain ⟨full, hshape, hbuf⟩ := hs.fit hrun h5
        rw [h5]
        exact .inr (.inl ⟨rfl, exec_rsz_of_no_tables (by rw [hbuf]) hshape (Configuration.kernel_of_legal hlegal) htables⟩)
      · obtain ⟨b, hnext, -⟩ := exec_datapath_of_fit hp hlegal (fun h => absurd h h5) (hs.buf_running hrun)
        exact .inl ⟨_, hnext⟩
  · obtain ⟨img, hshape, hbuf⟩ := hs.fit hrun hp
    have hbit : s.buf.bit = some img := by rw [hbuf]
    rw [hp]
    cases hans : s.env.dispAnswers with
    | nil => exact .inr (.inr ⟨_, .inr (.inl ⟨hp, hans, rfl⟩), exec_sub_of_no_answer hbit hshape hans⟩)
    | cons a more => exact .inl ⟨_, exec_sub_of_answer hbit hshape hans⟩
  · rw [hp]
    rcases Nat.lt_or_ge s.env.now (s.tEnd + s.cfg.delayMs.toNat) with hleft | hpassed
    · exact .inr (.inr ⟨_, .inr (.inr ⟨hp, hleft, rfl⟩), exec_dly_of_delay_left hleft⟩)
    · exact .inl ⟨_, exec_dly_of_delay_passed hpassed⟩

section
variable {s t : State}

theorem execChk_sane (hs : s.Sane) (hrun : s.run = true) (hp : s.phase = 0) (h : execChk s = .next t) : t.Sane := by
  have hempty : s.buf = Buffers.empty := hs.fit hrun hp
  obtain ⟨-, rfl⟩ | ⟨-, rfl⟩ := execChk_next h
  · exact ⟨hs.phase_le, rfl, rfl, nofun, nofun, fun _ => by simp [hempty, Buffers.empty]⟩
  · exact hs.goesOn hrun (by simp) hempty ⟨rfl, rfl, rfl, rfl⟩

theorem execCap_sane (hs : s.Sane) (hrun : s.run = true) (h : execCap s = .next t) : t.Sane := by
  obtain ⟨a, rest, -, rfl⟩ := execCap_next h
  obtain ⟨-, htake⟩ | ⟨raw, -, -, htake⟩ | ⟨raw, -, hlen, htake⟩ := takeSnapshot_cases _ a <;> rw [htake]
  · exact State.sane_raiseError _ hs.phase_le
  · exact State.sane_raiseError _ hs.phase_le
  · exact hs.goesOn hrun (by simp) ⟨raw, hlen, by rw [hlen]; rfl⟩ ⟨rfl, rfl, rfl, rfl⟩

theorem execSub_sane (hs : s.Sane) (hrun : s.run = true) (hp : s.phase = 8) (h : execSub s = .next t) : t.Sane := by
  obtain ⟨img, -, hbuf⟩ := hs.fit hrun hp
  obtain ⟨_, a, rest, -, -, -, rfl⟩ := execSub_next h
  cases a with
  | fail => exact State.sane_raiseError _ hs.phase_le
  | ok =>
    have hempty : { s.buf with bit := none } = Buffers.empty := by rw [hbuf]; rfl
    exact hs.goesOn hrun (by simp [State.finishSubmit]) hempty ⟨rfl, rfl, rfl, rfl⟩

/-- R126: the operation that PHASE selects keeps a RUNNING block sane. -/
theorem exec_phase_keeps_sane (hs : s.Sane) (hrun : s.run = true) (hlegal : s.cfg.legal = true)
    (h : exec (decode (.phase4 s.phase)) s = .next t) : t.Sane := by
  obtain hp | hp | hp | hp | hp := phase_cases hs.phase_le
  · exact execChk_sane hs hrun hp (by rwa [hp] at h)
  · exact execCap_sane hs hrun (by rwa [hp] at h)
  · have htables : s.phase = 5 → (coefTables s.cfg).isSome = true := by
      intro h5
      rw [h5] at h
      obtain ⟨_, hor, ver, -, -, -, htab, -⟩ := execRsz_next h
      simp [htab]
    obtain ⟨b, hnext, hfit⟩ := exec_datapath_of_fit hp hlegal htables (hs.buf_running hrun)
    rw [hnext] at h
    cases h
    have hle : (s.phase + 1).toNat ≤ 9 := by bv_omega
    exact hs.goesOn hrun hle hfit ⟨rfl, rfl, rfl, rfl⟩
  · exact execSub_sane hs hrun hp (by rwa [hp] at h)
  · have hempty : s.buf = Buffers.empty := hs.fit hrun hp
    rw [hp] at h
    obtain ⟨rfl, -⟩ := execDly_next h
    exact hs.goesOn hrun (by simp) hempty ⟨rfl, rfl, rfl, rfl⟩

end

/-- Settles O54: the block's operation, the environment alone, and the release of reset. -/
theorem everyStepKeepsSanity : Obligations.EveryStepKeepsSanity := by
  unfold Obligations.EveryStepKeepsSanity
  intro s t hs h
  obtain ⟨rest, -, hlegal, hrun, hblock⟩ | henv | ⟨-, c, rest, -, rfl⟩ := step_cases h
  · exact exec_phase_keeps_sane (hs.withSchedule rest) hrun hlegal hblock
  · exact hs.of_environmentMoved henv
  · exact State.sane_resetWith _ _

/-! ### Faults -/

/-- R44: the environment's read of STATUS always completes. -/
theorem exec_view10_statusView (s : State) : ∃ t, exec (decode (.view10 s.statusView)) s = .next t :=
  ⟨_, exec_status_of_shown (CodeWord.view10.inj (encode_decodeStatus s.statusView))⟩

theorem releaseReset_ne_fault {s : State} {c : Configuration} {f : Fault} : s.releaseReset c ≠ .fault f := by
  rw [State.releaseReset]
  split
  · split <;> exact nofun
  · exact nofun

/-- The faults of a step are those of the block's turn: reset, STOPPED, and those of the operation. -/
theorem step_fault {s : State} {f : Fault} (h : step s = .fault f) :
    ∃ rest, f = .heldInReset ∨ f = .stopped
      ∨ (s.cfg.legal = true ∧ s.run = true ∧ exec (decode (.phase4 s.phase)) (s.withSchedule rest) = .fault f) := by
  have block {rest : List EnvMove} (hturn : s.HasTurn rest) : f = .heldInReset ∨ f = .stopped
      ∨ (s.cfg.legal = true ∧ s.run = true ∧ exec (decode (.phase4 s.phase)) (s.withSchedule rest) = .fault f) := by
    obtain ⟨hreset, hillegal, hstopped⟩ :=
      noStepWithoutRunning s (hturn.elim (fun h => .inl h.1) fun h => .inr ⟨rest, h⟩)
    cases h1 : s.inReset with
    | true => cases (hreset h1).symm.trans h; exact .inl rfl
    | false =>
      cases h2 : s.cfg.legal with
      | false => cases (hillegal h1 h2).symm.trans h
      | true =>
        cases h3 : s.run with
        | false => cases (hstopped h1 h2 h3).symm.trans h; exact .inr (.inl rfl)
        | true => exact .inr (.inr ⟨rfl, rfl, (step_of_turn hturn h1 h2 h3).symm.trans h⟩)
  cases hsched : s.env.schedule with
  | nil => exact ⟨[], block (.inl ⟨hsched, rfl⟩)⟩
  | cons m rest =>
    refine ⟨rest, ?_⟩
    cases m with
    | runBlock => exact block (.inr hsched)
    | readStatus =>
      obtain ⟨t, hnext⟩ := exec_view10_statusView (s.withSchedule rest)
      cases ((step_of_readStatus hsched).symm.trans h).symm.trans hnext
    | releaseReset c => exact absurd ((step_of_settled (fetch_of_move hsched)).symm.trans h) releaseReset_ne_fault
    | answerCapture | answerDisplay | deliverStop | passTime | assertReset =>
      cases (step_of_settled (fetch_of_move hsched)).symm.trans h

/-- Settles O55: no move of the environment faults, and the operation of a sane RUNNING block faults in the three waits only. -/
theorem saneStatesNeverMisread : Obligations.SaneStatesNeverMisread := by
  unfold Obligations.SaneStatesNeverMisread
  intro s hs f h
  obtain ⟨rest, rfl | rfl | ⟨hlegal, hrun, hblock⟩⟩ := step_fault h
  · exact .inr (.inr (.inr (.inr rfl)))
  · exact .inr (.inr (.inr (.inl rfl)))
  · obtain ⟨t, hnext⟩ | ⟨-, hrefused⟩ | ⟨g, hwaits, hfault⟩ := exec_phase_of_sane (hs.withSchedule rest) hrun hlegal
    · exact absurd (hnext.symm.trans hblock) nofun
    · exact absurd (hrefused.symm.trans hblock) nofun
    · cases hfault.symm.trans hblock
      obtain ⟨-, -, rfl⟩ | ⟨-, -, rfl⟩ | ⟨-, -, rfl⟩ := hwaits
      · exact .inl rfl
      · exact .inr (.inl rfl)
      · exact .inr (.inr (.inl rfl))

/-- Settles O56: the datapath operation completes on the buffers that a sane state has. -/
theorem datapathAlwaysCompletes : Obligations.DatapathAlwaysCompletes := by
  unfold Obligations.DatapathAlwaysCompletes
  intro s rest hs hrun hreset hlegal htables hturn h2 h7
  obtain ⟨b, hnext, -⟩ :=
    exec_datapath_of_fit (s := s.withSchedule rest) ⟨h2, h7⟩ hlegal (fun _ => htables) (hs.buf_running hrun)
  exact ⟨_, (step_of_turn hturn hreset hlegal hrun).trans hnext, hrun, rfl, rfl⟩

/-- R82: ASM on a count other than W*H. -/
theorem exec_asm_of_wrong_count {s : State} {tri : List Triple} (htri : s.buf.tri = some tri) (hlen : tri.length ≠ s.cfg.samples) :
    exec .asm s = .next (s.raiseError .captureSize) := by
  have hread : s.readTri = .ok tri := (readBuffer_eq_ok ..).mpr ⟨htri, rfl⟩
  show execAsm s = _
  rw [execAsm, hread, withBuffer_ok, if_pos hlen]

/-- Settles O12: error entry, and ASM completing on the count that a sane state has. -/
theorem asmReportsAWrongCount : Obligations.AsmReportsAWrongCount := by
  unfold Obligations.AsmReportsAWrongCount
  refine ⟨fun s tri => exec_asm_of_wrong_count, rfl, fun s t hs hrun hphase hreset h => ?_⟩
  have hnone := hs.err_running hrun
  obtain ⟨rest, -, hlegal, -, hblock⟩ | henv | ⟨hasserted, -⟩ := step_cases h
  · have hcases : 2 ≤ s.phase.toNat ∧ s.phase.toNat ≤ 7 := by simp [hphase]
    obtain ⟨b, hnext, -⟩ := exec_datapath_of_fit (s := s.withSchedule rest) hcases hlegal (by simp [hphase]) (hs.buf_running hrun)
    rw [hnext] at hblock
    cases hblock
    exact hnone
  · exact henv.err.trans hnone
  · exact absurd hasserted (by simp [hreset])

end Sys2Proof.Machine
end

section
/-! FRAME (R130), the record of submissions (R133, R49), the delay between them (R168), and one TICK (R71). -/

namespace Sys2Proof.Machine

/-! ### FRAME -/

section
variable {c : Configuration} {raw : List Byte}

theorem frontEnd_hasShape (hlen : raw.length = c.bytes) : hasShape c.h c.w (frontEnd c raw) = true :=
  assemble_hasShape _ _ _ ((expandAll_length _).trans (normalise_length_of_bytes hlen))

theorem resampled_of_tables {hor ver : List CoefRow} (h : coefTables c = some (hor, ver)) :
    resampled c raw = some (resample c.coefP c.dw hor ver (frontEnd c raw)) := by rw [resampled, h]

theorem enhanced_of_resampled {img : Image} (h : resampled c raw = some img) :
    enhanced c raw = some (sharpenImage c.sharpF.toNat c.dh c.dw img) := by rw [enhanced, h, Option.map_some]

theorem frame_of_enhanced {img : Image} (h : enhanced c raw = some img) :
    frame c raw = some (ditherImage c.luma c.thresh.toNat c.dw img) := by rw [frame, h, Option.map_some]

end

/-- Settles O59: the tables give the resampled image, and each later stage is total and keeps the shape. -/
theorem frameIsTotal : Obligations.FrameIsTotal := by
  unfold Obligations.FrameIsTotal
  intro c raw _ htables
  obtain ⟨⟨hor, ver⟩, htab⟩ := Option.isSome_iff_exists.mp htables
  have hver : ver.length = c.dh := axisTable_length (coefTables_eq_some htab).2
  refine ⟨_, frame_of_enhanced (enhanced_of_resampled (resampled_of_tables htab)), ?_⟩
  exact ditherImage_hasShape _ _ _ _ _ (sharpenImage_hasShape _ _ _ _ _ _ (resample_hasShape _ _ _ hor ver _ hver))

/-! ### The datapath as a function of the snapshot -/

section
variable {s t : State} {p : BitVec 4} {raw : List Byte}

/-- R130: an operation of the datapath takes the buffers of its stage to those of the next, or ASM ends with an error (R82). -/
theorem exec_datapath_stage (hp : 2 ≤ p.toNat ∧ p.toNat ≤ 7) (hstage : stageBuffers s.cfg raw p.toNat = some s.buf)
    (h : exec (decode (.phase4 p)) s = .next t) :
    (∃ b, stageBuffers s.cfg raw (p + 1).toNat = some b ∧ t = (s.setBuf b).setPhase (p + 1))
    ∨ t = s.raiseError .captureSize := by
  obtain rfl | rfl | rfl | rfl | rfl | rfl := datapathPhase_cases hp
  · have hbuf := (Option.some.inj hstage).symm
    obtain ⟨_, hraw, -, rfl⟩ := execNrm_next h
    rw [hbuf] at hraw ⊢
    cases hraw
    exact .inl ⟨_, rfl, rfl⟩
  · have hbuf := (Option.some.inj hstage).symm
    obtain ⟨_, hsamp, -, rfl⟩ := execExp_next h
    rw [hbuf] at hsamp ⊢
    cases hsamp
    exact .inl ⟨_, rfl, rfl⟩
  · have hbuf := (Option.some.inj hstage).symm
    obtain ⟨_, htri, ⟨-, rfl⟩ | ⟨-, rfl⟩⟩ := execAsm_next h
    · exact .inr rfl
    · rw [hbuf] at htri ⊢
      cases htri
      exact .inl ⟨_, rfl, rfl⟩
  · have hbuf := (Option.some.inj hstage).symm
    obtain ⟨_, hor, ver, hfull, -, -, htab, rfl⟩ := execRsz_next h
    rw [hbuf] at hfull ⊢
    cases hfull
    exact .inl ⟨_, congrArg (Option.map _) (resampled_of_tables htab), rfl⟩
  · obtain ⟨img, hres, hbuf⟩ := Option.map_eq_some_iff.mp hstage
    obtain ⟨_, hrsz, -, rfl⟩ := execShp_next h
    rw [← hbuf] at hrsz ⊢
    cases hrsz
    exact .inl ⟨_, congrArg (Option.map _) (enhanced_of_resampled hres), rfl⟩
  · obtain ⟨img, henh, hbuf⟩ := Option.map_eq_some_iff.mp hstage
    obtain ⟨_, henh', -, -, rfl⟩ := execDth_next h
    rw [← hbuf] at henh' ⊢
    cases henh'
    exact .inl ⟨_, congrArg (Option.map _) (frame_of_enhanced henh), rfl⟩

/-- R49: the datapath uses no port. -/
theorem exec_datapath_env (hp : 2 ≤ p.toNat ∧ p.toNat ≤ 7) (h : exec (decode (.phase4 p)) s = .next t) : t.env = s.env := by
  obtain rfl | rfl | rfl | rfl | rfl | rfl := datapathPhase_cases hp
  · obtain ⟨_, -, -, rfl⟩ := execNrm_next h; rfl
  · obtain ⟨_, -, -, rfl⟩ := execExp_next h; rfl
  · obtain ⟨_, -, ⟨-, rfl⟩ | ⟨-, rfl⟩⟩ := execAsm_next h <;> rfl
  · obtain ⟨_, _, _, -, -, -, -, rfl⟩ := execRsz_next h; rfl
  · obtain ⟨_, -, -, rfl⟩ := execShp_next h; rfl
  · obtain ⟨_, -, -, -, rfl⟩ := execDth_next h; rfl

/-- R63: an operation that completes is one of the ten. -/
theorem phase_le_of_exec (h : exec (decode (.phase4 p)) s = .next t) : p.toNat ≤ 9 := by
  by_contra hp
  cases (exec_decode_reservedCode s (Nat.lt_of_not_le hp)).symm.trans h

end

/-! ### Submissions are frames -/

/-- Where the block holds no stage of a snapshot the record alone counts. -/
theorem fromLastCapture_of_idle {t : State} (hsub : SubmissionsAreFrames t.env.trace) (hrel : lastRelease t.env.trace = some t.cfg)
    (hidle : t.run = false ∨ t.phase.toNat < 2 ∨ 8 < t.phase.toNat) : t.FromLastCapture where
  submissions := hsub
  release := hrel
  buffers hrun h2 h8 := by
    rcases hidle with h | h | h
    · exact absurd hrun (by simp [h])
    · exact absurd h2 (by omega)
    · exact absurd h8 (by omega)

theorem fromLastCapture_resetWith (c : Configuration) {env : Env} (hsub : SubmissionsAreFrames env.trace) :
    (State.resetWith c env).FromLastCapture :=
  fromLastCapture_of_idle hsub rfl (.inr (.inl Nat.zero_lt_two))

section
variable {s t : State}

theorem execChk_fromLastCapture (hs : s.FromLastCapture) (h : execChk s = .next t) : t.FromLastCapture := by
  obtain ⟨-, rfl⟩ | ⟨-, rfl⟩ := execChk_next h
  · exact fromLastCapture_of_idle hs.submissions hs.release (.inl rfl)
  · exact fromLastCapture_of_idle hs.submissions hs.release (.inr (.inl (by simp)))

theorem execCap_fromLastCapture (hs : s.FromLastCapture) (h : execCap s = .next t) : t.FromLastCapture := by
  obtain ⟨a, rest, -, rfl⟩ := execCap_next h
  obtain ⟨-, htake⟩ | ⟨raw, -, -, htake⟩ | ⟨raw, rfl, -, htake⟩ := takeSnapshot_cases _ a <;> rw [htake]
  · exact fromLastCapture_of_idle hs.submissions hs.release (.inl rfl)
  · exact fromLastCapture_of_idle hs.submissions hs.release (.inl rfl)
  · exact ⟨hs.submissions, hs.release, fun _ _ _ => ⟨raw, rfl, rfl⟩⟩

theorem exec_datapath_fromLastCapture (hs : s.FromLastCapture) (hrun : s.run = true)
    (hp : 2 ≤ s.phase.toNat ∧ s.phase.toNat ≤ 7) (h : exec (decode (.phase4 s.phase)) s = .next t) : t.FromLastCapture := by
  obtain ⟨raw, hcap, hstage⟩ := hs.buffers hrun hp.1 (by omega)
  obtain ⟨b, hnext, rfl⟩ | rfl := exec_datapath_stage hp hstage h
  · exact ⟨hs.submissions, hs.release, fun _ _ _ => ⟨raw, hcap, hnext⟩⟩
  · exact fromLastCapture_of_idle hs.submissions hs.release (.inl rfl)

/-- R130: BIT is FRAME of the last snapshot when SUB hands it over. -/
theorem execSub_fromLastCapture (hs : s.FromLastCapture) (hrun : s.run = true) (hp : s.phase = 8) (h : execSub s = .next t) :
    t.FromLastCapture := by
  obtain ⟨raw, hcap, hstage⟩ := hs.buffers hrun (by simp [hp]) (by simp [hp])
  rw [hp] at hstage
  obtain ⟨img, hframe, hbuf⟩ := Option.map_eq_some_iff.mp hstage
  obtain ⟨_, a, rest, hbit, -, -, rfl⟩ := execSub_next h
  rw [← hbuf] at hbit
  cases hbit
  have hsubmit : ∃ c raw, lastRelease s.env.trace = some c ∧ lastCapture s.env.trace = some raw ∧ frame c raw = some img :=
    ⟨s.cfg, raw, hs.release, hcap, hframe⟩
  cases a with
  | ok => exact fromLastCapture_of_idle ⟨hsubmit, hs.submissions⟩ hs.release (.inr (.inr (by simp [State.finishSubmit])))
  | fail => exact fromLastCapture_of_idle ⟨hsubmit, hs.submissions⟩ hs.release (.inl rfl)

theorem execDly_fromLastCapture (hs : s.FromLastCapture) (h : execDly s = .next t) : t.FromLastCapture := by
  obtain ⟨rfl, -⟩ := execDly_next h
  exact fromLastCapture_of_idle hs.submissions hs.release (.inr (.inl (by simp)))

/-- A read of STATUS is no transaction of the block. -/
theorem State.FromLastCapture.of_environmentMoved (hs : s.FromLastCapture) (henv : s.EnvironmentMoved t) : t.FromLastCapture := by
  have hbuffers (hcap : lastCapture t.env.trace = lastCapture s.env.trace) : t.run = true → 2 ≤ t.phase.toNat → t.phase.toNat ≤ 8 →
      ∃ raw, lastCapture t.env.trace = some raw ∧ stageBuffers t.cfg raw t.phase.toNat = some t.buf := by
    rw [hcap, henv.run, henv.phase, henv.cfg, henv.buf]
    exact hs.buffers
  obtain htrace | ⟨w, htrace⟩ := henv.trace
  · exact ⟨by rw [htrace]; exact hs.submissions, by rw [htrace, henv.cfg]; exact hs.release, hbuffers (by rw [htrace])⟩
  · exact ⟨by rw [htrace]; exact hs.submissions, by rw [htrace, henv.cfg]; exact hs.release, hbuffers (by rw [htrace]; rfl)⟩

end

/-- Settles O57: operation by operation, the environment alone, and the release of reset. -/
theorem submittedImagesAreFramesOfTheirCaptures : Obligations.SubmittedImagesAreFramesOfTheirCaptures := by
  unfold Obligations.SubmittedImagesAreFramesOfTheirCaptures
  intro s t hs h
  obtain ⟨rest, -, -, hrun, hblock⟩ | henv | ⟨-, c, rest, -, rfl⟩ := step_cases h
  · have hs' : (s.withSchedule rest).FromLastCapture := ⟨hs.submissions, hs.release, hs.buffers⟩
    obtain hp | hp | hp | hp | hp := phase_cases (phase_le_of_exec hblock)
    · exact execChk_fromLastCapture hs' (by rwa [hp] at hblock)
    · exact execCap_fromLastCapture hs' (by rwa [hp] at hblock)
    · exact exec_datapath_fromLastCapture hs' hrun hp hblock
    · exact execSub_fromLastCapture hs' hrun hp (by rwa [hp] at hblock)
    · exact execDly_fromLastCapture hs' (by rwa [hp] at hblock)
  · exact hs.of_environmentMoved henv
  · exact fromLastCapture_resetWith c hs.submissions

/-! ### The delay -/

/-- Between CAP and DLY, and in STOPPED, no delay is due. -/
theorem delayKept_of_midway {t : State} (htimed : endsInAccepted t.env.trace = false)
    (hmid : t.run = false ∨ (2 ≤ t.phase.toNat ∧ t.phase.toNat ≤ 8)) : t.DelayKept where
  timed := htimed
  waited hrun hp := by
    obtain h | ⟨h2, -⟩ := hmid
    · exact absurd hrun (by simp [h])
    · obtain h | h := hp <;> simp [h] at h2
  measured hrun hp := by
    obtain h | ⟨-, h8⟩ := hmid
    · exact absurd hrun (by simp [h])
    · simp [hp] at h8

theorem delayKept_resetWith (c : Configuration) (env : Env) : (State.resetWith c env).DelayKept :=
  ⟨rfl, fun _ _ _ => nofun, fun _ => nofun⟩

section
variable {s t : State}

theorem execChk_delayKept (hs : s.DelayKept) (hrun : s.run = true) (hp : s.phase = 0) (h : execChk s = .next t) : t.DelayKept := by
  obtain ⟨-, rfl⟩ | ⟨-, rfl⟩ := execChk_next h
  · exact delayKept_of_midway rfl (.inl rfl)
  · exact ⟨rfl, fun _ _ => hs.waited hrun (.inl hp), fun _ => nofun⟩

theorem execCap_delayKept (h : execCap s = .next t) : t.DelayKept := by
  obtain ⟨a, rest, -, rfl⟩ := execCap_next h
  obtain ⟨-, htake⟩ | ⟨raw, -, -, htake⟩ | ⟨raw, -, -, htake⟩ := takeSnapshot_cases _ a <;> rw [htake]
  · exact delayKept_of_midway rfl (.inl rfl)
  · exact delayKept_of_midway rfl (.inl rfl)
  · exact delayKept_of_midway rfl (.inr (by simp))

theorem exec_datapath_delayKept (hs : s.DelayKept) (hp : 2 ≤ s.phase.toNat ∧ s.phase.toNat ≤ 7)
    (h : exec (decode (.phase4 s.phase)) s = .next t) : t.DelayKept := by
  have htimed : endsInAccepted t.env.trace = false := by rw [exec_datapath_env hp h]; exact hs.timed
  obtain ⟨next, hnext, -, -, hphase⟩ | ⟨-, -, hstopped, -⟩ | ⟨-, hstopped, -⟩ := exec_phase_outcome h
  · exact delayKept_of_midway htimed (.inr (by rw [hphase]; omega))
  · exact delayKept_of_midway htimed (.inl hstopped)
  · exact delayKept_of_midway htimed (.inl hstopped)

/-- R124: T_END is the time that is read after the sink has accepted. -/
theorem execSub_delayKept (h : execSub s = .next t) : t.DelayKept := by
  obtain ⟨img, a, rest, -, -, -, rfl⟩ := execSub_next h
  cases a with
  | ok => exact ⟨rfl, fun _ hp => by simp [State.finishSubmit] at hp, fun _ _ => rfl⟩
  | fail => exact delayKept_of_midway rfl (.inl rfl)

/-- R125: DLY completes when the delay has passed since the last submission. -/
theorem execDly_delayKept (hs : s.DelayKept) (hrun : s.run = true) (hp : s.phase = 9) (h : execDly s = .next t) : t.DelayKept := by
  obtain ⟨rfl, hdelay⟩ := execDly_next h
  refine ⟨rfl, fun _ _ time htime => ?_, fun _ => nofun⟩
  have hlast : lastSubmitTime (.now s.env.now :: s.env.trace) = lastSubmitTime s.env.trace := if_neg (by simp [hs.timed])
  cases (hlast.symm.trans htime).symm.trans (hs.measured hrun hp)
  exact hdelay

theorem State.DelayKept.of_environmentMoved (hs : s.DelayKept) (henv : s.EnvironmentMoved t) : t.DelayKept := by
  have hkept : endsInAccepted t.env.trace = false ∧ lastSubmitTime t.env.trace = lastSubmitTime s.env.trace := by
    obtain htrace | ⟨w, htrace⟩ := henv.trace <;> rw [htrace]
    · exact ⟨hs.timed, rfl⟩
    · exact ⟨rfl, rfl⟩
  refine ⟨hkept.1, fun hrun hp time htime => ?_, fun hrun hp => ?_⟩
  · rw [henv.cfg]
    rw [hkept.2] at htime
    exact (hs.waited (henv.run ▸ hrun) (henv.phase ▸ hp) time htime).trans henv.now
  · rw [hkept.2, henv.tEnd]
    exact hs.measured (henv.run ▸ hrun) (henv.phase ▸ hp)

end

/-- Settles O58: operation by operation, the environment alone, and the release of reset. -/
theorem captureNeverComesBeforeTheDelay : Obligations.CaptureNeverComesBeforeTheDelay := by
  unfold Obligations.CaptureNeverComesBeforeTheDelay
  intro s t hs h
  obtain ⟨rest, -, -, hrun, hblock⟩ | henv | ⟨-, c, rest, -, rfl⟩ := step_cases h
  · have hs' : (s.withSchedule rest).DelayKept := ⟨hs.timed, hs.waited, hs.measured⟩
    obtain hp | hp | hp | hp | hp := phase_cases (phase_le_of_exec hblock)
    · exact execChk_delayKept hs' hrun hp (by rwa [hp] at hblock)
    · exact execCap_delayKept (by rwa [hp] at hblock)
    · exact exec_datapath_delayKept hs' hp hblock
    · exact execSub_delayKept (by rwa [hp] at hblock)
    · exact execDly_delayKept hs' hrun hp (by rwa [hp] at hblock)
  · exact hs.of_environmentMoved henv
  · exact delayKept_resetWith c _

/-- Settles O53: the block at release is at CHK with no buffer holding a value, and nothing was submitted in its run. -/
theorem invariantsHoldAtReset : Obligations.InvariantsHoldAtReset := by
  unfold Obligations.InvariantsHoldAtReset
  exact ⟨fun c env => ⟨State.sane_resetWith c env, fromLastCapture_resetWith c, delayKept_resetWith c env⟩,
    State.sane_resetWith _ _, fromLastCapture_resetWith _ trivial, delayKept_resetWith _ _⟩

end Sys2Proof.Machine
end

section
/-! One TICK (R71, R133): the turns of CHK, CAP, the datapath, SUB and DLY one after the other. -/

namespace Sys2Proof.Machine

/-- A run of `j + k` steps is one of `j` and then one of `k`. -/
theorem run_add_of_run (m : Host.Core) {t : m.State} (k : Nat) : ∀ {j : Nat} {s : m.State}, m.run j s = .next t →
    m.run (j + k) s = m.run k t
  | 0, s, h => by
    cases h
    rw [Nat.zero_add]
  | j + 1, s, h => by
    rw [Host.Core.run] at h
    split at h
    · next u hu => rw [Nat.add_right_comm, run_succ_of_step m _ hu, run_add_of_run m k h]
    · cases h
    · cases h

section
variable {s : State} {rest : List EnvMove}

theorem step_chk_of_no_stop (hturn : s.HasTurn rest) (hreset : s.inReset = false) (hlegal : s.cfg.legal = true) (hrun : s.run = true)
    (hphase : s.phase = 0) (hstop : s.stopPend = false) :
    step s = .next { s with phase := 1, env := { s.env with schedule := rest, trace := .stopSample false :: s.env.trace } } := by
  rw [step_of_turn hturn hreset hlegal hrun, hphase, ← hstop]
  exact (exec_chk (s.withSchedule rest)).trans (congrArg Host.Outcome.next (if_neg (by simp [hstop])))

theorem step_cap_of_snapshot {raw : List Byte} {caps : List CaptureAnswer} (hturn : s.HasTurn rest) (hreset : s.inReset = false)
    (hlegal : s.cfg.legal = true) (hrun : s.run = true) (hphase : s.phase = 1) (hcap : s.env.capAnswers = .bytes raw :: caps)
    (hlen : raw.length = s.cfg.bytes) :
    step s = .next { s with
      phase := 2, buf := { Buffers.empty with raw := some raw, rawLen := some (recordedLength raw.length) }
      env := { s.env with
        schedule := rest, capAnswers := caps, trace := .captureRead s.cfg.bytes (.bytes raw) :: s.env.trace } } := by
  rw [step_of_turn hturn hreset hlegal hrun, hphase]
  exact (exec_cap_of_answer (s := s.withSchedule rest) hcap).trans (congrArg Host.Outcome.next (takeSnapshot_of_length_eq hlen))

theorem step_sub_of_ok {img : BitImage} {disps : List DisplayAnswer} (hturn : s.HasTurn rest) (hreset : s.inReset = false)
    (hlegal : s.cfg.legal = true) (hrun : s.run = true) (hphase : s.phase = 8) (hbit : s.buf.bit = some img)
    (hshape : hasShape s.cfg.dh s.cfg.dw img = true) (hdisp : s.env.dispAnswers = .ok :: disps) :
    step s = .next { s with
      phase := 9, tEnd := s.env.now, buf := { s.buf with bit := none }
      env := { s.env with
        schedule := rest, dispAnswers := disps, trace := .now s.env.now :: .displaySubmit img .ok :: s.env.trace } } := by
  rw [step_of_turn hturn hreset hlegal hrun, hphase]
  exact exec_sub_of_answer (s := s.withSchedule rest) hbit hshape hdisp

/-- R128, R130: an operation of the datapath completes on the buffers of its stage and leaves those of the next. -/
theorem exec_datapath_of_stage {p : BitVec 4} {raw : List Byte} (hp : 2 ≤ p.toNat ∧ p.toNat ≤ 7) (hlegal : s.cfg.legal = true)
    (hrun : s.run = true) (htables : (coefTables s.cfg).isSome = true) (hfit : s.buf.fit s.cfg p.toNat)
    (hstage : stageBuffers s.cfg raw p.toNat = some s.buf) :
    ∃ b : Buffers, exec (decode (.phase4 p)) s = .next ((s.setBuf b).setPhase (p + 1)) ∧ b.fit s.cfg (p + 1).toNat
      ∧ stageBuffers s.cfg raw (p + 1).toNat = some b := by
  obtain ⟨b, hnext, hfit'⟩ := exec_datapath_of_fit hp hlegal (fun _ => htables) hfit
  obtain ⟨b', hstage', hb⟩ | hfails := exec_datapath_stage hp hstage hnext
  · have heq := congrArg State.buf hb
    rw [State.setPhase_buf, State.setPhase_buf, State.setBuf_buf, State.setBuf_buf] at heq
    exact ⟨b, hnext, hfit', heq ▸ hstage'⟩
  · have hstopped := congrArg State.run hfails
    simp [hrun] at hstopped

/-- R128, R130: as many turns as operations of the datapath are left take the block to SUB, with FRAME of the snapshot in BIT. -/
theorem run_datapath {raw : List Byte} {img : BitImage} (n : Nat) (hreset : s.inReset = false) (hlegal : s.cfg.legal = true)
    (hrun : s.run = true) (htables : (coefTables s.cfg).isSome = true) (hframe : frame s.cfg raw = some img)
    (hsched : s.env.schedule = List.replicate n .runBlock ++ rest)
    (hleft : s.phase.toNat + n = 8) (hphase : 2 ≤ s.phase.toNat) (hfit : s.buf.fit s.cfg s.phase.toNat)
    (hstage : stageBuffers s.cfg raw s.phase.toNat = some s.buf) :
    core.run n s = .next (((s.withSchedule rest).setBuf { Buffers.empty with bit := some img }).setPhase 8) := by
  induction n generalizing s with
  | zero =>
    have hp : s.phase = 8 := BitVec.eq_of_toNat_eq hleft
    have hnil : s.env.schedule = rest := hsched
    rw [hp] at hstage
    have hbuf : { Buffers.empty with bit := some img } = s.buf :=
      Option.some.inj ((congrArg (Option.map _) hframe).symm.trans hstage)
    rw [hbuf, ← hnil, ← hp]
    rfl
  | succ n ih =>
    have hp : 2 ≤ s.phase.toNat ∧ s.phase.toNat ≤ 7 := ⟨hphase, by omega⟩
    have hsucc : (s.phase + 1).toNat = s.phase.toNat + 1 := by bv_omega
    obtain ⟨b, hnext, hfit', hstage'⟩ :=
      exec_datapath_of_stage (s := s.withSchedule (List.replicate n .runBlock ++ rest)) hp hlegal hrun htables hfit hstage
    have hstep := (step_of_turn (.inr hsched) hreset hlegal hrun).trans hnext
    refine (run_succ_of_step core n hstep).trans (ih hreset hlegal hrun htables hframe rfl ?_ ?_ hfit' hstage')
    · rw [State.setPhase_phase, hsucc]
      omega
    · rw [State.setPhase_phase, hsucc]
      omega

end

/-- Settles O60: the turns one after the other, with the six of the datapath as one. -/
theorem oneTickSubmitsTheFrameOfItsSnapshot : Obligations.OneTickSubmitsTheFrameOfItsSnapshot := by
  unfold Obligations.OneTickSubmitsTheFrameOfItsSnapshot
  intro s raw caps disps ms rest hreset hrun hphase hstop hlegal htables hsched hdelay hcap hlen hdisp
  obtain ⟨img, hframe, hshape⟩ := frameIsTotal s.cfg raw hlen htables
  have hsubmitted : core.run 9 s = .next { s with
      phase := 9, tEnd := s.env.now, buf := Buffers.empty
      env := { s.env with
        capAnswers := caps, dispAnswers := disps, schedule := .passTime ms :: .runBlock :: rest
        trace := .now s.env.now :: .displaySubmit img .ok :: .captureRead s.cfg.bytes (.bytes raw) :: .stopSample false
          :: s.env.trace } } := by
    refine Eq.trans (run_succ_of_step core 8 (step_chk_of_no_stop (.inr hsched) hreset hlegal hrun hphase hstop)) ?_
    refine Eq.trans (run_succ_of_step core 7 (step_cap_of_snapshot (.inr rfl) hreset hlegal hrun rfl hcap hlen)) ?_
    refine Eq.trans (run_add_of_run core 1
      (run_datapath 6 hreset hlegal hrun htables hframe rfl rfl le_rfl ⟨raw, hlen, by rw [hlen]⟩ rfl)) ?_
    exact run_succ_of_step core 0 (step_sub_of_ok (.inr rfl) hreset hlegal hrun rfl rfl hshape hdisp)
  have htick := (run_add_of_run core 2 hsubmitted).trans
    (run_dly_after_time hreset hlegal hrun rfl rfl (Nat.add_le_add_left hdelay _))
  exact ⟨img, _, hframe, htick, rfl, hrun, rfl, rfl, rfl, rfl, rfl, rfl, rfl, rfl, rfl⟩

end Sys2Proof.Machine
end

section
/-! Waits in an environment without end (R39, R128, R152, R156): time passes every bound, and a turn after the answer, or after the delay,
ends the wait. -/

namespace Sys2Proof.Machine

/-! ### One move -/

theorem attempt_eq_or_next (s : State) (m : EnvMove) : s.attempt m = s ∨ step (s.withSchedule [m]) = .next (s.attempt m) := by
  rw [State.attempt]
  split
  · next t h => exact .inr h
  · exact .inl rfl
  · exact .inl rfl

/-- R39: a move lets at least its own time pass. -/
theorem now_add_time_le_attempt (s : State) (m : EnvMove) : s.env.now + m.time ≤ (s.attempt m).env.now := by
  have hmono : s.env.now ≤ (s.attempt m).env.now := by
    obtain h | h := attempt_eq_or_next s m
    · rw [h]
    · exact timeNeverRunsBackwards.1 (s.withSchedule [m]) _ h
  cases m with
  | passTime ms =>
    have hpass : step (s.withSchedule [.passTime ms]) = _ := step_of_passTime rfl
    rw [State.attempt_of_next hpass]
    exact le_rfl
  | runBlock | answerCapture | answerDisplay | deliverStop | assertReset | releaseReset | readStatus => exact hmono

theorem now_add_timePassed_le_after (s : State) (e : Environment) (n : Nat) :
    s.env.now + timePassed e n ≤ (s.after e n).env.now := by
  induction n with
  | zero => exact le_rfl
  | succ n ih =>
    rw [timePassed_succ, State.after_succ, ← Nat.add_assoc]
    exact (Nat.add_le_add_right ih _).trans (now_add_time_le_attempt _ _)

/-- R152: what a wait leaves as it was, and that answers are only added. -/
structure State.WaitedTo (s t : State) : Prop where
  cfg : t.cfg = s.cfg
  phase : t.phase = s.phase
  run : t.run = s.run
  tEnd : t.tEnd = s.tEnd
  inReset : t.inReset = s.inReset
  capAnswers : s.env.capAnswers <+: t.env.capAnswers
  dispAnswers : s.env.dispAnswers <+: t.env.dispAnswers

theorem State.WaitedTo.refl (s : State) : s.WaitedTo s := ⟨rfl, rfl, rfl, rfl, rfl, List.prefix_rfl, List.prefix_rfl⟩

theorem State.WaitedTo.trans {s t u : State} (h : s.WaitedTo t) (h' : t.WaitedTo u) : s.WaitedTo u where
  cfg := h'.cfg.trans h.cfg
  phase := h'.phase.trans h.phase
  run := h'.run.trans h.run
  tEnd := h'.tEnd.trans h.tEnd
  inReset := h'.inReset.trans h.inReset
  capAnswers := h.capAnswers.trans h'.capAnswers
  dispAnswers := h.dispAnswers.trans h'.dispAnswers

/-- Out of reset a move other than asserting it leaves the block waiting, or the block's operation completes. -/
theorem attempt_waits_or_exec {s : State} {m : EnvMove} (hreset : s.inReset = false) (hm : m ≠ .assertReset) :
    s.WaitedTo (s.attempt m) ∨ ∃ rest, exec (decode (.phase4 s.phase)) (s.withSchedule rest) = .next (s.attempt m) := by
  obtain h | h := attempt_eq_or_next s m
  · rw [h]
    exact .inl (.refl s)
  · obtain ⟨rest, -, -, -, hblock⟩ | henv | ⟨hasserted, -⟩ := step_cases h
    · exact .inr ⟨rest, hblock⟩
    · have hreset' : (s.attempt m).inReset = s.inReset :=
        henv.inReset.resolve_right fun ⟨rest, hassert⟩ => hm (List.cons.inj hassert).1
      exact .inl ⟨henv.cfg, henv.phase, henv.run, henv.tEnd, hreset', henv.capAnswers, henv.dispAnswers⟩
    · exact absurd hasserted (by simp [hreset])

theorem attempt_sane {s : State} (m : EnvMove) (hs : s.Sane) : (s.attempt m).Sane := by
  obtain h | h := attempt_eq_or_next s m
  · rwa [h]
  · exact everyStepKeepsSanity (s.withSchedule [m]) _ (hs.withSchedule [m]) h

/-! ### All moves -/

/-- R121: at the turn of a RUNNING block the next state is that of its operation. -/
theorem exec_eq_next_after {s t : State} {e : Environment} {k : Nat} (hturn : e k = .runBlock) (hreset : (s.after e k).inReset = false)
    (hlegal : (s.after e k).cfg.legal = true) (hrun : (s.after e k).run = true)
    (h : exec (decode (.phase4 (s.after e k).phase)) ((s.after e k).withSchedule []) = .next t) :
    exec (decode (.phase4 (s.after e k).phase)) ((s.after e k).withSchedule []) = .next (s.after e (k + 1)) := by
  have hstep := (step_of_turn (s := (s.after e k).withSchedule [.runBlock]) (.inr rfl) hreset hlegal hrun).trans h
  rw [State.after_succ, hturn, State.attempt_of_next hstep]
  exact h

theorem after_sane {s : State} (e : Environment) (hs : s.Sane) (n : Nat) : (s.after e n).Sane := by
  induction n with
  | zero => exact hs
  | succ n ih => exact attempt_sane _ ih

/-- A block whose operation never completes waits for ever. -/
theorem waitedTo_after {s : State} {e : Environment} (hreset : s.inReset = false) (hnever : ∀ n, e n ≠ .assertReset)
    (hno : ∀ n rest, s.WaitedTo (s.after e n) →
      exec (decode (.phase4 (s.after e n).phase)) ((s.after e n).withSchedule rest) ≠ .next (s.after e (n + 1)))
    {j k : Nat} (h : j ≤ k) : (s.after e j).WaitedTo (s.after e k) := by
  induction k generalizing j with
  | zero =>
    obtain rfl := Nat.le_zero.mp h
    exact .refl s
  | succ k ih =>
    obtain rfl | hlt := Nat.eq_or_lt_of_le h
    · exact .refl _
    · have hfirst : s.WaitedTo (s.after e k) := ih (Nat.zero_le k)
      obtain hwaits | ⟨rest, hexec⟩ := attempt_waits_or_exec (hfirst.inReset.trans hreset) (hnever k)
      · exact (ih (Nat.le_of_lt_succ hlt)).trans hwaits
      · exact absurd hexec (hno k rest hfirst)

/-- R39: from some move on the time is past any moment. -/
theorem exists_time_after {e : Environment} (htime : LetsTimePass e) (s : State) (bound : Nat) :
    ∃ n, ∀ k, n ≤ k → bound < (s.after e k).env.now := by
  obtain ⟨n, hn⟩ := htime bound
  refine ⟨n, fun k hk => ?_⟩
  have hpassed := now_add_timePassed_le_after s e k
  have hmono := timePassed_mono e hk
  omega

theorem attempt_answerCapture (s : State) (a : CaptureAnswer) :
    (s.attempt (.answerCapture a)).env.capAnswers = s.env.capAnswers ++ [a] :=
  congrArg (fun t : State => t.env.capAnswers) (State.attempt_of_next (s := s) (m := .answerCapture a) rfl)

theorem attempt_answerDisplay (s : State) (a : DisplayAnswer) :
    (s.attempt (.answerDisplay a)).env.dispAnswers = s.env.dispAnswers ++ [a] :=
  congrArg (fun t : State => t.env.dispAnswers) (State.attempt_of_next (s := s) (m := .answerDisplay a) rfl)

/-- R125: DLY completes at a turn after the delay. -/
theorem dly_ends {s : State} {e : Environment} (htime : LetsTimePass e) (hturns : GivesTurns e) (hnever : ∀ n, e n ≠ .assertReset)
    (hreset : s.inReset = false) (hlegal : s.cfg.legal = true) (hrun : s.run = true) (hphase : s.phase = 9) :
    ∃ n, (s.after e n).phase = 0 ∧ (s.after e n).run = true := by
  by_contra hno
  have hnoexec : ∀ n rest, s.WaitedTo (s.after e n) →
      exec (decode (.phase4 (s.after e n).phase)) ((s.after e n).withSchedule rest) ≠ .next (s.after e (n + 1)) := by
    intro n rest hw hexec
    rw [hw.phase, hphase] at hexec
    obtain ⟨ht, -⟩ := execDly_next hexec
    exact hno ⟨n + 1, by rw [ht], by rw [ht]; exact hw.run.trans hrun⟩
  obtain ⟨n, hpassed⟩ := exists_time_after htime s (s.tEnd + s.cfg.delayMs.toNat)
  obtain ⟨k, hk, hturn⟩ := hturns n
  have hw : s.WaitedTo (s.after e k) := waitedTo_after hreset hnever hnoexec (Nat.zero_le k)
  obtain ⟨t, hdly⟩ : ∃ t, exec (decode (.phase4 (s.after e k).phase)) ((s.after e k).withSchedule []) = .next t := by
    rw [hw.phase, hphase]
    refine ⟨_, exec_dly_of_delay_passed (s := (s.after e k).withSchedule []) ?_⟩
    rw [State.withSchedule_tEnd, State.withSchedule_cfg, hw.tEnd, hw.cfg]
    exact (hpassed k hk).le
  exact hnoexec k [] hw (exec_eq_next_after hturn (hw.inReset.trans hreset) (hw.cfg ▸ hlegal) (hw.run.trans hrun) hdly)

/-- R128: at a turn after an answer of either port and after the delay no wait is left. -/
theorem wait_ends {s : State} {e : Environment} (htime : LetsTimePass e) (hturns : GivesTurns e) (hnever : ∀ n, e n ≠ .assertReset)
    (hcaps : AnswersCaptures e) (hdisps : AnswersSubmissions e) (hs : s.Sane) (hreset : s.inReset = false)
    (hlegal : s.cfg.legal = true) (htables : (coefTables s.cfg).isSome = true) (hrun : s.run = true) :
    ∃ n, (s.after e n).phase ≠ s.phase ∨ (s.after e n).run = false := by
  by_contra hno
  have hnoexec : ∀ n rest, s.WaitedTo (s.after e n) →
      exec (decode (.phase4 (s.after e n).phase)) ((s.after e n).withSchedule rest) ≠ .next (s.after e (n + 1)) := by
    intro n rest hw hexec
    obtain ⟨next, hnext, -, -, hphase⟩ | ⟨-, -, hstopped, -⟩ | ⟨-, hstopped, -⟩ :=
      exec_phase_outcome (s := (s.after e n).withSchedule rest) hexec
    · refine hno ⟨n + 1, .inl fun hsame => ?_⟩
      rw [State.withSchedule_phase, hw.phase, ← hphase, hsame] at hnext
      omega
    · exact hno ⟨n + 1, .inr hstopped⟩
    · exact hno ⟨n + 1, .inr hstopped⟩
  obtain ⟨nc, -, a, hcap⟩ := hcaps 0
  obtain ⟨nd, -, d, hdisp⟩ := hdisps 0
  obtain ⟨nt, hpassed⟩ := exists_time_after htime s (s.tEnd + s.cfg.delayMs.toNat)
  obtain ⟨k, hk, hturn⟩ := hturns (nc + 1 + (nd + 1) + nt)
  have hw : s.WaitedTo (s.after e k) := waitedTo_after hreset hnever hnoexec (Nat.zero_le k)
  have hrun' := hw.run.trans hrun
  have hlegal' : (s.after e k).cfg.legal = true := hw.cfg ▸ hlegal
  obtain ⟨t, hnext⟩ | ⟨hnone, -⟩ | ⟨f, hwaits, -⟩ :=
    exec_phase_of_sane ((after_sane e hs k).withSchedule []) hrun' hlegal'
  · exact hnoexec k [] hw (exec_eq_next_after hturn (hw.inReset.trans hreset) hlegal' hrun' hnext)
  · rw [State.withSchedule_cfg, hw.cfg] at hnone
    simp [hnone] at htables
  · obtain ⟨-, hnil, -⟩ | ⟨-, hnil, -⟩ | ⟨-, hleft, -⟩ := hwaits
    · have hready := (waitedTo_after hreset hnever hnoexec (j := nc + 1) (k := k) (by omega)).capAnswers
      rw [State.after_succ, hcap, attempt_answerCapture, show (s.after e k).env.capAnswers = [] from hnil] at hready
      simp at hready
    · have hready := (waitedTo_after hreset hnever hnoexec (j := nd + 1) (k := k) (by omega)).dispAnswers
      rw [State.after_succ, hdisp, attempt_answerDisplay, show (s.after e k).env.dispAnswers = [] from hnil] at hready
      simp at hready
    · rw [State.withSchedule_tEnd, State.withSchedule_cfg, hw.tEnd, hw.cfg] at hleft
      exact absurd hleft (hpassed k (by omega)).not_gt

/-- Settles O2: the time, then the wait of DLY in any state, then every wait of a sane one. -/
theorem waitsEndInADutifulEnvironment : Obligations.WaitsEndInADutifulEnvironment := by
  unfold Obligations.WaitsEndInADutifulEnvironment
  refine fun e htime => ⟨fun s bound => ?_, fun hturns hnever s hreset hlegal hrun => ⟨?_, ?_⟩⟩
  · obtain ⟨n, hn⟩ := exists_time_after htime s bound
    exact ⟨n, hn n le_rfl⟩
  · exact dly_ends htime hturns hnever hreset hlegal hrun
  · exact fun hcaps hdisps hs htables => wait_ends htime hturns hnever hcaps hdisps hs hreset hlegal htables hrun

end Sys2Proof.Machine
end

section
/-! The ditherer's remaining laws: the conversions that keep the greys (D13), the bounds at threshold 128 (R115), black and white images
(R117), and the order of the scan (R118). -/

namespace Sys2Proof.Machine

/-! ### Conversions that keep the greys -/

/-- D13: the triple of one value in all three channels. -/
def grey (u : Byte) : Triple := { r := u, g := u, b := u }

/-- D13: weights within 128 of 65536 round every grey to itself. -/
theorem luma_weighted_grey {wr wg wb : Nat} (h : (Luma.weighted wr wg wb).legal = true) (u : Byte) :
    luma (.weighted wr wg wb) (grey u) = u := by
  obtain ⟨hlow, hhigh⟩ : 65408 ≤ wr + wg + wb ∧ wr + wg + wb ≤ 65664 := by simpa [Luma.legal] using h
  have hu := u.isLt
  have hbelow := Nat.mul_le_mul_right u.toNat hlow
  have habove := Nat.mul_le_mul_right u.toNat hhigh
  have hround : (wr * u.toNat + wg * u.toNat + wb * u.toNat + 32768) / 65536 = u.toNat := by
    rw [← Nat.add_mul, ← Nat.add_mul]
    omega
  show BitVec.ofNat 8 ((wr * u.toNat + wg * u.toNat + wb * u.toNat + 32768) / 65536) = u
  rw [hround, BitVec.ofNat_toNat, BitVec.setWidth_eq]

/-- D13: a conversion with exceptions is legal where it keeps every grey. -/
theorem legal_exceptAt_iff {px : Triple} {value : Byte} {base : Luma} :
    (Luma.exceptAt px value base).legal = true ↔ ∀ u : Byte, luma (.exceptAt px value base) (grey u) = u := by
  simp only [Luma.legal, List.all_eq_true, List.mem_range, beq_iff_eq]
  refine ⟨fun h u => ?_, fun h u _ => h (BitVec.ofNat 8 u)⟩
  have hu := h u.toNat u.isLt
  rwa [BitVec.ofNat_toNat, BitVec.setWidth_eq] at hu

theorem luma_grey_of_legal {l : Luma} (h : l.legal = true) (u : Byte) : luma l (grey u) = u := by
  cases l with
  | weighted wr wg wb => exact luma_weighted_grey h u
  | maximum => simp [luma, grey]
  | minimum => simp [luma, grey]
  | exceptAt px value base => exact legal_exceptAt_iff.mp h u

/-- The conversion that has the values of `f` at the triples listed and the maximum elsewhere. -/
def exceptionsOf (f : Triple → Byte) (pxs : List Triple) : Luma := pxs.foldr (fun px base => .exceptAt px (f px) base) .maximum

theorem luma_exceptionsOf {f : Triple → Byte} {px : Triple} : ∀ {pxs : List Triple}, px ∈ pxs →
    luma (exceptionsOf f pxs) px = f px
  | q :: pxs, h => by
    show (if px = q then f q else luma (exceptionsOf f pxs) px) = f px
    split
    · next hq => rw [hq]
    · next hq => exact luma_exceptionsOf ((List.mem_cons.mp h).resolve_left hq)

/-- R58: there are finitely many triples. -/
theorem exists_list_of_triples : ∃ pxs : List Triple, ∀ px, px ∈ pxs := by
  have hinj : Function.Injective fun px : Triple => (px.r, px.g, px.b) := by
    rintro ⟨⟩ ⟨⟩ h
    simpa using h
  have hfinite : Finite Triple := Finite.of_injective _ hinj
  exact ⟨(Set.toFinite Set.univ).toFinset.toList, fun px => by simp⟩

theorem exceptionsOf_legal {f : Triple → Byte} {pxs : List Triple} (hall : ∀ px, px ∈ pxs) (hgrey : ∀ u, f (grey u) = u) :
    (exceptionsOf f pxs).legal = true := by
  cases pxs with
  | nil => rfl
  | cons px rest =>
    refine legal_exceptAt_iff.mpr fun u => ?_
    exact (luma_exceptionsOf (hall (grey u))).trans (hgrey u)

/-- Settles O27: the four kinds of conversion, and the exceptions of a function at every triple. -/
theorem legalConversionsKeepGreys : Obligations.LegalConversionsKeepGreys := by
  unfold Obligations.LegalConversionsKeepGreys
  refine ⟨fun l u h => luma_grey_of_legal h u, fun f hgrey => ?_⟩
  obtain ⟨pxs, hall⟩ := exists_list_of_triples
  exact ⟨exceptionsOf f pxs, exceptionsOf_legal hall hgrey, fun px => luma_exceptionsOf (hall px)⟩

/-! ### Bounds at threshold 128 -/

/-- Settles O29: by the least bound of the errors, 128. -/
theorem ditherValuesStayInBounds : Obligations.DitherValuesStayInBounds := by
  unfold Obligations.DitherValuesStayInBounds
  intro dh dw lums hshape y x d hd
  have herror := abs_errorAt_le (thresh := 128) (bound := 128) hshape (by norm_num) (by norm_num) (by norm_num) y x
  obtain ⟨-, hentry⟩ := ditherScan_acc_toInt (bound := 128) hshape (by norm_num) (by norm_num) (by norm_num) hd
  obtain ⟨hv, -, -⟩ := ditherPixel_law (ditherScan_step hd).2
  rw [errorAt_of_pixel hd, abs_le] at herror
  rw [abs_le] at hentry
  have hlum := d.lum.isLt
  exact ⟨herror, by omega, by omega⟩

/-! ### Images without errors -/

/-- R112: no error sends nothing. -/
theorem addAt_zero (x : Nat) (row : AccRow) : addAt x 0 row = row := by
  have hid : (fun a : AccEntry => BitVec.ofInt 16 (a.toInt + 0)) = id := funext fun a => by simp
  rw [addAt, hid, List.modify_id]

theorem diffuseRow_zero (dw x : Nat) (cur : AccRow) : diffuseRow dw x 0 cur = cur := by
  rw [diffuseRow, mul_zero, addAt_zero, ite_self]

theorem diffuseBelow_zero (dw x : Nat) (below : Bool) (nxt : AccRow) : diffuseBelow dw x below 0 nxt = nxt := by
  simp only [diffuseBelow, mul_zero, addAt_zero, ite_self]

theorem zeroRow_getD (dw x : Nat) : (zeroRow dw).getD x 0 = 0 := by
  by_cases hx : x < dw <;> simp [zeroRow, hx]

section
variable {thresh dw : Nat} {lum : Byte} (hpx : (ditherPixel thresh lum 0).e = 0)
include hpx

/-- R117: where a pixel of this luminance has no error, a row of them has none and sends nothing below. -/
theorem ditherRow_replicate (below : Bool) (nxt : AccRow) : ∀ n x : Nat,
    ditherRow thresh dw below x (List.replicate n lum) (zeroRow dw) nxt = (List.replicate n (ditherPixel thresh lum 0), nxt)
  | 0, _ => rfl
  | n + 1, x => by
    rw [List.replicate_succ, ditherRow, zeroRow_getD, hpx, diffuseRow_zero, diffuseBelow_zero, ditherRow_replicate below nxt n]
    rfl

theorem ditherScan_uniformGrid (h w : Nat) :
    ditherScan thresh dw (uniformGrid h w lum) = uniformGrid h w (ditherPixel thresh lum 0) := by
  rw [ditherScan, uniformGrid, uniformGrid]
  induction h with
  | zero => rfl
  | succ h ih => rw [List.replicate_succ, ditherRows, ditherRow_replicate hpx, ih, List.replicate_succ]

theorem ditherImage_of_uniform_luma {l : Luma} {img : Image} {h w : Nat} (hluma : lumaImage l img = uniformGrid h w lum) :
    ditherImage l thresh dw img = uniformGrid h w (ditherPixel thresh lum 0).bit := by
  rw [ditherImage, hluma, ditherScan_uniformGrid hpx]
  simp [uniformGrid]

end

/-- R111: a pixel that has been sent nothing is compared with its own luminance. -/
theorem ditherPixel_v_of_nothing_sent (thresh : Nat) (lum : Byte) : (ditherPixel thresh lum 0).v = lum.toNat := by
  simp [ditherPixel, roundedError, asr]

theorem ditherPixel_black {thresh : Nat} (h : thresh ≠ 0) : (ditherPixel thresh 0 0).bit = false ∧ (ditherPixel thresh 0 0).e = 0 := by
  obtain ⟨-, hbit, he⟩ := ditherPixel_law (d := ditherPixel thresh 0 0) rfl
  rw [ditherPixel_v_of_nothing_sent] at hbit he
  have hblack : (ditherPixel thresh 0 0).bit = false := by simpa [h] using hbit
  rw [he, hblack]
  exact ⟨rfl, rfl⟩

theorem ditherPixel_white {thresh : Nat} (h : thresh ≤ 255) :
    (ditherPixel thresh 255 0).bit = true ∧ (ditherPixel thresh 255 0).e = 0 := by
  obtain ⟨-, hbit, he⟩ := ditherPixel_law (d := ditherPixel thresh 255 0) rfl
  rw [ditherPixel_v_of_nothing_sent] at hbit he
  have hwhite : (ditherPixel thresh 255 0).bit = true := hbit.mpr (Int.ofNat_le.mpr h)
  rw [he, hwhite]
  exact ⟨rfl, rfl⟩

/-- Settles O31: a legal threshold is in 1 to 255, so neither black nor white has an error. -/
theorem blackStaysBlackAndWhiteStaysWhite : Obligations.BlackStaysBlackAndWhiteStaysWhite := by
  unfold Obligations.BlackStaysBlackAndWhiteStaysWhite
  intro c img hlegal hshape
  obtain ⟨-, -, -, -, -, hthresh, -⟩ := Configuration.legal_iff.mp hlegal
  have hpos : c.thresh.toNat ≠ 0 := fun h => hthresh (BitVec.eq_of_toNat_eq h)
  obtain ⟨hblack, hnoerror⟩ := ditherPixel_black hpos
  obtain ⟨hwhite, hnoerror'⟩ := ditherPixel_white (Nat.le_of_lt_succ c.thresh.isLt)
  exact ⟨fun hluma => by rw [ditherImage_of_uniform_luma hnoerror hluma, hblack],
    fun hluma => by rw [ditherImage_of_uniform_luma hnoerror' hluma, hwhite]⟩

/-! ### The order of the scan -/

/-- R118: within a row a pixel depends on those up to it, whatever follows and whatever the row below is. -/
theorem ditherRow_getElem?_append (thresh dw : Nat) (below1 below2 : Bool) (tail1 tail2 : List Byte) :
    ∀ (start : List Byte) (x : Nat) (cur nxt1 nxt2 : AccRow), ∀ i < start.length,
      (ditherRow thresh dw below1 x (start ++ tail1) cur nxt1).1[i]? = (ditherRow thresh dw below2 x (start ++ tail2) cur nxt2).1[i]?
  | _ :: _, _, _, _, _, 0, _ => rfl
  | _ :: start, x, _, _, _, i + 1, hi =>
    ditherRow_getElem?_append thresh dw below1 below2 tail1 tail2 start (x + 1) _ _ _ i (Nat.lt_of_succ_lt_succ hi)

/-- R118: the rows above are scanned alike, so the row that follows them starts from the same errors. -/
theorem ditherRows_prefix (thresh dw : Nat) (start tail1 tail2 : List Byte) (below1 below2 : List (List Byte)) :
    ∀ (above : List (List Byte)) (cur : AccRow),
      (ditherRows thresh dw (above ++ (start ++ tail1) :: below1) cur).take above.length
          = (ditherRows thresh dw (above ++ (start ++ tail2) :: below2) cur).take above.length
        ∧ ∀ x < start.length, pixel (ditherRows thresh dw (above ++ (start ++ tail1) :: below1) cur) above.length x
          = pixel (ditherRows thresh dw (above ++ (start ++ tail2) :: below2) cur) above.length x
  | [], cur => ⟨rfl, fun x hx => ditherRow_getElem?_append thresh dw _ _ tail1 tail2 start 0 cur _ _ x hx⟩
  | row :: above, cur => by
    have hrest (tail : List Byte) (below : List (List Byte)) : (above ++ (start ++ tail) :: below).isEmpty = false := by simp
    obtain ⟨htake, hpixel⟩ := ditherRows_prefix thresh dw start tail1 tail2 below1 below2 above
      (ditherRow thresh dw true 0 row cur (zeroRow dw)).2
    rw [List.cons_append, List.cons_append, ditherRows, ditherRows, hrest, hrest]
    exact ⟨congrArg (List.cons _) htake, hpixel⟩

/-- Settles O32: from both rows of the accumulator at 0. -/
theorem ditherDependsOnEarlierPixelsOnly : Obligations.DitherDependsOnEarlierPixelsOnly := by
  unfold Obligations.DitherDependsOnEarlierPixelsOnly
  exact fun thresh dw above start tail1 tail2 below1 below2 =>
    ditherRows_prefix thresh dw start tail1 tail2 below1 below2 above (zeroRow dw)

end Sys2Proof.Machine
end

section
/-! The resampler's laws: the tables (R89, R93, R98), uniform images (R96 (b)), and the channels kept apart in it (R87 (c)) and in the sharpness
filter (R104). -/

namespace Sys2Proof.Machine

/-! ### The rows of an admitted table -/

/-- R89: a window that is not empty ends inside the line. -/
theorem windowLo_add_windowLen_le {nIn nOut o : Nat} (h : 0 < windowLen nIn nOut o) : windowLo nIn nOut o + windowLen nIn nOut o ≤ nIn := by
  have hhi : windowHi nIn nOut o ≤ nIn := Nat.min_le_left _ _
  rw [windowLen] at h ⊢
  omega

/-- Settles O14: each row of the table is the row worked out for its position, and has passed the tests of R98. -/
theorem coefficientsSumToOne : Obligations.CoefficientsSumToOne := by
  unfold Obligations.CoefficientsSumToOne
  refine fun p nIn nOut rows htable => ⟨axisTable_length htable, fun o row hrow => ?_⟩
  obtain ⟨-, rfl, hmeets⟩ := axisTable_getElem? htable hrow
  obtain ⟨hpos, hfield, hsum⟩ := rowMeetsObligations_iff.mp hmeets
  have hwindow := windowLen_pos_of_weightSum hpos
  rw [coefRow_coefs_length]
  refine ⟨rfl, rfl, hwindow, windowLo_add_windowLen_le hwindow, coefRow_coefs_sum p hwindow, fun c hc => ?_, hsum⟩
  have hc' := hfield c hc
  omega

/-- R93, R89: a row of a table for `n` inputs, its coefficients summing to 2^P over a window inside the line. -/
def CoefRow.Averages (p n : Nat) (row : CoefRow) : Prop := row.coefs.sum = 2 ^ p ∧ row.lo + row.coefs.length ≤ n

theorem axisTable_averages {p nIn nOut : Nat} {rows : List CoefRow} (h : axisTable p nIn nOut = some rows) {row : CoefRow}
    (hrow : row ∈ rows) : row.Averages p nIn := by
  obtain ⟨o, ho⟩ := List.mem_iff_getElem?.mp hrow
  obtain ⟨-, -, -, hinside, hsum, -⟩ := (coefficientsSumToOne p nIn nOut rows h).2 o row ho
  exact ⟨hsum, hinside⟩

/-! ### Uniform images -/

/-- R94: rounding by half of 2^P takes nothing from a whole multiple of 2^P. -/
theorem fir_of_firAcc {p : Nat} {row : CoefRow} {src : List Byte} {v : Byte} (hp : 1 ≤ p)
    (h : firAcc p row src = 2 ^ (p - 1) + 2 ^ p * (v.toNat : Int)) : fir p row src = v := by
  have hhalf : (2 : Int) ^ (p - 1) < 2 ^ p := pow_lt_pow_right₀ (by norm_num) (by omega)
  have hquot : asr (firAcc p row src) p = v.toNat := by
    rw [asr, h, Nat.cast_pow, Nat.cast_ofNat, Int.add_mul_ediv_left _ _ (by positivity),
      Int.ediv_eq_zero_of_lt (by positivity) hhalf, zero_add]
  rw [fir, hquot, clamp8_of_byte]

theorem sum_zipWith_replicate (v : Byte) : ∀ (cs : List Int) (n : Nat), cs.length ≤ n →
    (List.zipWith (fun c b => c * (b.toNat : Int)) cs (List.replicate n v)).sum = cs.sum * v.toNat
  | [], _, _ => by simp
  | _ :: _, 0, h => absurd h (by simp)
  | c :: cs, n + 1, h => by
    rw [List.replicate_succ, List.zipWith_cons_cons, List.sum_cons, List.sum_cons,
      sum_zipWith_replicate v cs n (Nat.le_of_succ_le_succ h), Int.add_mul]

/-- R96 (b): a row that averages keeps the common value of a line. -/
theorem fir_replicate {p n : Nat} {row : CoefRow} (hp : 1 ≤ p) (hrow : row.Averages p n) (v : Byte) :
    fir p row (List.replicate n v) = v := by
  obtain ⟨hsum, hinside⟩ := hrow
  refine fir_of_firAcc hp ?_
  rw [firAcc, List.drop_replicate, sum_zipWith_replicate v _ _ (by omega), hsum, Nat.cast_pow, Nat.cast_ofNat]

theorem firTriple_replicate {p n : Nat} {row : CoefRow} (hp : 1 ≤ p) (hrow : row.Averages p n) (px : Triple) :
    firTriple p row (List.replicate n px) = px := by
  simp only [firTriple, List.map_replicate, fir_replicate hp hrow]

section
variable {p n h dw : Nat} {table : List CoefRow} (hp : 1 ≤ p) (htable : ∀ row ∈ table, row.Averages p n) (px : Triple)
include hp htable

theorem horizontalPass_uniformGrid : horizontalPass p table (uniformGrid h n px) = uniformGrid h table.length px := by
  have hline : table.map (fun row => firTriple p row (List.replicate n px)) = List.replicate table.length px := by
    rw [List.map_congr_left fun row hrow => firTriple_replicate hp (htable row hrow) px, List.map_const']
  rw [horizontalPass, uniformGrid, List.map_replicate, hline, uniformGrid]

theorem verticalPass_uniformGrid : verticalPass p dw table (uniformGrid n dw px) = uniformGrid table.length dw px := by
  have hcolumn : ∀ x ∈ List.range dw, column x (uniformGrid n dw px) = List.replicate n px := by
    intro x hx
    exact List.filterMap_replicate_of_some (f := fun row : List Triple => row[x]?)
      (List.getElem?_replicate_of_lt (List.mem_range.mp hx))
  have hrow : ∀ row ∈ table, (List.range dw).map (fun x => firTriple p row (column x (uniformGrid n dw px))) = List.replicate dw px := by
    intro row hrow
    rw [List.map_congr_left fun x hx => by rw [hcolumn x hx, firTriple_replicate hp (htable row hrow)], List.map_const',
      List.length_range]
  rw [verticalPass, List.map_congr_left hrow, List.map_const', uniformGrid]

end

/-- Settles O19: the horizontal pass keeps the grid uniform, and so does the vertical pass. -/
theorem resamplingKeepsAUniformImage : Obligations.ResamplingKeepsAUniformImage := by
  unfold Obligations.ResamplingKeepsAUniformImage
  intro s px hor ver hfull hkernel hp _ _ htables
  obtain ⟨hhor, hver⟩ := coefTables_eq_some htables
  refine (exec_rsz_of_full hfull (uniformGrid_hasShape _ _ px) hkernel htables).trans ?_
  rw [resample, horizontalPass_uniformGrid hp (fun row => axisTable_averages hhor), axisTable_length hhor,
    verticalPass_uniformGrid hp (fun row => axisTable_averages hver), axisTable_length hver]
  rfl

/-! ### The channels -/

theorem map_column (ch : Triple → Byte) (x : Nat) (grid : Image) : (column x grid).map ch = column x (channelOf ch grid) := by
  simp [column, channelOf, List.filterMap_map, List.map_filterMap]

theorem plane_eq_map_channelOf (ch : Triple → Byte) (img : Image) :
    plane ch img = (channelOf ch img).map fun row => row.map fun v => (v.toNat : Int) := by
  simp [plane, channelOf, Function.comp_def]

/-- What is worked out place by place commutes with a map that commutes with it at each place. -/
theorem map_mapIdx_comm {α β : Type} {f : Nat → α → α} {g : Nat → β → β} {m : α → β} (h : ∀ i a, m (f i a) = g i (m a))
    (l : List α) : (l.mapIdx f).map m = (l.map m).mapIdx g :=
  List.ext_getElem (by simp) fun i _ _ => by simp [h]

section
variable {ch : Triple → Byte} (hch : ch ∈ channels)
include hch

/-- R87 (c): a channel of TMP is worked out from that channel of FULL. -/
theorem channelOf_horizontalPass (p : Nat) (table : List CoefRow) (full : Image) :
    channelOf ch (horizontalPass p table full) = (channelOf ch full).map fun line => table.map fun row => fir p row line := by
  simp [channelOf, horizontalPass, Function.comp_def, channel_firTriple hch]

/-- R87 (c): a channel of RSZ is worked out from that channel of TMP. -/
theorem channelOf_verticalPass (p dw : Nat) (table : List CoefRow) (tmp : Image) :
    channelOf ch (verticalPass p dw table tmp)
      = table.map fun row => (List.range dw).map fun x => fir p row (column x (channelOf ch tmp)) := by
  simp only [channelOf, verticalPass, List.map_map, Function.comp_def, channel_firTriple hch]
  simp only [map_column, channelOf]

/-- R104: a channel of ENH is worked out from that channel of RSZ. -/
theorem channelOf_sharpenImage (f dh dw : Nat) (img : Image) :
    channelOf ch (sharpenImage f dh dw img) = (channelOf ch img).mapIdx fun y row => row.mapIdx fun x v =>
      sharpenChannel f dh dw ((channelOf ch img).map fun row => row.map fun v => (v.toNat : Int)) y x v := by
  rw [← plane_eq_map_channelOf ch, sharpenImage_eq_mapIdx]
  exact map_mapIdx_comm (fun y row => map_mapIdx_comm (fun x px => channel_sharpenedPixel hch f dh dw img y x px) row) img

end

/-- Settles O21: each channel of either result is a function of that channel of the image. -/
theorem channelsDoNotMix : Obligations.ChannelsDoNotMix := by
  unfold Obligations.ChannelsDoNotMix
  intro ch hch a b hab
  refine ⟨fun p dw hor ver => ?_, fun f dh dw => ?_⟩
  · rw [resample, resample, channelOf_verticalPass hch, channelOf_verticalPass hch, channelOf_horizontalPass hch,
      channelOf_horizontalPass hch, hab]
  · rw [channelOf_sharpenImage hch, channelOf_sharpenImage hch, hab]

end Sys2Proof.Machine
end

section
/-! The resampler at equal sizes (R96 (a)): every tap stands at a whole distance from the centre, where the kernel is 1 or 0, so each row is 2^P at
the centre and 0 elsewhere. -/

namespace Sys2Proof.Machine

/-! ### The tap that takes the fix-up -/

/-- R93: the place found holds the least value, and values before it are greater. -/
theorem nearestTap_isFirstLeast : ∀ {ts : List Nat}, ts ≠ [] → ∃ least, ts[nearestTap ts]? = some least
    ∧ ∀ k t, ts[k]? = some t → least ≤ t ∧ (k < nearestTap ts → least < t)
  | [], h => absurd rfl h
  | t :: rest, _ => by
    by_cases hleast : rest.all (fun u => t ≤ u) = true
    · have hzero : nearestTap (t :: rest) = 0 := if_pos hleast
      rw [hzero]
      refine ⟨t, rfl, fun k u hu => ⟨?_, fun hk => absurd hk k.not_lt_zero⟩⟩
      cases k with
      | zero => exact (Option.some.inj hu).le
      | succ k => simpa using List.all_eq_true.mp hleast u (List.mem_of_getElem? hu)
    · have hsucc : nearestTap (t :: rest) = nearestTap rest + 1 := if_neg hleast
      obtain ⟨u, hu, hlt⟩ : ∃ u ∈ rest, u < t := by simpa using hleast
      obtain ⟨least, hplace, hall⟩ := nearestTap_isFirstLeast (List.ne_nil_of_mem hu)
      obtain ⟨i, hi⟩ := List.mem_iff_getElem?.mp hu
      have hleast_lt : least < t := (hall i u hi).1.trans_lt hlt
      rw [hsucc]
      refine ⟨least, hplace, fun k v hv => ?_⟩
      cases k with
      | zero =>
        obtain rfl := Option.some.inj hv
        exact ⟨hleast_lt.le, fun _ => hleast_lt⟩
      | succ k => exact (hall k v hv).imp_right fun hbefore hk => hbefore (Nat.lt_of_succ_lt_succ hk)

theorem sum_eq_sum_getD (l : List Int) : l.sum = ∑ k ∈ Finset.range l.length, l.getD k 0 := by
  have hsame : l.mapIdx (fun _ a => a) = l := List.ext_getElem (by simp) fun i _ _ => by simp
  conv_lhs => rw [← hsame]
  exact sum_mapIdx fun i a hi => by simp [List.getD_eq_getElem?_getD, hi]

/-! ### The geometry -/

/-- R90: at equal sizes a tap stands at a whole number of pixels from the centre. -/
theorem tapNumerator_self_natAbs (n o k : Nat) :
    (tapNumerator n n o k).natAbs = 2 * n * ((windowLo n n o + k : Nat) - o : Int).natAbs := by
  have hmultiple : tapNumerator n n o k = (2 * n : Nat) * ((windowLo n n o + k : Nat) - o : Int) := by
    rw [tapNumerator]
    push_cast
    ring
  rw [hmultiple, Int.natAbs_mul, Int.natAbs_natCast]

section
variable {n o : Nat} (hn : 0 < n)
include hn

theorem windowLo_self (o : Nat) : windowLo n n o = o - 2 := by
  have hmultiple : ((2 * o + 1) * n - 6 * max n n + n : Int) = (o - 2) * (2 * n) := by
    rw [max_self]
    ring
  have hpos : (2 * n : Int) ≠ 0 := by omega
  have hwhole : windowLo n n o = ((o : Int) - 2).toNat := by
    rw [← Int.mul_ediv_cancel ((o : Int) - 2) hpos, ← hmultiple]
    rfl
  rw [hwhole]
  omega

theorem windowHi_self (o : Nat) : windowHi n n o = min n (o + 4) := by
  have hmultiple : (2 * o + 1) * n + 6 * max n n + n = (o + 4) * (2 * n) := by
    rw [max_self]
    ring
  rw [windowHi, hmultiple, Nat.mul_div_cancel _ (by omega)]

/-- R89: the window reaches from two pixels before the centre to three after it, as far as the line goes. -/
theorem center_mem_window (ho : o < n) : o - windowLo n n o < windowLen n n o ∧ windowLo n n o ≤ o ∧ windowLen n n o ≤ 6 := by
  rw [windowLen, windowLo_self hn, windowHi_self hn]
  omega

end

/-! ### The kernel at whole distances -/

theorem floorDiv_mul_right (a : Int) (b : Nat) {c : Nat} (hc : 0 < c) : floorDiv (a * c) (b * c) = floorDiv a b := by
  rw [floorDiv, floorDiv, Nat.cast_mul, Int.mul_ediv_mul_of_pos_left _ _ (by exact_mod_cast hc)]

theorem ceilDiv_mul_right (a : Int) (b : Nat) {c : Nat} (hc : 0 < c) : ceilDiv (a * c) (b * c) = ceilDiv a b := by
  rw [ceilDiv, ceilDiv, ← neg_mul, Nat.cast_mul, Int.mul_ediv_mul_of_pos_left _ _ (by exact_mod_cast hc)]

/-- R88: the angle depends on the quotient alone. -/
theorem squaredAngle_mul (level a d : Nat) {n : Nat} (hn : 0 < n) : squaredAngle level (n * a) (n * d) = squaredAngle level a d := by
  have hnum (x : Int) : x * ((n * a) ^ 2 * unitAt level : Nat) = x * (a ^ 2 * unitAt level : Nat) * (n ^ 2 : Nat) := by
    push_cast
    ring
  have hden : piUnit level ^ 2 * (n * d) ^ 2 = piUnit level ^ 2 * d ^ 2 * n ^ 2 := by ring
  simp only [squaredAngle, hnum, hden, floorDiv_mul_right _ _ (pow_pos hn 2), ceilDiv_mul_right _ _ (pow_pos hn 2)]

/-- R88: so does the kernel. -/
theorem lanczosEnclosure_mul (level m a : Nat) {n : Nat} (hn : 0 < n) :
    lanczosEnclosure level (n * m) (n * a) = lanczosEnclosure level m a := by
  simp only [lanczosEnclosure, Nat.mul_left_comm _ n m, Nat.mul_le_mul_left_iff hn, squaredAngle_mul _ _ _ hn]

/-- An enclosure within 16 units of 0. -/
def Enclosure.Tiny (e : Enclosure) : Prop := (-16 ≤ e.lo ∧ e.lo ≤ 16) ∧ (-16 ≤ e.hi ∧ e.hi ≤ 16)

/-- R88: the kernel is 1 at the centre. -/
theorem lanczosEnclosure_center : lanczosEnclosure 0 1 0 = { lo := unitAt 0, hi := unitAt 0 } := by decide +kernel

theorem lanczosEnclosure_one_tiny : (lanczosEnclosure 0 1 2).Tiny := by
  unfold Enclosure.Tiny
  decide +kernel

theorem lanczosEnclosure_two_tiny : (lanczosEnclosure 0 1 4).Tiny := by
  unfold Enclosure.Tiny
  decide +kernel

/-- R88: the kernel is 0 at every other whole distance. -/
theorem lanczosEnclosure_whole_tiny {d : Nat} (hd : d ≠ 0) : (lanczosEnclosure 0 1 (2 * d)).Tiny := by
  obtain rfl | rfl | h : d = 1 ∨ d = 2 ∨ 6 * 1 ≤ 2 * d := by omega
  · exact lanczosEnclosure_one_tiny
  · exact lanczosEnclosure_two_tiny
  · rw [lanczosEnclosure, if_pos h]
    exact ⟨by decide, by decide⟩

/-! ### The row of the centre -/

theorem roundHalfAway_eq_zero {x q : Int} (h : 2 * |x| < q) : roundHalfAway x q = 0 := by
  obtain ⟨hlow, hhigh⟩ := abs_lt.mp (show |2 * x| < q by rwa [abs_mul, abs_two])
  rw [roundHalfAway]
  split
  · rw [Int.ediv_eq_zero_of_lt (by omega) (by omega)]
  · rw [Int.ediv_eq_zero_of_lt (by omega) (by omega), neg_zero]

/-- R92: where the first enclosure settles the rounding, that is the coefficient. -/
theorem settle_of_decided {p nIn nOut o k : Nat} {s w : Enclosure} (hs : 0 < s.lo)
    (hq : (quantised p s w).lo = (quantised p s w).hi) : settle p nIn nOut o k s w = (quantised p s w).lo := by
  have hfirst : roundWeight p nIn nOut o k levels 0 s w = some (quantised p s w).lo := if_pos ⟨hs, hq⟩
  rw [settle, hfirst, Option.getD_some]

/-- R92: a tiny weight rounds to 0 against a sum of at least half a unit. -/
theorem settle_tiny {p nIn nOut o k : Nat} {s w : Enclosure} (hp : p ≤ 16) (hw : w.Tiny) (hlo : 2 ^ 79 ≤ s.lo) (hhi : 2 ^ 79 ≤ s.hi) :
    settle p nIn nOut o k s w = 0 := by
  have hpow : (2 : Int) ^ p ≤ 2 ^ 16 := pow_le_pow_right₀ (by norm_num) hp
  have hround {x q : Int} (hx : -16 ≤ x ∧ x ≤ 16) (hq : 2 ^ 79 ≤ q) : roundHalfAway (x * 2 ^ p) q = 0 := by
    refine roundHalfAway_eq_zero ?_
    have hnum : |x * 2 ^ p| ≤ 16 * 2 ^ 16 := by
      rw [abs_mul, abs_of_pos (pow_pos (by norm_num : (0 : Int) < 2) p)]
      exact mul_le_mul (abs_le.mpr hx) hpow (by positivity) (by norm_num)
    omega
  have hqlo : (quantised p s w).lo = 0 := hround hw.1 (by split <;> assumption)
  have hqhi : (quantised p s w).hi = 0 := hround hw.2 (by split <;> assumption)
  rw [settle_of_decided (by omega) (hqlo.trans hqhi.symm), hqlo]

/-- A sum with one member `x`, no member below `-b`. -/
theorem le_sum_of_mem {b x : Int} (hb : 0 ≤ b) : ∀ {l : List Int}, (∀ y ∈ l, -b ≤ y) → x ∈ l → x - b * l.length ≤ l.sum
  | y :: l, hall, hx => by
    obtain ⟨hy, hl⟩ := List.forall_mem_cons.mp hall
    have hrest : -(b * l.length) ≤ l.sum := by
      have := List.card_nsmul_le_sum l (-b) hl
      rwa [nsmul_eq_mul, mul_neg, mul_comm] at this
    rw [List.sum_cons, List.length_cons]
    push_cast
    obtain rfl | hmem := List.mem_cons.mp hx
    · linarith
    · have ih := le_sum_of_mem hb hl hmem
      linarith

section
variable {n o : Nat} (hn : 0 < n)
include hn

theorem weights_self_getElem? {k : Nat} (hk : k < windowLen n n o) :
    (weights 0 n n o)[k]? = some (lanczosEnclosure 0 1 (2 * ((windowLo n n o + k : Nat) - o : Int).natAbs)) := by
  have hscale (d : Nat) : lanczosEnclosure 0 (max n n) (2 * n * d) = lanczosEnclosure 0 1 (2 * d) := by
    rw [max_self, Nat.mul_comm 2 n, Nat.mul_assoc]
    exact (congrArg (lanczosEnclosure 0 · _) (Nat.mul_one n).symm).trans (lanczosEnclosure_mul 0 1 (2 * d) hn)
  rw [weights, List.getElem?_map, List.getElem?_range hk, Option.map_some, tapNumerator_self_natAbs, hscale]

variable (ho : o < n)
include ho

theorem weights_self_center : (weights 0 n n o)[o - windowLo n n o]? = some { lo := unitAt 0, hi := unitAt 0 } := by
  obtain ⟨hlen, hlo, -⟩ := center_mem_window hn ho
  have hzero : ((windowLo n n o + (o - windowLo n n o) : Nat) - o : Int).natAbs = 0 := by omega
  rw [weights_self_getElem? hn hlen, hzero, Nat.mul_zero, lanczosEnclosure_center]

theorem weights_self_tiny {k : Nat} {w : Enclosure} (hw : (weights 0 n n o)[k]? = some w) (hk : k ≠ o - windowLo n n o) : w.Tiny := by
  obtain ⟨-, hlo, -⟩ := center_mem_window hn ho
  have hlen : k < windowLen n n o := by simpa [weights] using (List.getElem?_eq_some_iff.mp hw).1
  rw [weights_self_getElem? hn hlen] at hw
  obtain rfl := Option.some.inj hw
  exact lanczosEnclosure_whole_tiny (by omega)

/-- R91: the weights of a position sum to nearly a unit. -/
theorem weightSum_self : 2 ^ 79 ≤ (weightSum (weights 0 n n o)).lo ∧ 2 ^ 79 ≤ (weightSum (weights 0 n n o)).hi := by
  obtain ⟨-, -, hlen⟩ := center_mem_window hn ho
  have hcenter := List.mem_of_getElem? (weights_self_center hn ho)
  have hall : ∀ w ∈ weights 0 n n o, -16 ≤ w.lo ∧ -16 ≤ w.hi := by
    intro w hw
    obtain ⟨k, hk⟩ := List.mem_iff_getElem?.mp hw
    by_cases hc : k = o - windowLo n n o
    · rw [hc, weights_self_center hn ho] at hk
      obtain rfl := Option.some.inj hk
      simp
    · obtain ⟨⟨hlo, -⟩, hhi, -⟩ := weights_self_tiny hn ho hk hc
      exact ⟨hlo, hhi⟩
  have hlength : (weights 0 n n o).length = windowLen n n o := by simp [weights]
  have hunit : (unitAt 0 : Int) = 2 ^ 80 := by decide
  have hlo := le_sum_of_mem (b := 16) (by norm_num) (l := (weights 0 n n o).map Enclosure.lo)
    (by simpa using fun w hw => (hall w hw).1) (List.mem_map_of_mem hcenter)
  have hhi := le_sum_of_mem (b := 16) (by norm_num) (l := (weights 0 n n o).map Enclosure.hi)
    (by simpa using fun w hw => (hall w hw).2) (List.mem_map_of_mem hcenter)
  rw [List.length_map, hlength] at hlo hhi
  dsimp only at hlo hhi
  dsimp only [weightSum]
  constructor
  · omega
  · omega

theorem nearestTap_self :
    nearestTap ((List.range (windowLen n n o)).map fun k => (tapNumerator n n o k).natAbs) = o - windowLo n n o := by
  obtain ⟨hlen, hlo, -⟩ := center_mem_window hn ho
  have hne : (List.range (windowLen n n o)).map (fun k => (tapNumerator n n o k).natAbs) ≠ [] := by
    simpa using (Nat.zero_le _).trans_lt hlen |>.ne'
  obtain ⟨least, hplace, hall⟩ := nearestTap_isFirstLeast hne
  have hcenter := (hall (o - windowLo n n o) _ (by rw [List.getElem?_map, List.getElem?_range hlen, Option.map_some])).1
  obtain ⟨hj, hleast⟩ := List.getElem?_eq_some_iff.mp hplace
  rw [List.getElem_map, List.getElem_range, tapNumerator_self_natAbs] at hleast
  have hzero : ((windowLo n n o + (o - windowLo n n o) : Nat) - o : Int).natAbs = 0 := by omega
  rw [tapNumerator_self_natAbs, hzero, Nat.mul_zero, ← hleast, Nat.le_zero, Nat.mul_eq_zero] at hcenter
  omega

variable {p : Nat} (hp : p ≤ 16)
include hp

theorem quantisedWeights_self {k : Nat} (hk : k < windowLen n n o) (hc : k ≠ o - windowLo n n o) :
    (quantisedWeights p n n o)[k]? = some 0 := by
  obtain ⟨w, hw⟩ : ∃ w, (weights 0 n n o)[k]? = some w := ⟨_, weights_self_getElem? hn hk⟩
  obtain ⟨hlo, hhi⟩ := weightSum_self hn ho
  rw [quantisedWeights, List.getElem?_mapIdx, hw, Option.map_some, settle_tiny hp (weights_self_tiny hn ho hw hc) hlo hhi]

/-- R93: what the other taps lack of 2^P, all of it, goes to the centre. -/
theorem coefRow_self_getD (k : Nat) : (coefRow p n n o).coefs.getD k 0 = if k = o - windowLo n n o then 2 ^ p else 0 := by
  obtain ⟨hlen, -, -⟩ := center_mem_window hn ho
  have hother {k : Nat} (hk : k ≠ o - windowLo n n o) : (coefRow p n n o).coefs.getD k 0 = 0 := by
    rw [List.getD_eq_getElem?_getD]
    by_cases hin : k < windowLen n n o
    · rw [coefRow, fixUp, nearestTap_self hn ho, List.getElem?_modify_ne _ _ (Ne.symm hk), quantisedWeights_self hn ho hp hin hk,
        Option.getD_some]
    · rw [List.getElem?_eq_none (by rw [coefRow_coefs_length]; omega), Option.getD_none]
  split
  · next hk =>
    have hsum := coefRow_coefs_sum p (o := o) (nIn := n) (nOut := n) (by omega)
    rw [sum_eq_sum_getD, coefRow_coefs_length, Finset.sum_eq_single (o - windowLo n n o) (fun j _ hj => hother hj)
      (fun hout => absurd (Finset.mem_range.mpr hlen) hout)] at hsum
    rw [hk, hsum]
  · next hk => exact hother hk

theorem coefRow_self_bounds {c : Int} (hc : c ∈ (coefRow p n n o).coefs) : 0 ≤ c ∧ c ≤ 2 ^ p := by
  obtain ⟨k, hk⟩ := List.mem_iff_getElem?.mp hc
  have hget := coefRow_self_getD hn ho hp k
  rw [List.getD_eq_getElem?_getD, hk, Option.getD_some] at hget
  rw [hget]
  split
  · exact ⟨by positivity, le_rfl⟩
  · exact ⟨le_rfl, by positivity⟩

/-- R98: the row meets its obligations. -/
theorem rowMeetsObligations_self : rowMeetsObligations n n o (coefRow p n n o) = true := by
  obtain ⟨hlen, -, -⟩ := center_mem_window hn ho
  obtain ⟨hlo, -⟩ := weightSum_self hn ho
  have hpow : 2 ^ p ≤ 2 ^ 16 := Nat.pow_le_pow_right Nat.two_pos hp
  refine rowMeetsObligations_iff.mpr ⟨by omega, fun c hc => ?_, ?_⟩
  · have hbounds := coefRow_self_bounds hn ho hp hc
    zify
    rw [abs_of_nonneg hbounds.1]
    exact hbounds.2.trans_lt (by exact_mod_cast hpow.trans_lt (by norm_num))
  · have habs : (((coefRow p n n o).coefs.map Int.natAbs).sum : Int) = (coefRow p n n o).coefs.sum := by
      have hsame : (coefRow p n n o).coefs.map (Nat.cast ∘ Int.natAbs) = (coefRow p n n o).coefs.map id :=
        List.map_congr_left fun c hc => Int.natAbs_of_nonneg (coefRow_self_bounds hn ho hp hc).1
      rw [Nat.cast_list_sum, List.map_map, hsame, List.map_id]
    rw [coefRow_coefs_sum p (by omega)] at habs
    have habs' : ((coefRow p n n o).coefs.map Int.natAbs).sum = 2 ^ p := by exact_mod_cast habs
    omega

/-- R94: the filter of the row copies the value at its centre. -/
theorem fir_self (hp1 : 1 ≤ p) {src : List Byte} (hsrc : src.length = n) : fir p (coefRow p n n o) src = src.getD o 0 := by
  obtain ⟨hlen, hlo, -⟩ := center_mem_window hn ho
  have hinside : (coefRow p n n o).lo + (coefRow p n n o).coefs.length ≤ src.length := by
    rw [coefRow_coefs_length, hsrc]
    exact windowLo_add_windowLen_le (by omega)
  have hplace : (coefRow p n n o).lo + (o - windowLo n n o) = o := Nat.add_sub_of_le hlo
  refine fir_of_firAcc hp1 ?_
  rw [firAcc_eq_sum hinside, coefRow_coefs_length, Finset.sum_eq_single (o - windowLo n n o)
    (fun k _ hk => by rw [coefRow_self_getD hn ho hp, if_neg hk, zero_mul]) (fun hout => absurd (Finset.mem_range.mpr hlen) hout),
    coefRow_self_getD hn ho hp, if_pos rfl, hplace]

theorem firTriple_self (hp1 : 1 ≤ p) {src : List Triple} (hsrc : src.length = n) {px : Triple} (hpx : src[o]? = some px) :
    firTriple p (coefRow p n n o) src = px := by
  refine eq_of_channels fun ch hch => ?_
  rw [channel_firTriple hch, fir_self hn ho hp hp1 (by rw [List.length_map, hsrc]), List.getD_eq_getElem?_getD, List.getElem?_map,
    hpx, Option.map_some, Option.getD_some]

end

/-! ### The image -/

section
variable {n p : Nat} (hn : 0 < n) (hp : p ≤ 16)
include hn hp

/-- R98: the table of equal sizes is admitted. -/
theorem axisTable_self : axisTable p n n = some ((List.range n).map (coefRow p n n)) := by
  refine if_pos (List.all_eq_true.mpr fun o ho => ?_)
  exact rowMeetsObligations_self hn (List.mem_range.mp ho) hp

variable (hp1 : 1 ≤ p)
include hp1

theorem horizontalPass_self {h : Nat} {full : Image} (hshape : hasShape h n full = true) :
    horizontalPass p ((List.range n).map (coefRow p n n)) full = full := by
  obtain ⟨-, hcols⟩ := (hasShape_iff ..).mp hshape
  refine (List.map_congr_left fun line hline => ?_).trans (List.map_id _)
  refine List.ext_getElem (by simp [hcols line hline]) fun x hx hx' => ?_
  rw [List.getElem_map, List.getElem_map, List.getElem_range]
  exact firTriple_self hn (hcols line hline ▸ hx') hp hp1 (hcols line hline) (List.getElem?_eq_getElem hx')

theorem verticalPass_self {w : Nat} {tmp : Image} (hshape : hasShape n w tmp = true) :
    verticalPass p w ((List.range n).map (coefRow p n n)) tmp = tmp := by
  obtain ⟨hrows, hcols⟩ := (hasShape_iff ..).mp hshape
  refine List.ext_getElem (by simp [verticalPass, hrows]) fun o _ ho => ?_
  have hrow := hcols _ (List.getElem_mem ho)
  refine List.ext_getElem (by simp [verticalPass, hrow]) fun x _ hx => ?_
  have hcolumn := column_getElem? (x := x) (grid := tmp) fun row hr => (hcols row hr).symm ▸ hrow ▸ hx
  have hlength : (column x tmp).length = n := (List.filterMap_length_eq_length.mpr fun row hr => by
    simpa [hcols row hr] using hrow ▸ hx).trans hrows
  simp only [verticalPass, List.getElem_map, List.getElem_range]
  refine firTriple_self hn (hrows ▸ ho) hp hp1 hlength ?_
  rw [hcolumn, pixel, List.getElem?_eq_getElem ho, Option.bind_some, List.getElem?_eq_getElem hx]

end

/-- Settles O20: both tables are admitted, and neither pass changes a pixel. -/
theorem resamplingToTheSameSizeIsTheIdentity : Obligations.ResamplingToTheSameSizeIsTheIdentity := by
  unfold Obligations.ResamplingToTheSameSizeIsTheIdentity
  intro s full hfull hshape hlegal hdw hdh
  obtain ⟨⟨hw, hh, -⟩, -, hkernel, ⟨hp1, hp⟩, -⟩ := Configuration.legal_iff.mp hlegal
  have htables : coefTables s.cfg = some ((List.range s.cfg.w).map (coefRow s.cfg.coefP s.cfg.w s.cfg.w),
      (List.range s.cfg.h).map (coefRow s.cfg.coefP s.cfg.h s.cfg.h)) := by
    rw [coefTables, hdw, hdh, axisTable_self (Nat.pos_of_ne_zero hw) hp, axisTable_self (Nat.pos_of_ne_zero hh) hp]
  refine (exec_rsz_of_full hfull hshape hkernel htables).trans ?_
  rw [resample, horizontalPass_self (Nat.pos_of_ne_zero hw) hp hp1 hshape, hdw,
    verticalPass_self (Nat.pos_of_ne_zero hh) hp hp1 hshape]
  rfl

end Sys2Proof.Machine
end

section
/-! The enclosures of the Lanczos kernel hold it (R88, log 8): pi and its square, the tails of the series of sin(x)/x, which alternate, and the
product of two enclosures. -/

namespace Sys2Proof.Machine

open scoped BigOperators Nat

/-- The number lies in the enclosure over `u`. -/
def Enclosure.Holds (e : Enclosure) (u : Nat) (x : ℝ) : Prop := (e.lo : ℝ) ≤ u * x ∧ u * x ≤ e.hi

/-! ### Pi -/

theorem ceilDiv_le_floorDiv_add_one (a : Int) {b : Nat} (hb : 0 < b) : ceilDiv a b ≤ floorDiv a b + 1 := by
  have hpos : (0 : Int) < b := by exact_mod_cast hb
  have hfloor := Int.lt_ediv_add_one_mul_self a hpos
  have hceil := Int.lt_ediv_add_one_mul_self (-a) hpos
  rw [ceilDiv, floorDiv]
  by_contra h
  nlinarith

/-- Rounding up and rounding down differ by one unit at most in each of the `n` terms. -/
theorem arctanAbove_le_arctanBelow_add (u n : Nat) {q : Nat} (hq : 0 < q) : arctanAbove u q n ≤ arctanBelow u q n + n := by
  have hn : (n : Int) = ((List.range n).map fun _ => (1 : Int)).sum := by simp
  rw [arctanBelow, arctanAbove, hn, ← List.sum_map_add]
  refine List.sum_le_sum fun k _ => ?_
  have hterm := ceilDiv_le_floorDiv_add_one u (b := (2 * k + 1) * q ^ (2 * k + 1)) (by positivity)
  split
  · exact hterm
  · linarith

section
variable (u : Nat) {q m : Nat} (hq : 2 ≤ q)
include hq

/-- The sum rounded down is below arctan(1/q) by its last term and one unit a term at most. -/
theorem le_arctanBelow (hm : 1 ≤ m) : u * (Real.arctan (q : ℝ)⁻¹ - arctanTerm q 1) - 2 * m ≤ arctanBelow u q (2 * m) := by
  have hround : (arctanAbove u q (2 * m) : ℝ) ≤ arctanBelow u q (2 * m) + 2 * m := by
    exact_mod_cast arctanAbove_le_arctanBelow_add u (2 * m) (q := q) (by omega)
  have hsum := le_arctanAbove u q (2 * m) (by omega)
  have hanti := arctanTerm_antitone (q := q) (by omega)
  have hlimit := hanti.tendsto_le_alternating_series (tendsto_arctan hq) m
  rw [Finset.sum_range_succ, (even_two_mul m).neg_one_pow, one_mul] at hlimit
  have hlast : arctanTerm q (2 * m) ≤ arctanTerm q 1 := hanti (by omega)
  have hpartial : Real.arctan (q : ℝ)⁻¹ - arctanTerm q 1 ≤ ∑ k ∈ Finset.range (2 * m), (-1) ^ k * arctanTerm q k := by linarith
  have hscaled := mul_le_mul_of_nonneg_left hpartial (Nat.cast_nonneg u)
  linarith

/-- The sum rounded up is above arctan(1/q) by its first term and one unit a term at most. -/
theorem arctanAbove_le : arctanAbove u q (2 * m + 1) ≤ u * (Real.arctan (q : ℝ)⁻¹ + arctanTerm q 0) + (2 * m + 1) := by
  have hround : (arctanAbove u q (2 * m + 1) : ℝ) ≤ arctanBelow u q (2 * m + 1) + (2 * m + 1) := by
    exact_mod_cast arctanAbove_le_arctanBelow_add u (2 * m + 1) (q := q) (by omega)
  have hsum := arctanBelow_le u q (2 * m + 1) (by omega)
  have hanti := arctanTerm_antitone (q := q) (by omega)
  have hlimit := hanti.alternating_series_le_tendsto (tendsto_arctan hq) m
  have hlast : arctanTerm q (2 * m) ≤ arctanTerm q 0 := hanti (by omega)
  rw [Finset.sum_range_succ, (even_two_mul m).neg_one_pow, one_mul] at hsum
  have hscaled := mul_le_mul_of_nonneg_left (add_le_add hlimit hlast) (Nat.cast_nonneg u)
  linarith

end

theorem piEnclosure_lo_nonneg (level : Nat) : 0 ≤ (piEnclosure level).lo := by
  have h5 := le_arctanBelow (piUnit level) (q := 5) (m := bitsAt level / 8 + 2) (by norm_num) (by omega)
  have h239 := arctanAbove_le (piUnit level) (q := 239) (m := bitsAt level / 8 + 2) (by norm_num)
  have hlo : ((piEnclosure level).lo : ℝ) = 16 * (arctanBelow (piUnit level) 5 (2 * (bitsAt level / 8 + 2)) : ℝ)
      - 4 * (arctanAbove (piUnit level) 239 (2 * (bitsAt level / 8 + 2) + 1) : ℝ) := by
    simp only [piEnclosure, arctanEnclosure, Int.cast_sub, Int.cast_mul, Int.cast_ofNat]
  have hunit : 40 * (bitsAt level / 8 + 2) + 4 ≤ piUnit level := by
    have hpow : bitsAt level < 2 ^ bitsAt level := Nat.lt_two_pow_self
    rw [piUnit, Nat.pow_add]
    omega
  have hpi := Real.four_mul_arctan_inv_5_sub_arctan_inv_239
  have ht1 : arctanTerm 5 1 = 1 / 375 := by norm_num [arctanTerm]
  have ht0 : arctanTerm 239 0 = 1 / 239 := by norm_num [arctanTerm]
  rw [ht1] at h5
  rw [ht0] at h239
  rw [← Int.cast_nonneg_iff (R := ℝ), hlo]
  generalize arctanBelow _ _ _ = below at h5 ⊢
  generalize arctanAbove _ _ _ = above at h239 ⊢
  generalize bitsAt level / 8 + 2 = m at h5 h239 hunit
  generalize piUnit level = unit at h5 h239 hunit
  have hunit' : 40 * (m : ℝ) + 4 ≤ unit := by exact_mod_cast hunit
  have hscaled : (unit : ℝ) * 3 ≤ unit * Real.pi := mul_le_mul_of_nonneg_left Real.pi_gt_three.le (Nat.cast_nonneg unit)
  have hmachin : (unit : ℝ) * Real.pi = 16 * (unit * Real.arctan ((5 : Nat) : ℝ)⁻¹) - 4 * (unit * Real.arctan ((239 : Nat) : ℝ)⁻¹) := by
    push_cast
    linear_combination (-4 * (unit : ℝ)) * hpi
  linarith

/-! ### The series of sin(x)/x -/

/-- Term `j` of the series of sin(x)/x from term `i` on, divided by that term, without its sign; `z` is x squared. -/
noncomputable def sincTerm (z : ℝ) (i j : Nat) : ℝ := z ^ j * (2 * i + 1)! / (2 * (i + j) + 1)!

/-- The series of sin(x)/x from term `i` on, divided by that term. -/
noncomputable def sincTail (z : ℝ) (i : Nat) : ℝ := ∑' j, (-1) ^ j * sincTerm z i j

theorem sincTerm_zero (z : ℝ) (i : Nat) : sincTerm z i 0 = 1 := by
  rw [sincTerm, pow_zero, one_mul, Nat.add_zero]
  exact div_self (by positivity)

theorem factorial_two_steps (n : Nat) : ((2 * (n + 1) + 1)! : ℝ) = (2 * n + 2) * (2 * n + 3) * (2 * n + 1)! := by
  have h : (2 * (n + 1) + 1)! = (2 * n + 3) * ((2 * n + 2) * (2 * n + 1)!) := rfl
  rw [h]
  push_cast
  ring

/-- The first factor taken out of a term. -/
theorem sincTerm_succ (z : ℝ) (i j : Nat) : sincTerm z i (j + 1) = z / ((2 * i + 2) * (2 * i + 3)) * sincTerm z (i + 1) j := by
  have hplace : i + (j + 1) = i + 1 + j := by omega
  rw [sincTerm, sincTerm, hplace, factorial_two_steps i, pow_succ']
  field_simp

/-- The last factor taken out of a term. -/
theorem sincTerm_succ_eq_mul (z : ℝ) (i j : Nat) :
    sincTerm z i (j + 1) = sincTerm z i j * (z / ((2 * (i + j : Nat) + 2) * (2 * (i + j : Nat) + 3))) := by
  rw [sincTerm, sincTerm, ← Nat.add_assoc i j 1, factorial_two_steps (i + j), pow_succ]
  field_simp

theorem summable_sincTerm (z : ℝ) (i : Nat) : Summable fun j => (-1) ^ j * sincTerm z i j := by
  refine Summable.of_norm_bounded ((Real.summable_pow_div_factorial |z|).mul_left ((2 * i + 1)! : ℝ)) fun j => ?_
  have hfact : (j ! : ℝ) ≤ (2 * (i + j) + 1)! := by exact_mod_cast Nat.factorial_le (by omega)
  rw [Real.norm_eq_abs, abs_mul, abs_pow, abs_neg, abs_one, one_pow, one_mul, sincTerm, abs_div, abs_mul, abs_pow, Nat.abs_cast,
    Nat.abs_cast, mul_comm, mul_div_assoc]
  gcongr

/-- Horner's rule: the tail from term `i` on from the tail after it. -/
theorem sincTail_eq (z : ℝ) (i : Nat) : sincTail z i = 1 - z / ((2 * i + 2) * (2 * i + 3)) * sincTail z (i + 1) := by
  have hterm (j : Nat) : (-1) ^ (j + 1) * sincTerm z i (j + 1)
      = -(z / ((2 * i + 2) * (2 * i + 3))) * ((-1) ^ j * sincTerm z (i + 1) j) := by
    rw [sincTerm_succ]
    ring
  rw [sincTail, (summable_sincTerm z i).tsum_eq_zero_add, sincTerm_zero]
  simp only [hterm, tsum_mul_left]
  rw [← sincTail]
  ring

theorem sincTail_sq_zero {x : ℝ} (hx : x ≠ 0) : sincTail (x ^ 2) 0 = Real.sin x / x := by
  have hterm (j : Nat) : (-1) ^ j * sincTerm (x ^ 2) 0 j = (-1) ^ j * x ^ (2 * j + 1) / (2 * j + 1)! / x := by
    rw [sincTerm, ← pow_mul, pow_succ, Nat.zero_add, Nat.zero_add, Nat.factorial_one, Nat.cast_one]
    field_simp
  rw [sincTail, tsum_congr hterm]
  exact ((Real.hasSum_sin x).div_const x).tsum_eq

/-- A tail with falling terms lies in 0 to 1. -/
theorem sincTail_mem {z : ℝ} {i : Nat} (hz : 0 ≤ z) (hsmall : z ≤ (2 * i + 2) * (2 * i + 3)) : 0 ≤ sincTail z i ∧ sincTail z i ≤ 1 := by
  have hanti : Antitone (sincTerm z i) := by
    refine antitone_nat_of_succ_le fun j => ?_
    have hterm : 0 ≤ sincTerm z i j := by rw [sincTerm]; positivity
    have hfactor : z / ((2 * (i + j : Nat) + 2) * (2 * (i + j : Nat) + 3)) ≤ 1 := by
      rw [div_le_one (by positivity)]
      refine hsmall.trans ?_
      push_cast
      gcongr <;> simp
    rw [sincTerm_succ_eq_mul]
    exact mul_le_of_le_one_right hterm hfactor
  have hlimit := (summable_sincTerm z i).hasSum.tendsto_sum_nat
  have hlow := hanti.alternating_series_le_tendsto hlimit 0
  have hhigh := hanti.tendsto_le_alternating_series hlimit 0
  simp only [Nat.mul_zero, Finset.sum_range_zero, Nat.zero_add, Finset.sum_range_one, pow_zero, one_mul, sincTerm_zero] at hlow hhigh
  exact ⟨hlow, hhigh⟩

theorem sinc_eq_sincTail (t : ℝ) : Reference.sinc t = sincTail ((Real.pi * t) ^ 2) 0 := by
  rw [Reference.sinc]
  split
  · next h =>
    rw [h, mul_zero, sincTail_eq]
    simp
  · next h => exact (sincTail_sq_zero (mul_ne_zero Real.pi_ne_zero h)).symm

/-! ### The operations on enclosures -/

section
variable {e f : Enclosure} {u v : Nat} {x y : ℝ}

theorem mulNonneg_holds (hz : 0 ≤ e.lo) (hx : e.Holds u x) (hy : f.Holds v y) : (mulNonneg e f).Holds (u * v) (x * y) := by
  obtain ⟨hxlo, hxhi⟩ := hx
  obtain ⟨hylo, hyhi⟩ := hy
  have hz' : (0 : ℝ) ≤ e.lo := by exact_mod_cast hz
  have hx0 : 0 ≤ u * x := hz'.trans hxlo
  have hprod : ((u * v : Nat) : ℝ) * (x * y) = u * x * (v * y) := by push_cast; ring
  rw [Enclosure.Holds, hprod]
  dsimp only [mulNonneg]
  constructor
  · refine le_trans ?_ (mul_le_mul_of_nonneg_left hylo hx0)
    split
    · next h => rw [Int.cast_mul]; exact mul_le_mul_of_nonneg_right hxlo (by exact_mod_cast h)
    · next h => rw [Int.cast_mul]; exact mul_le_mul_of_nonpos_right hxhi (by exact_mod_cast (not_le.mp h).le)
  · refine (mul_le_mul_of_nonneg_left hyhi hx0).trans ?_
    split
    · next h => rw [Int.cast_mul]; exact mul_le_mul_of_nonneg_right hxhi (by exact_mod_cast h)
    · next h => rw [Int.cast_mul]; exact mul_le_mul_of_nonpos_right hxlo (by exact_mod_cast (not_le.mp h).le)

/-- A number between two others, times a third. -/
theorem mul_mem_of_mem {a b c x : ℝ} (ha : a ≤ x) (hb : x ≤ b) : min (a * c) (b * c) ≤ x * c ∧ x * c ≤ max (a * c) (b * c) := by
  rcases le_total 0 c with hc | hc
  · exact ⟨(min_le_left _ _).trans (mul_le_mul_of_nonneg_right ha hc), (mul_le_mul_of_nonneg_right hb hc).trans (le_max_right _ _)⟩
  · exact ⟨(min_le_right _ _).trans (mul_le_mul_of_nonpos_right hb hc), (mul_le_mul_of_nonpos_right ha hc).trans (le_max_left _ _)⟩

theorem mulEnclosure_holds (hu : 0 < u) (hx : e.Holds u x) (hy : f.Holds u y) : (mulEnclosure u e f).Holds u (x * y) := by
  obtain ⟨hxlo, hxhi⟩ := hx
  obtain ⟨hylo, hyhi⟩ := hy
  have hu' : (0 : ℝ) < u := by exact_mod_cast hu
  have hx' := mul_mem_of_mem (c := u * y) hxlo hxhi
  have hlo := mul_mem_of_mem (c := (e.lo : ℝ)) hylo hyhi
  have hhi := mul_mem_of_mem (c := (e.hi : ℝ)) hylo hyhi
  simp only [mul_comm _ (e.lo : ℝ)] at hlo
  simp only [mul_comm _ (e.hi : ℝ)] at hhi
  have hprod : u * (x * y) = u * x * (u * y) / u := by field_simp
  rw [Enclosure.Holds, hprod, mulEnclosure]
  constructor
  · refine (floorDiv_le _ hu).trans (div_le_div_of_nonneg_right ?_ hu'.le)
    push_cast
    exact (min_le_min hlo.1 hhi.1).trans hx'.1
  · refine le_trans (div_le_div_of_nonneg_right ?_ hu'.le) (le_ceilDiv _ hu)
    push_cast
    exact hx'.2.trans (max_le_max hlo.2 hhi.2)

end

theorem unitAt_pos (level : Nat) : 0 < unitAt level := Nat.two_pow_pos _

/-- R88, log 8: Horner's rule on enclosures holds each tail, given that the last one lies in 0 to 1. -/
theorem sincSeries_holds {u : Nat} (hu : 0 < u) {e : Enclosure} {z : ℝ} (he : 0 ≤ e.lo) (hz : e.Holds u z) (fuel i : Nat)
    (hsmall : z ≤ (2 * (i + fuel : Nat) + 2) * (2 * (i + fuel : Nat) + 3)) :
    (sincSeries u e (i + 1) fuel).Holds u (sincTail z i) := by
  have hu' : (0 : ℝ) < u := by exact_mod_cast hu
  have hz0 : 0 ≤ z := by
    have hlo : (0 : ℝ) ≤ e.lo := by exact_mod_cast he
    exact nonneg_of_mul_nonneg_right (hlo.trans hz.1) hu'
  induction fuel generalizing i with
  | zero =>
    obtain ⟨hlow, hhigh⟩ := sincTail_mem hz0 hsmall
    exact ⟨by simpa [sincSeries] using mul_nonneg hu'.le hlow, by simpa [sincSeries] using mul_le_of_le_one_right hu'.le hhigh⟩
  | succ fuel ih =>
    have htail := ih (i + 1) (by rwa [Nat.add_right_comm, Nat.add_assoc])
    obtain ⟨hlo, hhi⟩ := mulNonneg_holds he hz htail
    have hd : 0 < u * (2 * (i + 1) * (2 * (i + 1) + 1)) := by positivity
    have hvalue : u * sincTail z i = u - ((u * u : Nat) : ℝ) * (z * sincTail z (i + 1)) / (u * (2 * (i + 1) * (2 * (i + 1) + 1)) : Nat) := by
      rw [sincTail_eq z i]
      push_cast
      field_simp
      ring
    rw [Enclosure.Holds, hvalue]
    dsimp only [sincSeries]
    rw [Int.cast_sub, Int.cast_sub, Int.cast_natCast]
    have hd' : (0 : ℝ) ≤ (u * (2 * (i + 1) * (2 * (i + 1) + 1)) : Nat) := Nat.cast_nonneg _
    exact ⟨sub_le_sub_left ((div_le_div_of_nonneg_right hhi hd').trans (le_ceilDiv _ hd)) _,
      sub_le_sub_left ((floorDiv_le _ hd).trans (div_le_div_of_nonneg_right hlo hd')) _⟩

/-- The square of pi * a / d over one unit, from pi over another. -/
theorem unit_mul_angle_sq {unit piUnit d : Nat} (a : Nat) (hunit : 0 < piUnit) (hd : 0 < d) :
    (unit : ℝ) * (Real.pi * (a / d)) ^ 2 = (piUnit * Real.pi) ^ 2 * (a ^ 2 * unit : Nat) / (piUnit ^ 2 * d ^ 2 : Nat) := by
  push_cast
  field_simp

/-- R88: the square of pi * a / d. -/
theorem squaredAngle_holds (level a : Nat) {d : Nat} (hd : 0 < d) :
    (squaredAngle level a d).Holds (unitAt level) ((Real.pi * (a / d)) ^ 2) := by
  obtain ⟨hlo, hhi⟩ := piEnclosure_holds level
  have hlo0 : (0 : ℝ) ≤ (piEnclosure level).lo := by exact_mod_cast piEnclosure_lo_nonneg level
  have hunit : 0 < piUnit level := Nat.two_pow_pos _
  have hden : 0 < piUnit level ^ 2 * d ^ 2 := Nat.mul_pos (pow_pos hunit 2) (pow_pos hd 2)
  rw [Enclosure.Holds, unit_mul_angle_sq a hunit hd]
  constructor
  · refine (floorDiv_le _ hden).trans (div_le_div_of_nonneg_right ?_ (Nat.cast_nonneg _))
    rw [Int.cast_mul, Int.cast_pow, Int.cast_natCast]
    exact mul_le_mul_of_nonneg_right (pow_le_pow_left₀ hlo0 hlo 2) (Nat.cast_nonneg _)
  · refine le_trans (div_le_div_of_nonneg_right ?_ (Nat.cast_nonneg _)) (le_ceilDiv _ hden)
    rw [Int.cast_mul, Int.cast_pow, Int.cast_natCast]
    exact mul_le_mul_of_nonneg_right (pow_le_pow_left₀ (hlo0.trans hlo) hhi 2) (Nat.cast_nonneg _)

theorem squaredAngle_lo_nonneg (level a d : Nat) : 0 ≤ (squaredAngle level a d).lo := by
  rw [squaredAngle, floorDiv]
  positivity

/-- R88: the enclosure of sin(pi*t)/(pi*t) for t = a / d below 3. -/
theorem sincEnclosure_holds (level : Nat) {a d : Nat} (hd : 0 < d) (hsmall : a < 3 * d) :
    (sincEnclosure level (squaredAngle level a d)).Holds (unitAt level) (Reference.sinc (a / d)) := by
  rw [sinc_eq_sincTail]
  refine sincSeries_holds (unitAt_pos level) (squaredAngle_lo_nonneg level a d) (squaredAngle_holds level a hd) _ 0 ?_
  have hd' : (0 : ℝ) < d := by exact_mod_cast hd
  have ht : (a / d : ℝ) ≤ 3 := (div_le_iff₀ hd').mpr (by exact_mod_cast hsmall.le)
  have hterms : (30 : ℝ) ≤ (0 + sincTerms level : Nat) := by
    have : 30 * 1 ≤ 30 * 2 ^ level := Nat.mul_le_mul_left _ (Nat.one_le_two_pow)
    rw [Nat.zero_add, sincTerms]
    exact_mod_cast this
  calc (Real.pi * (a / d)) ^ 2 ≤ (4 * 3) ^ 2 := by gcongr; exact Real.pi_lt_four.le
    _ ≤ (2 * 30 + 2) * (2 * 30 + 3) := by norm_num
    _ ≤ _ := by gcongr

/-! ### The kernel -/

/-- R88: below 3 the kernel is the product, at 0 as well. -/
theorem lanczos_of_lt {t : ℝ} (h : |t| < 3) : Reference.lanczos t = Reference.sinc t * Reference.sinc (t / 3) := by
  rw [Reference.lanczos]
  split
  · next h0 => simp [h0, Reference.sinc]
  · rfl

theorem lanczos_of_ge {t : ℝ} (h : 3 ≤ |t|) : Reference.lanczos t = 0 := by
  have h0 : t ≠ 0 := by
    rintro rfl
    norm_num at h
  rw [Reference.lanczos, if_neg h0, if_neg (not_lt.mpr h)]

/-- R88: the enclosure of the kernel at t = a / (2m). -/
theorem lanczosEnclosure_holds (level a : Nat) {m : Nat} (hm : 0 < m) :
    (lanczosEnclosure level m a).Holds (unitAt level) (Reference.lanczos (a / (2 * m))) := by
  have hm' : (0 : ℝ) < 2 * m := by positivity
  have habs : |(a / (2 * m) : ℝ)| = a / (2 * m) := abs_of_nonneg (by positivity)
  rw [lanczosEnclosure]
  split
  · next h =>
    rw [lanczos_of_ge]
    · simp [Enclosure.Holds]
    · rw [habs, le_div_iff₀ hm']
      exact_mod_cast (by omega : 3 * (2 * m) ≤ a)
  · next h =>
    rw [lanczos_of_lt]
    · have h1 := sincEnclosure_holds level (a := a) (d := 2 * m) (by omega) (by omega)
      have h3 := sincEnclosure_holds level (a := a) (d := 6 * m) (by omega) (by omega)
      have hthird : (a / (2 * m) / 3 : ℝ) = a / (6 * m) := by field_simp; ring
      push_cast at h1 h3
      rw [hthird]
      exact mulEnclosure_holds (unitAt_pos level) h1 h3
    · rw [habs, div_lt_iff₀ hm']
      exact_mod_cast (by omega : a < 3 * (2 * m))

/-- Settles O15: the enclosure holds the kernel, divided by the unit of the level. -/
theorem enclosureHoldsTheRealKernel : Obligations.EnclosureHoldsTheRealKernel := by
  unfold Obligations.EnclosureHoldsTheRealKernel
  intro level m a hm
  obtain ⟨hlo, hhi⟩ := lanczosEnclosure_holds level a hm
  have hunit : (0 : ℝ) < unitAt level := by exact_mod_cast unitAt_pos level
  exact ⟨(div_le_iff₀' hunit).mpr hlo, (le_div_iff₀' hunit).mpr hhi⟩

end Sys2Proof.Machine
end

section
/-! The geometry of the real rules (R89, R90) in the machine's integers, and the weights they give the taps, enclosed at every level (R91). -/

namespace Sys2Proof.Machine

open scoped BigOperators

/-! ### Floors of quotients -/

theorem floor_intCast_div_natCast (a : ℤ) (b : ℕ) : ⌊(a : ℝ) / b⌋ = a / (b : ℤ) := by
  rw [← Rat.floor_intCast_div_natCast, ← Rat.floor_cast (α := ℝ)]
  push_cast
  rfl

/-! ### The window -/

section
variable {nIn nOut : ℕ} (hout : 0 < nOut)
include hout

/-- R89: the filter scale over the denominator n_out. -/
theorem fscale_eq : Reference.fscale nIn nOut = (max nIn nOut : ℕ) / nOut := by
  have h1 : (1 : ℝ) = (nOut : ℝ) / nOut := (div_self (by positivity)).symm
  rw [Reference.fscale, Reference.scale, h1, max_div_div_right (Nat.cast_nonneg _), Nat.cast_max]

theorem reference_lo_eq (o : ℕ) : Reference.lo nIn nOut o = windowLo nIn nOut o := by
  have hquot : Reference.center nIn nOut o - Reference.support nIn nOut + 1 / 2
      = (((2 * o + 1) * nIn - 6 * max nIn nOut + nOut : ℤ) : ℝ) / (2 * nOut : ℕ) := by
    rw [Reference.center, Reference.support, Reference.scale, fscale_eq hout]
    push_cast
    field_simp
    ring
  rw [Reference.lo, hquot, floor_intCast_div_natCast, windowLo, Int.ofNat_toNat, max_comm]
  push_cast
  rfl

theorem reference_hi_eq (o : ℕ) : Reference.hi nIn nOut o = windowHi nIn nOut o := by
  have hquot : Reference.center nIn nOut o + Reference.support nIn nOut + 1 / 2
      = (((2 * o + 1) * nIn + 6 * max nIn nOut + nOut : ℕ) : ℤ) / (2 * nOut : ℕ) := by
    rw [Reference.center, Reference.support, Reference.scale, fscale_eq hout]
    push_cast
    field_simp
    ring
  rw [Reference.hi, hquot, floor_intCast_div_natCast, windowHi]
  push_cast
  rfl

theorem reference_len_eq (o : ℕ) : Reference.len nIn nOut o = windowLen nIn nOut o := by
  rw [Reference.len, reference_lo_eq hout, reference_hi_eq hout, windowLen]
  omega

/-- R90: the place of a tap over the denominator 2*max(n_in, n_out). -/
theorem reference_tap_eq (o k : ℕ) : Reference.tap nIn nOut o k = (tapNumerator nIn nOut o k : ℝ) / (2 * (max nIn nOut : ℕ)) := by
  have hmax : (0 : ℝ) < (max nIn nOut : ℕ) := by exact_mod_cast hout.trans_le (le_max_right _ _)
  rw [Reference.tap, reference_lo_eq hout, Reference.center, Reference.scale, fscale_eq hout, tapNumerator]
  push_cast at hmax ⊢
  field_simp

theorem abs_reference_tap (o k : ℕ) :
    |Reference.tap nIn nOut o k| = ((tapNumerator nIn nOut o k).natAbs : ℝ) / (2 * (max nIn nOut : ℕ)) := by
  rw [reference_tap_eq hout, abs_div, Nat.cast_natAbs, Int.cast_abs, abs_of_nonneg (by positivity : (0 : ℝ) ≤ 2 * (max nIn nOut : ℕ))]

end

/-! ### The weights -/

theorem sinc_neg (u : ℝ) : Reference.sinc (-u) = Reference.sinc u := by
  simp [Reference.sinc]

/-- R88: the kernel is even. -/
theorem lanczos_abs (t : ℝ) : Reference.lanczos |t| = Reference.lanczos t := by
  have hneg (t : ℝ) : Reference.lanczos (-t) = Reference.lanczos t := by
    simp only [Reference.lanczos, neg_eq_zero, abs_neg, sinc_neg, neg_div]
  rcases abs_choice t with h | h <;> rw [h]
  exact hneg t

section
variable {nIn nOut : ℕ} (hout : 0 < nOut) (o : ℕ)
include hout

/-- R90: the weight of a tap, the kernel at its distance. -/
theorem reference_weight_eq (k : ℕ) : Reference.weight nIn nOut o k
    = Reference.lanczos (((tapNumerator nIn nOut o k).natAbs : ℝ) / (2 * (max nIn nOut : ℕ))) := by
  rw [Reference.weight, ← lanczos_abs, abs_reference_tap hout]

theorem weights_holds (level : ℕ) {k : ℕ} {w : Enclosure} (h : (weights level nIn nOut o)[k]? = some w) :
    w.Holds (unitAt level) (Reference.weight nIn nOut o k) := by
  obtain ⟨hk, rfl⟩ := List.getElem?_eq_some_iff.mp h
  simp only [weights, List.getElem_map, List.getElem_range]
  rw [reference_weight_eq hout]
  exact lanczosEnclosure_holds level _ (hout.trans_le (le_max_right _ _))

/-- R91: the sum of the weights. -/
theorem weightSum_holds (level : ℕ) :
    (weightSum (weights level nIn nOut o)).Holds (unitAt level) (Reference.weightSum nIn nOut o) := by
  have hget (k : ℕ) (hk : k ∈ Finset.range (windowLen nIn nOut o)) := weights_holds hout o level (k := k)
    (w := lanczosEnclosure level (max nIn nOut) (tapNumerator nIn nOut o k).natAbs)
    (by rw [weights, List.getElem?_map, List.getElem?_range (Finset.mem_range.mp hk)]; rfl)
  rw [Enclosure.Holds, Reference.weightSum, reference_len_eq hout, Finset.mul_sum]
  simp only [weightSum, weights, List.map_map, cast_sum_range]
  exact ⟨Finset.sum_le_sum fun k hk => (hget k hk).1, Finset.sum_le_sum fun k hk => (hget k hk).2⟩

/-- R91: the sum is positive where its enclosure is. -/
theorem reference_weightSum_pos {level : ℕ} (h : 0 < (weightSum (weights level nIn nOut o)).lo) : 0 < Reference.weightSum nIn nOut o := by
  have hlo : (0 : ℝ) < (weightSum (weights level nIn nOut o)).lo := by exact_mod_cast h
  exact pos_of_mul_pos_right (hlo.trans_le (weightSum_holds hout o level).1) (Nat.cast_nonneg _)

end

end Sys2Proof.Machine
end

section
/-! The exact test for a half (R92, log 8): a sum of multiples of roots of unity that is 0 says that a weight is h/2 of the sum. -/

namespace Sys2Proof.Machine

open scoped BigOperators

/-! ### Cosines as sums of roots of unity -/

/-- The first n-th root of unity, exp(2*pi*i/n). -/
noncomputable def rootOfUnity (n : ℕ) : ℂ := Complex.exp (2 * Real.pi * Complex.I / n)

/-- Twice the difference of cosines that `cosineTerms` spells in powers of the root. -/
noncomputable def cosineGap (n a : ℕ) : ℝ := 2 * Real.cos (2 * (Real.pi * a / n)) - 2 * Real.cos (4 * (Real.pi * a / n))

theorem rootOfUnity_isPrimitiveRoot {n : ℕ} (hn : 0 < n) : IsPrimitiveRoot (rootOfUnity n) n :=
  Complex.isPrimitiveRoot_exp n hn.ne'

theorem rootOfUnity_pow_add_inv (n j : ℕ) :
    rootOfUnity n ^ j + (rootOfUnity n ^ j)⁻¹ = (2 * Real.cos (2 * (Real.pi * j / n)) : ℝ) := by
  have hangle : (j : ℂ) * (2 * Real.pi * Complex.I / n) = (2 * (Real.pi * j / n) : ℝ) * Complex.I := by
    push_cast
    ring
  rw [rootOfUnity, ← Complex.exp_nat_mul, hangle, ← Complex.exp_neg, ← neg_mul, ← Complex.two_cos]
  push_cast
  rfl

theorem evalTerms_append (x : ℂ) (ts us : List (ℕ × ℤ)) : evalTerms x (ts ++ us) = evalTerms x ts + evalTerms x us := by
  simp [evalTerms]

theorem evalTerms_flatten_range (x : ℂ) (f : ℕ → List (ℕ × ℤ)) (n : ℕ) :
    evalTerms x ((List.range n).map f).flatten = ∑ j ∈ Finset.range n, evalTerms x (f j) := by
  induction n with
  | zero => simp [evalTerms]
  | succ n ih => simp [List.range_succ, evalTerms_append, ih, Finset.sum_range_succ]

theorem evalTerms_cosineTerms {n a : ℕ} (hn : 0 < n) (ha : a ≤ n) (c : ℤ) :
    evalTerms (rootOfUnity n) (cosineTerms n a c) = (c * cosineGap n a : ℝ) := by
  have hone := (rootOfUnity_isPrimitiveRoot hn).pow_eq_one
  have hne := (rootOfUnity_isPrimitiveRoot hn).ne_zero hn.ne'
  have hback : rootOfUnity n ^ (n - a) = (rootOfUnity n ^ a)⁻¹ := by rw [pow_sub₀ _ hne ha, hone, one_mul]
  have hback2 : rootOfUnity n ^ (2 * n - 2 * a) = (rootOfUnity n ^ (2 * a))⁻¹ := by
    rw [pow_sub₀ _ hne (by omega), mul_comm 2 n, pow_mul, hone, one_pow, one_mul]
  have hcos := rootOfUnity_pow_add_inv n a
  have hcos2 := rootOfUnity_pow_add_inv n (2 * a)
  have hangle : 2 * (Real.pi * (2 * a : ℕ) / n) = 4 * (Real.pi * a / n) := by
    push_cast
    ring
  rw [hangle] at hcos2
  simp only [evalTerms, cosineTerms, List.map_cons, List.map_nil, List.sum_cons, List.sum_nil, ← pow_eq_pow_mod _ hone, hback, hback2]
  rw [cosineGap, Complex.ofReal_mul, Complex.ofReal_sub, ← hcos, ← hcos2]
  push_cast
  ring

/-! ### The kernel as a cosine gap -/

/-- R88: below 3 lobes the kernel at a / (2m) is the cosine gap over a^2, up to a factor that all taps share. -/
theorem lanczos_mul_sq {m a : ℕ} (ha : a ≠ 0) (hlt : a < 6 * m) :
    Reference.lanczos (a / (2 * m)) * a ^ 2 = 3 * m ^ 2 / Real.pi ^ 2 * cosineGap (6 * m) a := by
  have hm : (0 : ℝ) < m := by exact_mod_cast (by omega : 0 < m)
  have ha' : (0 : ℝ) < a := by exact_mod_cast Nat.pos_of_ne_zero ha
  have hlt' : (a : ℝ) < 6 * m := by exact_mod_cast hlt
  have hsmall : |(a / (2 * m) : ℝ)| < 3 := by
    rw [abs_of_pos (by positivity), div_lt_iff₀ (by positivity)]
    linarith
  have hangle : Real.pi * (a / (2 * m)) = 3 * (Real.pi * a / (6 * m : ℕ)) := by
    push_cast
    field_simp
    norm_num
  have hangle3 : Real.pi * (a / (2 * m) / 3) = Real.pi * a / (6 * m : ℕ) := by
    push_cast
    field_simp
    norm_num
  have hproduct (θ : ℝ) : 2 * Real.cos (2 * θ) - 2 * Real.cos (4 * θ) = 4 * (Real.sin (3 * θ) * Real.sin θ) := by
    have h2 := Real.cos_sub (3 * θ) θ
    have h4 := Real.cos_add (3 * θ) θ
    rw [(by ring : 3 * θ - θ = 2 * θ)] at h2
    rw [(by ring : 3 * θ + θ = 4 * θ)] at h4
    linarith
  rw [lanczos_of_lt hsmall, Reference.sinc, Reference.sinc, if_neg (by positivity), if_neg (by positivity), hangle, hangle3, cosineGap,
    hproduct]
  push_cast
  have hpi := Real.pi_pos
  field_simp
  ring

/-! ### The test -/

/-- What the exact test multiplies the weight of tap `j` by. -/
def halfMultiple (p k : ℕ) (h : ℤ) (j : ℕ) : ℤ := (if j = k then (2 ^ (p + 1) : ℕ) else 0) - h

theorem sum_halfMultiple (p k : ℕ) (h : ℤ) (f : ℕ → ℝ) {n : ℕ} (hk : k < n) :
    ∑ j ∈ Finset.range n, halfMultiple p k h j * f j = 2 ^ (p + 1) * f k - h * ∑ j ∈ Finset.range n, f j := by
  have hterm (j : ℕ) : halfMultiple p k h j * f j = (if j = k then 2 ^ (p + 1) * f k else 0) - h * f j := by
    rw [halfMultiple]
    split
    · next hj => subst hj; push_cast; ring
    · push_cast; ring
  simp only [hterm, Finset.sum_sub_distrib, Finset.sum_ite_eq', Finset.mem_range, if_pos hk, Finset.mul_sum]

/-- One tap of the test: its terms have the value of its weight, times its multiple and a factor that all taps share. -/
theorem evalTerms_tap {m a : ℕ} (ha : a ≠ 0) {den : ℤ} (hden : a < 6 * m → (a : ℤ) ^ 2 ∣ den) (c : ℤ) (hm : 0 < m) :
    evalTerms (rootOfUnity (6 * m)) (if a < 6 * m then cosineTerms (6 * m) a (c * (den / (a : ℤ) ^ 2)) else [])
      = (den * Real.pi ^ 2 / (3 * m ^ 2) * (c * Reference.lanczos (a / (2 * m))) : ℝ) := by
  have hm' : (0 : ℝ) < m := by exact_mod_cast hm
  have ha' : (a : ℝ) ≠ 0 := by exact_mod_cast ha
  split
  · next hlt =>
    have hkernel := lanczos_mul_sq ha hlt
    have hcast : ((den / (a : ℤ) ^ 2 : ℤ) : ℝ) = den / (a : ℝ) ^ 2 := by
      rw [Int.cast_div (hden hlt) (by exact_mod_cast pow_ne_zero 2 ha')]
      push_cast
      rfl
    rw [evalTerms_cosineTerms (by omega) hlt.le, Int.cast_mul, hcast]
    congr 1
    have hpi := Real.pi_ne_zero
    field_simp at hkernel ⊢
    linear_combination (-c * den : ℝ) * hkernel
  · next hge =>
    have hge' : (6 * m : ℝ) ≤ a := by exact_mod_cast not_lt.mp hge
    have hbig : 3 ≤ |(a / (2 * m) : ℝ)| := by
      rw [abs_of_nonneg (by positivity), le_div_iff₀ (by positivity)]
      linarith
    rw [lanczos_of_ge hbig]
    simp [evalTerms]

/-- The denominator of the test: a multiple of the square of every tap below `n`. -/
def halfDenominator (n : ℕ) (taps : List ℕ) : ℤ := ((taps.filter (· < n)).map fun a => (a : ℤ) ^ 2).prod

theorem halfDenominator_eq (n : ℕ) (taps : List ℕ) :
    halfDenominator n taps = ((taps.filter (· < n)).map fun a : ℕ => (a : ℤ) ^ 2).prod := by
  simp [halfDenominator, ← List.map_eq_flatMap, Function.comp_def]

theorem sq_dvd_halfDenominator {n a : ℕ} {taps : List ℕ} (ha : a ∈ taps) (hlt : a < n) : (a : ℤ) ^ 2 ∣ halfDenominator n taps := by
  rw [halfDenominator_eq]
  exact List.dvd_prod (List.mem_map_of_mem (List.mem_filter.mpr ⟨ha, decide_eq_true hlt⟩))

theorem halfDenominator_ne_zero {n : ℕ} {taps : List ℕ} (h : ∀ a ∈ taps, a ≠ 0) : halfDenominator n taps ≠ 0 := by
  rw [halfDenominator_eq]
  refine List.prod_ne_zero fun hzero => ?_
  obtain ⟨a, ha, hsq⟩ := List.mem_map.mp hzero
  exact h a (List.mem_filter.mp ha).1 (by simpa using hsq)

theorem mapIdx_map_range {α β : Type} (f : ℕ → α) (g : ℕ → α → β) (n : ℕ) :
    ((List.range n).map f).mapIdx g = (List.range n).map fun j => g j (f j) :=
  List.ext_getElem (by simp) fun i _ _ => by simp

/-- The distances of the taps from the centre, over 2*max(n_in, n_out). -/
def tapDistances (nIn nOut o : ℕ) : List ℕ := (List.range (windowLen nIn nOut o)).map fun j => (tapNumerator nIn nOut o j).natAbs

theorem isHalf_iff {p nIn nOut o k : ℕ} {h : ℤ} : isHalf p nIn nOut o k h = true ↔ (∀ a ∈ tapDistances nIn nOut o, a ≠ 0)
    ∧ vanishesAtRoot (6 * max nIn nOut) ((tapDistances nIn nOut o).mapIdx fun j a => if a < 6 * max nIn nOut then
        cosineTerms (6 * max nIn nOut) a
          (halfMultiple p k h j * (halfDenominator (6 * max nIn nOut) (tapDistances nIn nOut o) / (a : ℤ) ^ 2))
      else []).flatten = true := by
  rw [isHalf, Bool.and_eq_true, List.all_eq_true]
  simp only [decide_eq_true_eq]
  rfl

/-- R92, log 8: a weight that passes the exact test is h / 2^(p+1) of the sum. -/
theorem isHalf_sound {p nIn nOut o k : ℕ} {h : ℤ} (hout : 0 < nOut) (hk : k < windowLen nIn nOut o) (hhalf : isHalf p nIn nOut o k h = true) :
    2 ^ (p + 1) * Reference.weight nIn nOut o k = h * Reference.weightSum nIn nOut o := by
  have hm : 0 < max nIn nOut := hout.trans_le (le_max_right _ _)
  obtain ⟨hnonzero, hvanish⟩ := isHalf_iff.mp hhalf
  have htap {j : ℕ} (hj : j ∈ Finset.range (windowLen nIn nOut o)) :
      (tapNumerator nIn nOut o j).natAbs ∈ tapDistances nIn nOut o :=
    List.mem_map_of_mem (List.mem_range.mpr (Finset.mem_range.mp hj))
  have hden := halfDenominator_ne_zero (n := 6 * max nIn nOut) hnonzero
  have hsum := vanishesAtRoot_sound (by omega) (rootOfUnity_isPrimitiveRoot (by omega)) hvanish
  rw [tapDistances, mapIdx_map_range, ← tapDistances, evalTerms_flatten_range,
    Finset.sum_congr rfl fun j hj => evalTerms_tap (hnonzero _ (htap hj)) (sq_dvd_halfDenominator (htap hj)) (halfMultiple p k h j) hm]
    at hsum
  simp only [← reference_weight_eq hout, ← Complex.ofReal_sum, ← Finset.mul_sum, sum_halfMultiple p k h _ hk] at hsum
  have hm' : (0 : ℝ) < (max nIn nOut : ℕ) := by exact_mod_cast hm
  have hfactor : (halfDenominator (6 * max nIn nOut) (tapDistances nIn nOut o) * Real.pi ^ 2 / (3 * (max nIn nOut : ℕ) ^ 2) : ℝ) ≠ 0 :=
    div_ne_zero (mul_ne_zero (by exact_mod_cast hden) (pow_ne_zero 2 Real.pi_ne_zero)) (by positivity)
  rw [Reference.weightSum, reference_len_eq hout]
  exact sub_eq_zero.mp ((mul_eq_zero.mp (Complex.ofReal_eq_zero.mp hsum)).resolve_left hfactor)

end Sys2Proof.Machine
end

section
/-! The rounding of the weights (R92), and the rows of a table (R93), against the rules over the real numbers. -/

namespace Sys2Proof.Machine

open scoped BigOperators

/-! ### Rounding half away from 0 -/

theorem roundHalfAway_eq (a : ℤ) {q : ℤ} (hq : 0 < q) : roundHalfAway a q = Reference.roundHalfAway (a / q) := by
  obtain ⟨n, rfl⟩ := Int.eq_ofNat_of_zero_le hq.le
  have hn : (0 : ℝ) < (n : ℕ) := by exact_mod_cast hq
  have hfloor (b : ℤ) : ⌊(b / n + 1 / 2 : ℝ)⌋ = (2 * b + n) / (2 * n) := by
    have hquot : (b / n + 1 / 2 : ℝ) = (2 * b + n : ℤ) / (2 * n : ℕ) := by
      push_cast
      field_simp
    rw [hquot, floor_intCast_div_natCast]
    push_cast
    rfl
  have hsign : (0 : ℝ) ≤ a / n ↔ 0 ≤ a := by
    rw [le_div_iff₀ hn, zero_mul, Int.cast_nonneg_iff]
  rw [roundHalfAway, Reference.roundHalfAway, Int.cast_natCast, if_congr hsign rfl rfl, hfloor, ← neg_div, ← Int.cast_neg, hfloor]

theorem reference_roundHalfAway_mono {r s : ℝ} (h : r ≤ s) : Reference.roundHalfAway r ≤ Reference.roundHalfAway s := by
  rw [Reference.roundHalfAway, Reference.roundHalfAway]
  have hnonneg {x : ℝ} (hx : 0 ≤ x) : 0 ≤ ⌊x + 1 / 2⌋ := Int.floor_nonneg.mpr (by linarith)
  split
  · next hr =>
    rw [if_pos (hr.trans h)]
    exact Int.floor_mono (by linarith)
  · next hr =>
    have hneg := hnonneg (x := -r) (by linarith)
    split
    · next hs => linarith [hnonneg hs]
    · exact neg_le_neg (Int.floor_mono (by linarith))

/-- R92: a half goes to the integer further from 0. -/
theorem reference_roundHalfAway_half (z : ℤ) : Reference.roundHalfAway (z + 1 / 2) = if 0 ≤ z then z + 1 else z := by
  rw [Reference.roundHalfAway]
  by_cases hz : 0 ≤ z
  · have hz' : (0 : ℝ) ≤ z := by exact_mod_cast hz
    have hnext : (z + 1 / 2 + 1 / 2 : ℝ) = (z + 1 : ℤ) := by push_cast; ring
    rw [if_pos (by positivity), if_pos hz, hnext, Int.floor_intCast]
  · have hz' : (z : ℝ) ≤ -1 := by exact_mod_cast (by omega : z ≤ -1)
    have hback : (-(z + 1 / 2) + 1 / 2 : ℝ) = (-z : ℤ) := by push_cast; ring
    rw [if_neg (by linarith), if_neg hz, hback, Int.floor_intCast, neg_neg]

/-! ### The enclosures settle the rounding -/

theorem div_le_div_left_of_nonpos {a b c : ℝ} (ha : a ≤ 0) (hb : 0 < b) (h : b ≤ c) : a / b ≤ a / c := by
  have := div_le_div_of_nonneg_left (neg_nonneg.mpr ha) hb h
  rwa [neg_div, neg_div, neg_le_neg_iff] at this

section
variable {p u : ℕ} {s w : Enclosure} {S W : ℝ} (hs : s.Holds u S) (hw : w.Holds u W) (hpos : 0 < s.lo)
include hs hw hpos

theorem quantised_holds : (quantised p s w).lo ≤ Reference.roundHalfAway (W / S * 2 ^ p)
    ∧ Reference.roundHalfAway (W / S * 2 ^ p) ≤ (quantised p s w).hi := by
  obtain ⟨hslo, hshi⟩ := hs
  obtain ⟨hwlo, hwhi⟩ := hw
  have hpos' : (0 : ℝ) < s.lo := by exact_mod_cast hpos
  have hsum : 0 < u * S := hpos'.trans_le hslo
  have hpos_hi : (0 : ℝ) < s.hi := hsum.trans_le hshi
  have hpos_hi' : 0 < s.hi := by exact_mod_cast hpos_hi
  have hquot : W / S = u * W / (u * S) := (mul_div_mul_left _ _ (left_ne_zero_of_mul hsum.ne')).symm
  have hmul (a b : ℤ) : ((a * 2 ^ p : ℤ) : ℝ) / (b : ℝ) = a / b * 2 ^ p := by
    push_cast
    ring
  have hlower : (w.lo : ℝ) / (if 0 ≤ w.lo then s.hi else s.lo : ℤ) ≤ u * W / (u * S) := by
    refine le_trans ?_ (div_le_div_of_nonneg_right hwlo hsum.le)
    split
    · next h => exact div_le_div_of_nonneg_left (by exact_mod_cast h) hsum hshi
    · next h => exact div_le_div_left_of_nonpos (by exact_mod_cast (not_le.mp h).le) hpos' hslo
  have hupper : u * W / (u * S) ≤ (w.hi : ℝ) / (if 0 ≤ w.hi then s.lo else s.hi : ℤ) := by
    refine (div_le_div_of_nonneg_right hwhi hsum.le).trans ?_
    split
    · next h => exact div_le_div_of_nonneg_left (by exact_mod_cast h) hpos' hslo
    · next h => exact div_le_div_left_of_nonpos (by exact_mod_cast (not_le.mp h).le) hsum hshi
  have hden (c : Prop) [Decidable c] : 0 < (if c then s.hi else s.lo) ∧ 0 < (if c then s.lo else s.hi) := by
    split
    · exact ⟨hpos_hi', hpos⟩
    · exact ⟨hpos, hpos_hi'⟩
  rw [quantised, roundHalfAway_eq _ (hden _).1, roundHalfAway_eq _ (hden _).2, hmul, hmul, hquot]
  exact ⟨reference_roundHalfAway_mono (mul_le_mul_of_nonneg_right hlower (by positivity)),
    reference_roundHalfAway_mono (mul_le_mul_of_nonneg_right hupper (by positivity))⟩

end

section
variable {p nIn nOut o k : ℕ} (hout : 0 < nOut) (hk : k < windowLen nIn nOut o)
include hout hk

theorem weights_getD_holds (level : ℕ) (d : Enclosure) :
    ((weights level nIn nOut o).getD k d).Holds (unitAt level) (Reference.weight nIn nOut o k) := by
  have hlen : k < (weights level nIn nOut o).length := by simpa [weights] using hk
  rw [List.getD_eq_getElem _ _ hlen]
  exact weights_holds hout o level (List.getElem?_eq_getElem hlen)

variable (hsum : 0 < Reference.weightSum nIn nOut o)
include hsum

theorem quantised_of_isHalf {z : ℤ} (h : isHalf p nIn nOut o k (2 * z + 1) = true) :
    Reference.quantised p nIn nOut o k = if 0 ≤ z then z + 1 else z := by
  have hhalf := isHalf_sound hout hk h
  have hquot : Reference.weight nIn nOut o k / Reference.weightSum nIn nOut o * 2 ^ p = z + 1 / 2 := by
    push_cast at hhalf
    field_simp
    linear_combination hhalf
  rw [Reference.quantised, hquot, reference_roundHalfAway_half]

/-- R92: what some level decides is the rounded weight. -/
theorem roundWeight_sound {q : ℤ} : ∀ (fuel level : ℕ) (s w : Enclosure), s.Holds (unitAt level) (Reference.weightSum nIn nOut o) →
    w.Holds (unitAt level) (Reference.weight nIn nOut o k) → roundWeight p nIn nOut o k fuel level s w = some q →
    q = Reference.quantised p nIn nOut o k
  | 0, _, _, _, _, _, h => nomatch h
  | fuel + 1, level, s, w, hs, hw, h => by
    rw [roundWeight] at h
    split at h
    · next hdecided =>
      obtain ⟨hpos, heq⟩ := hdecided
      obtain ⟨hlo, hhi⟩ := quantised_holds (p := p) hs hw hpos
      rw [← Option.some.inj h]
      exact le_antisymm hlo (heq ▸ hhi)
    · split at h
      · next hhalf => rw [← Option.some.inj h, quantised_of_isHalf hout hk hsum hhalf]
      · exact roundWeight_sound fuel (level + 1) _ _ (weightSum_holds hout o _) (weights_getD_holds hout hk _ _) h

end

/-! ### The rows -/

theorem tapDistances_getElem? {nIn nOut o k : ℕ} (hk : k < windowLen nIn nOut o) :
    (tapDistances nIn nOut o)[k]? = some (tapNumerator nIn nOut o k).natAbs := by
  rw [tapDistances, List.getElem?_map, List.getElem?_range hk, Option.map_some]

theorem tapDistances_length (nIn nOut o : ℕ) : (tapDistances nIn nOut o).length = windowLen nIn nOut o := by
  simp [tapDistances]

/-- R93: the index that takes the fix-up. -/
theorem nearestTap_isNearest {nIn nOut o : ℕ} (hout : 0 < nOut) (hlen : 0 < windowLen nIn nOut o) :
    Reference.IsNearest nIn nOut o (nearestTap (tapDistances nIn nOut o)) := by
  have hne : tapDistances nIn nOut o ≠ [] := List.ne_nil_of_length_pos (by rwa [tapDistances_length])
  have hmax : (0 : ℝ) < 2 * (max nIn nOut : ℕ) := by exact_mod_cast Nat.mul_pos two_pos (hout.trans_le (le_max_right nIn nOut))
  obtain ⟨least, hplace, hall⟩ := nearestTap_isFirstLeast hne
  have hj : nearestTap (tapDistances nIn nOut o) < windowLen nIn nOut o := by
    rw [← tapDistances_length]
    exact (List.getElem?_eq_some_iff.mp hplace).1
  obtain rfl : _ = least := Option.some.inj ((tapDistances_getElem? hj).symm.trans hplace)
  rw [Reference.IsNearest, reference_len_eq hout]
  refine ⟨hj, fun k hk => ?_⟩
  obtain ⟨hle, hlt⟩ := hall k _ (tapDistances_getElem? hk)
  rw [abs_reference_tap hout, abs_reference_tap hout, div_le_div_iff_of_pos_right hmax, div_lt_div_iff_of_pos_right hmax]
  exact ⟨by exact_mod_cast hle, fun hlow => by exact_mod_cast hlt hlow⟩

theorem fixUp_getElem? {p j k : ℕ} {qs : List ℤ} {q : ℤ} (hq : qs[k]? = some q) :
    (fixUp p j qs)[k]? = some (if k = j then q + (2 ^ p - qs.sum) else q) := by
  rw [fixUp, List.getElem?_modify, hq]
  by_cases hkj : k = j
  · simp [hkj]
  · simp [hkj, Ne.symm hkj]

/-- R92: every rounding of the row is decided at some level or by the exact test. -/
def RowDecided (p nIn nOut o : ℕ) : Prop := ∀ (k : ℕ) (w : Enclosure), (weights 0 nIn nOut o)[k]? = some w →
  (roundWeight p nIn nOut o k levels 0 (weightSum (weights 0 nIn nOut o)) w).isSome = true

section
variable {p nIn nOut o : ℕ} (hout : 0 < nOut) (hpos : 0 < (weightSum (weights 0 nIn nOut o)).lo) (hdecided : RowDecided p nIn nOut o)
include hout hpos hdecided

theorem quantisedWeights_getElem? {k : ℕ} (hk : k < windowLen nIn nOut o) :
    (quantisedWeights p nIn nOut o)[k]? = some (Reference.quantised p nIn nOut o k) := by
  obtain ⟨w, hw⟩ : ∃ w, (weights 0 nIn nOut o)[k]? = some w := ⟨_, List.getElem?_eq_getElem (by simpa [weights] using hk)⟩
  obtain ⟨q, hq⟩ := Option.isSome_iff_exists.mp (hdecided k w hw)
  have hsound := roundWeight_sound hout hk (reference_weightSum_pos hout o hpos) _ _ _ _ (weightSum_holds hout o 0)
    (weights_holds hout o 0 hw) hq
  rw [quantisedWeights, List.getElem?_mapIdx, hw, Option.map_some, settle, hq, Option.getD_some, hsound]

theorem quantisedWeights_sum :
    (quantisedWeights p nIn nOut o).sum = ∑ k ∈ Finset.range (windowLen nIn nOut o), Reference.quantised p nIn nOut o k := by
  rw [sum_eq_sum_getD, quantisedWeights_length]
  refine Finset.sum_congr rfl fun k hk => ?_
  rw [List.getD_eq_getElem?_getD, quantisedWeights_getElem? hout hpos hdecided (Finset.mem_range.mp hk), Option.getD_some]

/-- R93: the coefficients of a decided row. -/
theorem coefRow_getElem?_of_decided {k : ℕ} (hk : k < windowLen nIn nOut o) :
    (coefRow p nIn nOut o).coefs[k]? = some (Reference.coef p nIn nOut o (nearestTap (tapDistances nIn nOut o)) k) := by
  have hfix := fixUp_getElem? (p := p) (j := nearestTap (tapDistances nIn nOut o)) (quantisedWeights_getElem? hout hpos hdecided hk)
  rw [quantisedWeights_sum hout hpos hdecided] at hfix
  refine hfix.trans (congrArg some ?_)
  rw [Reference.coef, reference_len_eq hout]
  split
  · next hkj => rw [hkj]
  · rfl

end

/-- Settles O16: the enclosures hold the weights and their sum, so what a level decides is the rounded weight; where the exact test finds a
half, a sum of multiples of roots of unity is 0, and that sum is the difference of 2^(p+1) times the weight and h times the sum. -/
theorem coefficientRowsAreThoseOfTheRealRules : Obligations.CoefficientRowsAreThoseOfTheRealRules := by
  unfold Obligations.CoefficientRowsAreThoseOfTheRealRules
  intro p nIn nOut o _ hout _
  refine ⟨fun hpos hdecided => ?_, fun k h hk hhalf => isHalf_sound hout hk hhalf⟩
  rw [reference_len_eq hout]
  exact ⟨(reference_lo_eq hout o).symm, coefRow_coefs_length p nIn nOut o, reference_weightSum_pos hout o hpos,
    nearestTap (tapDistances nIn nOut o), nearestTap_isNearest hout (windowLen_pos_of_weightSum hpos),
    fun k hk => coefRow_getElem?_of_decided hout hpos hdecided hk⟩

end Sys2Proof.Machine
end
